-- ==== Sys2Proof/Word.lean ====
section
/-! DEFINITION. The word and byte types (`00_scope.md` R10) and their plainest views. -/

namespace Sys2Proof

/-- A register word: 32 bits, unsigned, bit 0 the least significant (R10). -/
abbrev Word := BitVec 32

/-- A byte of the serial bus, of the flash image or of main memory. -/
abbrev Byte := BitVec 8

/-- Byte `k` of a word, `v[8k+7:8k]` (R98). -/
abbrev Word.byte (v : Word) (k : Nat) : Byte := v.extractLsb' (8 * k) 8

/-- The field `v[hi:lo]` as an unsigned number (R10). -/
abbrev Word.field (v : Word) (hi lo : Nat) : Nat := (v.extractLsb' lo (hi + 1 - lo)).toNat

end Sys2Proof
end

