-- ==== Sys2Proof/Config.lean ====
section
/-! DEFINITION. What an instance of the controller fixes at construction (`00_scope.md` R2, R6, R8, R9), the events
its environment can observe on the serial bus (`20_memory.md` R81), and the values the spec leaves free. -/

namespace Sys2Proof

/-- The six fixed variants (R2), under the spec's own keys. -/
inductive Variant where
  /-- `V_LEGACY`: legacy 5-slave, no DMA. -/
  | legacy
  /-- `V_FMC`: 5-slave with DMA. -/
  | fmc
  /-- `V_SPI`: 1-slave, no DMA. -/
  | spi
  /-- `V_2500_FMC`: AST2500 3-slave with DMA. -/
  | ast2500Fmc
  /-- `V_2500_SPI1`: AST2500 2-slave, no DMA. -/
  | ast2500Spi1
  /-- `V_2500_SPI2`: AST2500 2-slave, no DMA. -/
  | ast2500Spi2
deriving DecidableEq, Repr

/-- The level of a chip-select output (R12, R39): logical levels only. -/
inductive Level where
  | active
  | inactive
deriving DecidableEq, Repr

/-- The level of the interrupt output (R12, R39). -/
inductive Line where
  | high
  | low
deriving DecidableEq, Repr

/-- What the flash chips observe (R81): a change of a chip-select level, or one byte exchanged. -/
inductive BusEvent where
  /-- `CSi+` or `CSi-`: output `i` changed to this level. -/
  | cs (i : Nat) (l : Level)
  /-- `SpiXfer(tx)`, which answered `rx`. -/
  | xfer (tx rx : Byte)
deriving DecidableEq, Repr

/-- An address window `[addr, addr + size)` of bus addresses (R36). -/
structure Window where
  addr : Nat
  size : Nat
deriving DecidableEq, Repr

/-- The switch `SEG0_FIX_KEEPS` (D10, I22): what the correction of a SEG(0) write keeps. -/
inductive Seg0Keeps where
  | size
  | endField
deriving DecidableEq, Repr

/-- The switch `CKSUM_INIT` (D21, I22): where a transfer's checksum starts. -/
inductive CksumInit where
  | zero
  | register
deriving DecidableEq, Repr

/-- The configuration of one instance: its variant with the parameters of R6, the instance's own (R8), the
constants of R9 and the model switches (I22). No step changes it (R20). -/
structure Config where
  variant : Variant
  /-- `V.name` (R6, D6): the variant's name; no rule reads it -/
  name : String
  /-- `num_cs`, after the clamp of R8 -/
  numCs : Nat
  sdramBase : Word
  /-- per channel: is a backing storage attached (R36) -/
  storage : List Bool
  rConf : Nat
  rCeCtrl : Nat
  rCtrl0 : Nat
  rTimings : Nat
  weBase : Nat
  /-- `NREGS`, the words of the register file -/
  nregs : Nat
  flashBase : Nat
  flashSize : Nat
  defaultSegs : List Window
  fixedLastEnd : Bool
  opRead : Byte
  opEn4b : Byte
  dummyTx : Byte
  dmaFlashMask : Word
  dmaDramMask : Word
  dmaLenMask : Word
  seg0Keeps : Seg0Keeps
  weGatesUser : Bool
  cksumInit : CksumInit
deriving DecidableEq, Repr

/-- FREE VALUE (R81, R345, I11, I12): the byte the serial bus answers to `tx`, at the given draw and after the given
history of exchanges and chip-select changes. Any byte. -/
opaque Config.freeSpiReply : Nat → List BusEvent → Byte → Byte

/-- FREE VALUE (R68, I13): the byte of channel `i`'s flash image at an offset, at the given draw and after the given
bus history. Any byte: `RomImage` is a function of the step. -/
opaque Config.freeRomByte : Nat → List BusEvent → Nat → Nat → Byte

/-- FREE VALUE (R69(b), I9): the word a read of a hole at a bus address answers. Any word. -/
opaque Config.freeHoleRead : Nat → List BusEvent → Nat → Word

/-- FREE VALUE (R69(a), I1): which of the containing channels decodes a bus address, a number taken modulo how many
they are. -/
opaque Config.freeChannelPick : Nat → List BusEvent → Nat → Nat

end Sys2Proof
end

