-- ==== Sys2Proof/Machine/Layout.lean ====
section
/-! DEFINITION. The variants' fixed facts (`00_scope.md` R2), the constraints on parameters (R7 to R9), the register
map (`10_state.md` R22) and the register-address decode (`30_encoding.md` R91), and the reference configurations. -/

namespace Sys2Proof

/-- Number of channels and of segment registers (R2). -/
def Variant.maxSlaves : Variant → Nat
  | .legacy => 5
  | .fmc => 5
  | .spi => 1
  | .ast2500Fmc => 3
  | .ast2500Spi1 => 2
  | .ast2500Spi2 => 2

/-- Is the DMA engine present (R2)? -/
def Variant.hasDma : Variant → Bool
  | .legacy => false
  | .fmc => true
  | .spi => false
  | .ast2500Fmc => true
  | .ast2500Spi1 => false
  | .ast2500Spi2 => false

/-- The emulator's names of the six variants (G1; PRESUMED, log 6), the defaults of `V.name`. -/
def Variant.presumedName : Variant → String
  | .legacy => "aspeed.smc.smc"
  | .fmc => "aspeed.smc.fmc"
  | .spi => "aspeed.smc.spi"
  | .ast2500Fmc => "aspeed.smc.ast2500-fmc"
  | .ast2500Spi1 => "aspeed.smc.ast2500-spi1"
  | .ast2500Spi2 => "aspeed.smc.ast2500-spi2"

/-- The largest `max_slaves` of the six variants (R2, R22): slave indices run from 0 to 4. -/
def slaveLimit : Nat := 5

/-- The unit of windows, 8 MB (R180). -/
def segUnit : Nat := 8388608

namespace Config

/-- `V.max_slaves` of this instance. -/
def maxSlaves (c : Config) : Nat := c.variant.maxSlaves

/-- `V.has_dma` of this instance. -/
def hasDma (c : Config) : Bool := c.variant.hasDma

/-- Is a backing storage attached to channel `i` (R36)? -/
def storageAttached (c : Config) (i : Nat) : Bool := c.storage.getD i false

/-- The default window of channel `i` (R6). -/
def defaultSeg (c : Config) (i : Nat) : Window := c.defaultSegs.getD i ⟨0, 0⟩

/-- `FIXED_END` of the topmost channel (R185). -/
def fixedEnd (c : Config) : Nat :=
  (c.defaultSeg (c.maxSlaves - 1)).addr + (c.defaultSeg (c.maxSlaves - 1)).size

/-- The DMA registers' byte offsets, where the variant has them (R22). -/
def dmaOffsets (c : Config) : List Nat :=
  if c.hasDma then [0x80, 0x84, 0x88, 0x8C, 0x90] else []

/-- The byte offsets of the named registers of the variant (R22, R7(a), (e)). DESIGN CHOICE (log 35): R7 speaks of the
registers of a variant and R22 lists CTRL(i) for `i < num_cs` only; the model counts CTRL(i) for every
`i < max_slaves`. -/
def namedOffsets (c : Config) : List Nat :=
  [c.rConf, c.rCeCtrl, 0x08, c.rTimings, 0x50, 0x54] ++ c.dmaOffsets
    ++ (List.range c.maxSlaves).map (fun i => c.rCtrl0 + 4 * i)
    ++ (List.range c.maxSlaves).map (fun i => 0x30 + 4 * i)

/-- R7(a), (e): the register file holds every named register, at distinct word offsets; it may hold any number of
words more. That offsets are multiples of 4 and that the write-enable bits lie in the word is DEDUCED from R22, R71, R10
and R23 (log 27). -/
abbrev LayoutOk (c : Config) : Prop :=
  38 ≤ c.nregs ∧ c.namedOffsets.Nodup ∧
    (∀ o ∈ c.namedOffsets, o % 4 = 0 ∧ o / 4 < c.nregs) ∧ c.weBase + c.maxSlaves ≤ 32

/-- Every named register has a byte offset of 32 bits, and so can be presented at it. DESIGN CHOICE (log 2): the spec
gives a register offset no width, and a presented operation of the model carries 32 bits of it. No step asks for this:
it is a premise of statements about encodings. -/
abbrev OffsetsFit (c : Config) : Prop := ∀ o ∈ c.namedOffsets, o < 0x100000000

/-- R8: `num_cs <= V.max_slaves`, and one entry per channel where there is one per channel. -/
abbrev InstanceOk (c : Config) : Prop :=
  c.numCs ≤ c.maxSlaves ∧ c.storage.length = c.maxSlaves ∧ c.defaultSegs.length = c.maxSlaves

/-- R7(b), (c) of one default window. -/
abbrev SegOk (c : Config) (w : Window) : Prop :=
  w.addr % segUnit = 0 ∧ w.size % segUnit = 0 ∧ c.flashBase ≤ w.addr ∧ w.addr + w.size ≤ c.flashBase + c.flashSize

/-- R7(b), (c), (d), (f): the default windows and the flash window. -/
abbrev WindowsOk (c : Config) : Prop :=
  c.flashBase % segUnit = 0 ∧ c.flashSize % segUnit = 0 ∧ c.flashBase + c.flashSize ≤ 0xFF * segUnit ∧
    (∀ w ∈ c.defaultSegs, SegOk c w) ∧ (c.defaultSeg 0).addr = c.flashBase

/-- The constraint of R9 on the length mask. -/
abbrev MasksOk (c : Config) : Prop :=
  c.dmaLenMask &&& 3 = 0 ∧ c.dmaLenMask.toNat ≤ 0xFFFFFFF8

/-- A configuration that meets the constraints every rule of the spec assumes (R7, R8, R9; I21). -/
abbrev Valid (c : Config) : Prop := c.LayoutOk ∧ c.InstanceOk ∧ c.WindowsOk ∧ c.MasksOk

end Config

namespace Machine

/-- The category of a register offset (R91). -/
inductive Category where
  | outOfRange
  | conf
  | timings
  | ceCtrl
  | intrCtrl
  | dmaCtrl
  | dmaFlashAddr
  | dmaDramAddr
  | dmaLen
  | dmaChecksum
  | seg (i : Nat)
  | ctrl (i : Nat)
  | unimplemented
deriving DecidableEq, Repr

/-- R91: the first line that matches, in the table's order. -/
def categoryOf (c : Config) (off : Nat) : Category :=
  if c.nregs ≤ off / 4 then .outOfRange
  else if off = c.rConf then .conf
  else if off = c.rTimings then .timings
  else if off = c.rCeCtrl then .ceCtrl
  else if off = 0x08 then .intrCtrl
  else if c.hasDma ∧ off = 0x80 then .dmaCtrl
  else if c.hasDma ∧ off = 0x84 then .dmaFlashAddr
  else if c.hasDma ∧ off = 0x88 then .dmaDramAddr
  else if c.hasDma ∧ off = 0x8C then .dmaLen
  else if c.hasDma ∧ off = 0x90 then .dmaChecksum
  else if 0x30 ≤ off ∧ off < 0x30 + 4 * c.maxSlaves then .seg ((off - 0x30) / 4)
  else if c.rCtrl0 ≤ off ∧ off < c.rCtrl0 + 4 * c.numCs then .ctrl ((off - c.rCtrl0) / 4)
  else .unimplemented

/-- `R_CONF` (R22). -/
def idxConf (c : Config) : Nat := c.rConf / 4
/-- `R_CE_CTRL` (R22). -/
def idxCeCtrl (c : Config) : Nat := c.rCeCtrl / 4
/-- `R_TIMINGS` (R22). -/
def idxTimings (c : Config) : Nat := c.rTimings / 4
/-- `R_INTR_CTRL` (R22). -/
def idxIntrCtrl : Nat := 2
/-- `R_DMA_CTRL` (R22). -/
def idxDmaCtrl : Nat := 32
/-- `R_DMA_FLASH_ADDR` (R22). -/
def idxDmaFlashAddr : Nat := 33
/-- `R_DMA_DRAM_ADDR` (R22). -/
def idxDmaDramAddr : Nat := 34
/-- `R_DMA_LEN` (R22). -/
def idxDmaLen : Nat := 35
/-- `R_DMA_CHECKSUM` (R22). -/
def idxDmaChecksum : Nat := 36
/-- `R_SEG(i)` (R22). -/
def idxSeg (i : Nat) : Nat := 12 + i
/-- `R_CTRL(i)` (R22). -/
def idxCtrl (c : Config) (i : Nat) : Nat := c.rCtrl0 / 4 + i

/-- The register-file word of a category, where the instance has that register (R22, R91's conditions);
none for a category without a stored word. -/
def wordIndex (c : Config) : Category → Option Nat
  | .outOfRange => none
  | .conf => some (idxConf c)
  | .timings => some (idxTimings c)
  | .ceCtrl => some (idxCeCtrl c)
  | .intrCtrl => some idxIntrCtrl
  | .dmaCtrl => if c.hasDma then some idxDmaCtrl else none
  | .dmaFlashAddr => if c.hasDma then some idxDmaFlashAddr else none
  | .dmaDramAddr => if c.hasDma then some idxDmaDramAddr else none
  | .dmaLen => if c.hasDma then some idxDmaLen else none
  | .dmaChecksum => if c.hasDma then some idxDmaChecksum else none
  | .seg i => if i < c.maxSlaves then some (idxSeg i) else none
  | .ctrl i => if i < c.numCs then some (idxCtrl c i) else none
  | .unimplemented => none

/-- R182 `SegUnpack`, on unbounded integers (R11(c)): the size is negative where the end field is below the start. -/
def segUnpack (w : Word) : Nat × Int :=
  let start := w.field 23 16
  let stop := w.field 31 24
  (start * segUnit, (stop * segUnit : Int) - (start * segUnit : Int))

/-- R183 `SegPack`, with the 8-bit fields of R95. -/
def segPack (addr : Nat) (size : Int) : Word :=
  let start := addr / segUnit % 256
  let stop := ((addr + size) / segUnit).toNat % 256
  BitVec.ofNat 32 (stop * 0x1000000 + start * 0x10000)

/-- The value of word `k` right after reset (R47, R332). -/
def resetWord (c : Config) (k : Nat) : Word :=
  if c.rCtrl0 / 4 ≤ k ∧ k < c.rCtrl0 / 4 + c.numCs then 0x00000004#32
  else if 12 ≤ k ∧ k < 12 + c.maxSlaves then
    segPack (c.defaultSeg (k - 12)).addr (c.defaultSeg (k - 12)).size
  else 0#32

/-- The register file right after reset (R47, R332). -/
def resetRegs (c : Config) : List Word := (List.range c.nregs).map (resetWord c)

end Machine

namespace Config

/-- What every reference configuration shares: the layout printed by the source (R6) and, from general knowledge
(G1, G4, G5, G6; PRESUMED, log 5, log 6), the name, the serial-bus constants, the masks and the size of the register
file. Storage is attached to every channel: in CFG-A as its table says, in every other default configuration, CFG-B
among them, as a DESIGN CHOICE (log 6), since R8 leaves it open. -/
def base (v : Variant) (sdramBase : Word) (flashBase flashSize : Nat) (segs : List Window) (fixed : Bool) : Config :=
  { variant := v
    name := v.presumedName
    numCs := v.maxSlaves
    sdramBase := sdramBase
    storage := List.replicate v.maxSlaves true
    rConf := 0x00
    rCeCtrl := 0x04
    rCtrl0 := 0x10
    rTimings := 0x94
    weBase := 16
    nregs := 64
    flashBase := flashBase
    flashSize := flashSize
    defaultSegs := segs
    fixedLastEnd := fixed
    opRead := 0x03#8
    opEn4b := 0xB7#8
    dummyTx := 0x00#8
    dmaFlashMask := 0x0FFFFFFC#32
    dmaDramMask := 0x1FFFFFFC#32
    dmaLenMask := 0x01FFFFFC#32
    seg0Keeps := .size
    weGatesUser := true
    cksumInit := .zero }

/-- A default configuration for each of the six variants (R2): the windows of G2 and the fixed ends of G3, PRESUMED
(log 6); the last four windows of `V_LEGACY` are a DESIGN CHOICE (log 6). -/
def ofVariant : Variant → Config
  | .legacy => base .legacy 0x40000000#32 0x10000000 0x06000000
      [⟨0x10000000, 0x02000000⟩, ⟨0x12000000, 0x01000000⟩, ⟨0x13000000, 0x01000000⟩, ⟨0x14000000, 0x01000000⟩,
        ⟨0x15000000, 0x01000000⟩] false
  | .fmc => base .fmc 0x40000000#32 0x20000000 0x10000000
      [⟨0x20000000, 0x04000000⟩, ⟨0x24000000, 0x02000000⟩, ⟨0x26000000, 0x02000000⟩, ⟨0x28000000, 0x02000000⟩,
        ⟨0x2A000000, 0x02000000⟩] false
  | .spi => base .spi 0x40000000#32 0x30000000 0x10000000 [⟨0x30000000, 0x04000000⟩] false
  | .ast2500Fmc => base .ast2500Fmc 0x80000000#32 0x20000000 0x10000000
      [⟨0x20000000, 0x08000000⟩, ⟨0x28000000, 0x02000000⟩, ⟨0x2A000000, 0x02000000⟩] false
  | .ast2500Spi1 => base .ast2500Spi1 0x80000000#32 0x30000000 0x08000000
      [⟨0x30000000, 0x02000000⟩, ⟨0x32000000, 0x06000000⟩] true
  | .ast2500Spi2 => base .ast2500Spi2 0x80000000#32 0x38000000 0x08000000
      [⟨0x38000000, 0x02000000⟩, ⟨0x3A000000, 0x06000000⟩] true

/-- The reference configuration `CFG-A` (`95_test_vectors.md` section 1): `V_FMC` with five chip selects. -/
def cfgA : Config := ofVariant .fmc

/-- The reference configuration `CFG-B` (`95_test_vectors.md` section 1): a 2-slave variant with a fixed end. -/
def cfgB : Config := { ofVariant .ast2500Spi1 with sdramBase := 0x40000000#32 }

/-- Construction (R8, R331): a request for more chip selects than the variant has slaves is clamped; the second
component says that the clamp was logged (W1, R303). -/
def construct (c : Config) (requested : Nat) : Config × Bool :=
  ({ c with numCs := min requested c.maxSlaves }, decide (c.maxSlaves < requested))

end Config

end Sys2Proof
end

