-- ==== Sys2Proof/Syntax.lean ====
section
/-! DEFINITION. The operations of the block, one constructor per row of spec/opcode_table.json, the bits an operation is
presented as, and the reasons the decoder rejects such bits. -/

namespace Sys2Proof

/-- Which address register a `W.ADDR` word is for (R92). -/
inductive AddrSide where
  | flash
  | dram
deriving DecidableEq, Repr

/-- One constructor per row of spec/opcode_table.json. Operands: `off` a register byte offset, `v` and `w` a word,
`i` a slave index, `a` a bus address, `off` of a frame a channel-relative offset, `n` a size in bytes. -/
inductive Instr where
  -- REG.RD: register reads (R91, R130 to R133)
  | rd32Conf
  | rd32CeCtrl
  | rd32IntrCtrl
  | rd32Ctrl0
  | rd32Ctrl1
  | rd32Ctrl2
  | rd32Ctrl3
  | rd32Ctrl4
  | rd32Seg0
  | rd32Seg1
  | rd32Seg2
  | rd32Seg3
  | rd32Seg4
  | rd32Misc1
  | rd32Misc2
  | rd32DmaCtrl
  | rd32DmaFlashAddr
  | rd32DmaDramAddr
  | rd32DmaLen
  | rd32DmaChecksum
  | rd32Timings
  | rd32Unimp (off : Word)
  | rd32Oor (off : Word)
  -- REG.WR: register writes (R91, R135 to R143)
  | wr32Conf (v : Word)
  | wr32CeCtrl (v : Word)
  | wr32IntrCtrl (v : Word)
  | wr32Ctrl0 (v : Word)
  | wr32Ctrl1 (v : Word)
  | wr32Ctrl2 (v : Word)
  | wr32Ctrl3 (v : Word)
  | wr32Ctrl4 (v : Word)
  | wr32Seg0 (v : Word)
  | wr32Seg1 (v : Word)
  | wr32Seg2 (v : Word)
  | wr32Seg3 (v : Word)
  | wr32Seg4 (v : Word)
  | wr32Misc1 (v : Word)
  | wr32Misc2 (v : Word)
  | wr32DmaCtrl (v : Word)
  | wr32DmaFlashAddr (v : Word)
  | wr32DmaDramAddr (v : Word)
  | wr32DmaLen (v : Word)
  | wr32DmaChecksum (v : Word)
  | wr32Timings (v : Word)
  | wr32Unimp (off v : Word)
  | wr32Oor (off v : Word)
  -- W.CTRL: the four modes of a control word (R93, R165 to R168)
  | ctrlRead (i : Nat) (w : Word)
  | ctrlFastread (i : Nat) (w : Word)
  | ctrlWrite (i : Nat) (w : Word)
  | ctrlUser (i : Nat) (w : Word)
  -- W.DMACTRL: the sub-decode of a DMA_CTRL word (R94)
  | dmaStop (w : Word)
  | dmaStartF2d (w : Word)
  | dmaStartD2f (w : Word)
  | dmaStartCksum (w : Word)
  -- WORD: the register word formats (R92)
  | wConf (w : Word)
  | wCe (w : Word)
  | wIntr (w : Word)
  | wCtrl (i : Nat) (w : Word)
  | wSeg (i : Nat) (w : Word)
  | wDmactrl (w : Word)
  | wAddr (side : AddrSide) (w : Word)
  | wLen (w : Word)
  | wSum (w : Word)
  | wRaw (w : Word)
  -- FRAME: the serial frames (R99)
  | fRd3 (i : Nat) (off : Word) (n : Nat)
  | fRd4 (i : Nat) (off : Word) (n : Nat)
  | fWr3 (i : Nat) (off : Word) (n : Nat) (v : Word)
  | fWr4 (i : Nat) (off : Word) (n : Nat) (v : Word)
  | fUrd (i : Nat) (off : Word) (n : Nat)
  | fUwr (i : Nat) (off : Word) (n : Nat) (v : Word)
  -- PORT: the flash-window port, the DMA agent and the reset source (R90)
  | frd (a : Word) (n : Nat)
  | fwr (a : Word) (n : Nat) (v : Word)
  | dmaq
  | reset
  -- PSEUDO: the notation of R102
  | setctrl (i : Nat) (w : Word)
  | setseg (i : Nat) (w : Word)
  | dmaStart (w : Word)
  | csLow (i : Nat)
  | csHigh (i : Nat)
deriving DecidableEq, Repr

/-- An operation as it is presented: the tuple of R90 in three words (the model's own layout, log 2). `addr` holds a
register offset, a bus address or a channel offset, `data` the value written. Of `head`, bits 7:0 are the row's
format, 15:8 the row in its format where no other bits tell it, 23:16 the size in bytes, 31:24 the slave index. -/
structure RawOp where
  addr : Word
  data : Word
  head : Word
deriving DecidableEq, Repr

/-- Why a presented operation is none of the spec's: each is raised by the decoder, and is safe (the model stops
where the spec gives the input no meaning). -/
inductive Reject where
  /-- the format number is none of the table's formats -/
  | unknownFormat
  /-- the row number is none of the format's rows -/
  | unknownRow
  /-- a register access of a size other than 4 (R71, I7) -/
  | registerSize
  /-- a register access at an offset that is no multiple of 4 (R71, I7) -/
  | registerAlignment
  /-- a window access of a size outside 1..4 (R65, I8) -/
  | windowSize
  /-- a value of more than `8n` bits (R90) -/
  | dataTooWide
  /-- a slave index above 4 (R2, R22) -/
  | slaveIndex
  /-- a bit of the presented tuple that the operation does not use is not 0 -/
  | unusedBits
  /-- `DMA.START w` with `w[0] = 0` (R102) -/
  | startWithoutEnable
deriving DecidableEq, Repr

end Sys2Proof
end

