-- ==== Sys2Proof/WellFormed.lean ====
section
/-! DEFINITION. Which operations are the spec's under a configuration: operand ranges (R65, R71, R90, R93, R94, R102)
and the condition under which a row of the opcode table applies (its `when`; R91, R108). -/

namespace Sys2Proof

/-- A slave index of some variant (R2): 0 to 4. -/
def slaveOk (i : Nat) : Bool := decide (i < slaveLimit)

/-- A window access has 1 to 4 bytes (R65, R72). -/
def sizeOk (n : Nat) : Bool := decide (1 ≤ n ∧ n ≤ 4)

/-- The value written has `8n` bits (R90). -/
def dataOk (n : Nat) (v : Word) : Bool := decide (v.toNat < 2 ^ (8 * n))

/-- The row `RD32.UNIMP` applies to an offset (R91 line 12, R133). -/
def unimpReadApplies (c : Config) (off : Word) : Bool :=
  decide (off.toNat % 4 = 0 ∧ Machine.categoryOf c off.toNat = .unimplemented ∧ off ≠ 0x50#32 ∧ off ≠ 0x54#32)

/-- The row `WR32.UNIMP` applies to an offset (R91 line 12, R141): 0x90 has a row of its own on every variant. -/
def unimpWriteApplies (c : Config) (off : Word) : Bool :=
  unimpReadApplies c off && decide (off ≠ 0x90#32)

/-- The rows `RD32.OOR` and `WR32.OOR` apply to an offset (R91 line 0). -/
def oorApplies (c : Config) (off : Word) : Bool :=
  decide (off.toNat % 4 = 0 ∧ Machine.categoryOf c off.toNat = .outOfRange)

/-- The row `WR32.DMA_CHECKSUM` applies: with DMA it is the read-only register, without DMA an unimplemented
offset (R101(c), R141); a layout that puts another register at 0x90 takes it. -/
def checksumWriteApplies (c : Config) : Bool :=
  decide (Machine.categoryOf c 0x90 = .dmaChecksum ∨ Machine.categoryOf c 0x90 = .unimplemented)

/-- An operation of the spec under configuration `c`. -/
def Instr.wf (c : Config) : Instr → Bool
  | .rd32Conf => true
  | .rd32CeCtrl => true
  | .rd32IntrCtrl => true
  | .rd32Ctrl0 => decide (0 < c.numCs)
  | .rd32Ctrl1 => decide (1 < c.numCs)
  | .rd32Ctrl2 => decide (2 < c.numCs)
  | .rd32Ctrl3 => decide (3 < c.numCs)
  | .rd32Ctrl4 => decide (4 < c.numCs)
  | .rd32Seg0 => decide (0 < c.maxSlaves)
  | .rd32Seg1 => decide (1 < c.maxSlaves)
  | .rd32Seg2 => decide (2 < c.maxSlaves)
  | .rd32Seg3 => decide (3 < c.maxSlaves)
  | .rd32Seg4 => decide (4 < c.maxSlaves)
  | .rd32Misc1 => true
  | .rd32Misc2 => true
  | .rd32DmaCtrl => c.hasDma
  | .rd32DmaFlashAddr => c.hasDma
  | .rd32DmaDramAddr => c.hasDma
  | .rd32DmaLen => c.hasDma
  | .rd32DmaChecksum => c.hasDma
  | .rd32Timings => true
  | .rd32Unimp off => unimpReadApplies c off
  | .rd32Oor off => oorApplies c off
  | .wr32Conf _ => true
  | .wr32CeCtrl _ => true
  | .wr32IntrCtrl _ => true
  | .wr32Ctrl0 _ => decide (0 < c.numCs)
  | .wr32Ctrl1 _ => decide (1 < c.numCs)
  | .wr32Ctrl2 _ => decide (2 < c.numCs)
  | .wr32Ctrl3 _ => decide (3 < c.numCs)
  | .wr32Ctrl4 _ => decide (4 < c.numCs)
  | .wr32Seg0 _ => decide (0 < c.maxSlaves)
  | .wr32Seg1 _ => decide (1 < c.maxSlaves)
  | .wr32Seg2 _ => decide (2 < c.maxSlaves)
  | .wr32Seg3 _ => decide (3 < c.maxSlaves)
  | .wr32Seg4 _ => decide (4 < c.maxSlaves)
  | .wr32Misc1 _ => true
  | .wr32Misc2 _ => true
  | .wr32DmaCtrl _ => c.hasDma
  | .wr32DmaFlashAddr _ => c.hasDma
  | .wr32DmaDramAddr _ => c.hasDma
  | .wr32DmaLen _ => c.hasDma
  | .wr32DmaChecksum _ => checksumWriteApplies c
  | .wr32Timings _ => true
  | .wr32Unimp off _ => unimpWriteApplies c off
  | .wr32Oor off _ => oorApplies c off
  | .ctrlRead i w => slaveOk i && decide (w.field 1 0 = 0)
  | .ctrlFastread i w => slaveOk i && decide (w.field 1 0 = 1)
  | .ctrlWrite i w => slaveOk i && decide (w.field 1 0 = 2)
  | .ctrlUser i w => slaveOk i && decide (w.field 1 0 = 3)
  | .dmaStop w => decide (w &&& 1#32 = 0#32)
  | .dmaStartF2d w => decide (w &&& 7#32 = 1#32)
  | .dmaStartD2f w => decide (w &&& 7#32 = 3#32)
  | .dmaStartCksum w => decide (w &&& 5#32 = 5#32)
  | .wConf _ => true
  | .wCe _ => true
  | .wIntr _ => true
  | .wCtrl i _ => slaveOk i
  | .wSeg i _ => slaveOk i
  | .wDmactrl _ => true
  | .wAddr _ _ => true
  | .wLen _ => true
  | .wSum _ => true
  | .wRaw _ => true
  | .fRd3 i _ n => slaveOk i && sizeOk n
  | .fRd4 i _ n => slaveOk i && sizeOk n
  | .fWr3 i _ n v => slaveOk i && sizeOk n && dataOk n v
  | .fWr4 i _ n v => slaveOk i && sizeOk n && dataOk n v
  | .fUrd i _ n => slaveOk i && sizeOk n
  | .fUwr i _ n v => slaveOk i && sizeOk n && dataOk n v
  | .frd _ n => sizeOk n
  | .fwr _ n v => sizeOk n && dataOk n v
  | .dmaq => true
  | .reset => true
  | .setctrl i _ => slaveOk i
  | .setseg i _ => slaveOk i
  | .dmaStart w => decide (w &&& 1#32 = 1#32)
  | .csLow i => slaveOk i
  | .csHigh i => slaveOk i

end Sys2Proof
end

