-- ==== Sys2Proof/Decode.lean ====
section
/-! DEFINITION. The decoder, total on any presented bits and rejecting by name, and the encoder (`30_encoding.md`).
The formats are those of spec/opcode_table.json, numbered in the table's order: REG.RD 0, REG.WR 1, W.CTRL 2,
W.DMACTRL 3, WORD 4, FRAME 5, PORT 6, PSEUDO 7 (the numbers are the model's, log 2). -/

namespace Sys2Proof

/-- The row's format number. -/
def RawOp.format (op : RawOp) : Nat := op.head.field 7 0
/-- The row's number in a format whose other bits do not tell the row. -/
def RawOp.row (op : RawOp) : Nat := op.head.field 15 8
/-- The size in bytes (R90's `n`). -/
def RawOp.size (op : RawOp) : Nat := op.head.field 23 16
/-- The slave index, or the side of a `W.ADDR` word. -/
def RawOp.slave (op : RawOp) : Nat := op.head.field 31 24

/-- The head of an operation. -/
def headOf (format row size slave : Nat) : Word :=
  BitVec.ofNat 32 (format + 0x100 * row + 0x10000 * size + 0x1000000 * slave)

/-- The operation `op` is `i`, if the bits that `i` does not use are 0. -/
def accept (unusedZero : Bool) (i : Instr) : Except Reject Instr :=
  if unusedZero then .ok i else .error .unusedBits

/-- The row of REG.RD for a byte offset (R91, R108). -/
def readRow (c : Config) (off : Word) : Except Reject Instr :=
  match Machine.categoryOf c off.toNat with
  | .outOfRange => .ok (.rd32Oor off)
  | .conf => .ok .rd32Conf
  | .ceCtrl => .ok .rd32CeCtrl
  | .intrCtrl => .ok .rd32IntrCtrl
  | .ctrl 0 => .ok .rd32Ctrl0
  | .ctrl 1 => .ok .rd32Ctrl1
  | .ctrl 2 => .ok .rd32Ctrl2
  | .ctrl 3 => .ok .rd32Ctrl3
  | .ctrl 4 => .ok .rd32Ctrl4
  | .seg 0 => .ok .rd32Seg0
  | .seg 1 => .ok .rd32Seg1
  | .seg 2 => .ok .rd32Seg2
  | .seg 3 => .ok .rd32Seg3
  | .seg 4 => .ok .rd32Seg4
  | .dmaCtrl => .ok .rd32DmaCtrl
  | .dmaFlashAddr => .ok .rd32DmaFlashAddr
  | .dmaDramAddr => .ok .rd32DmaDramAddr
  | .dmaLen => .ok .rd32DmaLen
  | .dmaChecksum => .ok .rd32DmaChecksum
  | .timings => .ok .rd32Timings
  | .seg _ => .error .slaveIndex
  | .ctrl _ => .error .slaveIndex
  | .unimplemented =>
    if off = 0x50#32 then .ok .rd32Misc1
    else if off = 0x54#32 then .ok .rd32Misc2
    else .ok (.rd32Unimp off)

/-- The row of REG.WR for a byte offset (R91, R108). -/
def writeRow (c : Config) (off v : Word) : Except Reject Instr :=
  match Machine.categoryOf c off.toNat with
  | .outOfRange => .ok (.wr32Oor off v)
  | .conf => .ok (.wr32Conf v)
  | .ceCtrl => .ok (.wr32CeCtrl v)
  | .intrCtrl => .ok (.wr32IntrCtrl v)
  | .ctrl 0 => .ok (.wr32Ctrl0 v)
  | .ctrl 1 => .ok (.wr32Ctrl1 v)
  | .ctrl 2 => .ok (.wr32Ctrl2 v)
  | .ctrl 3 => .ok (.wr32Ctrl3 v)
  | .ctrl 4 => .ok (.wr32Ctrl4 v)
  | .seg 0 => .ok (.wr32Seg0 v)
  | .seg 1 => .ok (.wr32Seg1 v)
  | .seg 2 => .ok (.wr32Seg2 v)
  | .seg 3 => .ok (.wr32Seg3 v)
  | .seg 4 => .ok (.wr32Seg4 v)
  | .dmaCtrl => .ok (.wr32DmaCtrl v)
  | .dmaFlashAddr => .ok (.wr32DmaFlashAddr v)
  | .dmaDramAddr => .ok (.wr32DmaDramAddr v)
  | .dmaLen => .ok (.wr32DmaLen v)
  | .dmaChecksum => .ok (.wr32DmaChecksum v)
  | .timings => .ok (.wr32Timings v)
  | .seg _ => .error .slaveIndex
  | .ctrl _ => .error .slaveIndex
  | .unimplemented =>
    if off = 0x50#32 then .ok (.wr32Misc1 v)
    else if off = 0x54#32 then .ok (.wr32Misc2 v)
    else if off = 0x90#32 then .ok (.wr32DmaChecksum v)
    else .ok (.wr32Unimp off v)

/-- R71: a register access has 4 bytes at a multiple of 4; `row` decodes the rest. -/
def decodeRegister (op : RawOp) (unusedZero : Bool) (row : Except Reject Instr) : Except Reject Instr :=
  if op.size ≠ 4 then .error .registerSize
  else if op.addr.toNat % 4 ≠ 0 then .error .registerAlignment
  else if op.row = 0 ∧ op.slave = 0 ∧ unusedZero then row
  else .error .unusedBits

/-- R93: the mode of a control word. -/
def decodeCtrlWord (op : RawOp) : Except Reject Instr :=
  if slaveOk op.slave then
    accept (decide (op.addr = 0#32 ∧ op.row = 0 ∧ op.size = 0))
      (match op.data.field 1 0 with
        | 0 => .ctrlRead op.slave op.data
        | 1 => .ctrlFastread op.slave op.data
        | 2 => .ctrlWrite op.slave op.data
        | _ => .ctrlUser op.slave op.data)
  else .error .slaveIndex

/-- R94: what a DMA_CTRL word asks for. -/
def decodeDmaCtrlWord (op : RawOp) : Except Reject Instr :=
  accept (decide (op.addr = 0#32 ∧ op.row = 0 ∧ op.size = 0 ∧ op.slave = 0))
    (if op.data &&& 1#32 = 0#32 then .dmaStop op.data
      else if op.data &&& 5#32 = 5#32 then .dmaStartCksum op.data
      else if op.data &&& 7#32 = 3#32 then .dmaStartD2f op.data
      else .dmaStartF2d op.data)

/-- R92: a word in one of the ten register formats. -/
def decodeWordFormat (op : RawOp) : Except Reject Instr :=
  let plain := decide (op.addr = 0#32 ∧ op.size = 0 ∧ op.slave = 0)
  let indexed := decide (op.addr = 0#32 ∧ op.size = 0)
  match op.row with
  | 0 => accept plain (.wConf op.data)
  | 1 => accept plain (.wCe op.data)
  | 2 => accept plain (.wIntr op.data)
  | 3 => if slaveOk op.slave then accept indexed (.wCtrl op.slave op.data) else .error .slaveIndex
  | 4 => if slaveOk op.slave then accept indexed (.wSeg op.slave op.data) else .error .slaveIndex
  | 5 => accept plain (.wDmactrl op.data)
  | 6 => match op.slave with
    | 0 => accept indexed (.wAddr .flash op.data)
    | 1 => accept indexed (.wAddr .dram op.data)
    | _ => .error .unusedBits
  | 7 => accept plain (.wLen op.data)
  | 8 => accept plain (.wSum op.data)
  | 9 => accept plain (.wRaw op.data)
  | _ => .error .unknownRow

/-- The common checks of an access of `n` bytes that carries a value (R65, R90). -/
def sized (op : RawOp) (i : Instr) : Except Reject Instr :=
  if ¬ sizeOk op.size then .error .windowSize
  else if ¬ dataOk op.size op.data then .error .dataTooWide
  else .ok i

/-- R99: a frame on a channel. -/
def decodeFrame (op : RawOp) : Except Reject Instr :=
  let noData := decide (op.data = 0#32)
  let read (i : Instr) : Except Reject Instr := if noData then sized op i else .error .unusedBits
  if slaveOk op.slave then
    match op.row with
    | 0 => read (.fRd3 op.slave op.addr op.size)
    | 1 => read (.fRd4 op.slave op.addr op.size)
    | 2 => sized op (.fWr3 op.slave op.addr op.size op.data)
    | 3 => sized op (.fWr4 op.slave op.addr op.size op.data)
    | 4 => read (.fUrd op.slave op.addr op.size)
    | 5 => sized op (.fUwr op.slave op.addr op.size op.data)
    | _ => .error .unknownRow
  else .error .slaveIndex

/-- R90: the window port, the DMA agent's step and the reset source's. -/
def decodePort (op : RawOp) : Except Reject Instr :=
  if op.slave ≠ 0 then .error .unusedBits
  else match op.row with
    | 0 => if op.data = 0#32 then sized op (.frd op.addr op.size) else .error .unusedBits
    | 1 => sized op (.fwr op.addr op.size op.data)
    | 2 => accept (decide (op.addr = 0#32 ∧ op.data = 0#32 ∧ op.size = 0)) .dmaq
    | 3 => accept (decide (op.addr = 0#32 ∧ op.data = 0#32 ∧ op.size = 0)) .reset
    | _ => .error .unknownRow

/-- R102: the pseudo-operations. -/
def decodePseudo (op : RawOp) : Except Reject Instr :=
  let indexed (unusedZero : Bool) (i : Instr) : Except Reject Instr :=
    if slaveOk op.slave then accept (unusedZero && decide (op.addr = 0#32 ∧ op.size = 0)) i else .error .slaveIndex
  match op.row with
  | 0 => indexed true (.setctrl op.slave op.data)
  | 1 => indexed true (.setseg op.slave op.data)
  | 2 =>
    if op.data &&& 1#32 = 1#32 then
      accept (decide (op.addr = 0#32 ∧ op.size = 0 ∧ op.slave = 0)) (.dmaStart op.data)
    else .error .startWithoutEnable
  | 3 => indexed (decide (op.data = 0#32)) (.csLow op.slave)
  | 4 => indexed (decide (op.data = 0#32)) (.csHigh op.slave)
  | _ => .error .unknownRow

/-- The operation that presented bits stand for under configuration `c` (R90, R91, R108), or why there is none. -/
def decode (c : Config) (op : RawOp) : Except Reject Instr :=
  match op.format with
  | 0 => decodeRegister op (decide (op.data = 0#32)) (readRow c op.addr)
  | 1 => decodeRegister op true (writeRow c op.addr op.data)
  | 2 => decodeCtrlWord op
  | 3 => decodeDmaCtrlWord op
  | 4 => decodeWordFormat op
  | 5 => decodeFrame op
  | 6 => decodePort op
  | 7 => decodePseudo op
  | _ => .error .unknownFormat

/-- A register read presented at a byte offset (R90). -/
def rawRead (off : Word) : RawOp := ⟨off, 0#32, headOf 0 0 4 0⟩
/-- A register write presented at a byte offset (R90). -/
def rawWrite (off v : Word) : RawOp := ⟨off, v, headOf 1 0 4 0⟩
/-- A word of a sub-decode or of a register format, with no address. -/
def rawWord (format row slave : Nat) (w : Word) : RawOp := ⟨0#32, w, headOf format row 0 slave⟩
/-- The byte offset `V.r_ctrl0 + 4*i` or another offset of the configuration, as a word. -/
def offsetWord (off : Nat) : Word := BitVec.ofNat 32 off

/-- The bits an operation is presented as, under the register layout of `c` (R22, R90, R99, R102). -/
def encode (c : Config) : Instr → RawOp
  | .rd32Conf => rawRead (offsetWord c.rConf)
  | .rd32CeCtrl => rawRead (offsetWord c.rCeCtrl)
  | .rd32IntrCtrl => rawRead 0x08#32
  | .rd32Ctrl0 => rawRead (offsetWord (c.rCtrl0 + 4 * 0))
  | .rd32Ctrl1 => rawRead (offsetWord (c.rCtrl0 + 4 * 1))
  | .rd32Ctrl2 => rawRead (offsetWord (c.rCtrl0 + 4 * 2))
  | .rd32Ctrl3 => rawRead (offsetWord (c.rCtrl0 + 4 * 3))
  | .rd32Ctrl4 => rawRead (offsetWord (c.rCtrl0 + 4 * 4))
  | .rd32Seg0 => rawRead 0x30#32
  | .rd32Seg1 => rawRead 0x34#32
  | .rd32Seg2 => rawRead 0x38#32
  | .rd32Seg3 => rawRead 0x3C#32
  | .rd32Seg4 => rawRead 0x40#32
  | .rd32Misc1 => rawRead 0x50#32
  | .rd32Misc2 => rawRead 0x54#32
  | .rd32DmaCtrl => rawRead 0x80#32
  | .rd32DmaFlashAddr => rawRead 0x84#32
  | .rd32DmaDramAddr => rawRead 0x88#32
  | .rd32DmaLen => rawRead 0x8C#32
  | .rd32DmaChecksum => rawRead 0x90#32
  | .rd32Timings => rawRead (offsetWord c.rTimings)
  | .rd32Unimp off => rawRead off
  | .rd32Oor off => rawRead off
  | .wr32Conf v => rawWrite (offsetWord c.rConf) v
  | .wr32CeCtrl v => rawWrite (offsetWord c.rCeCtrl) v
  | .wr32IntrCtrl v => rawWrite 0x08#32 v
  | .wr32Ctrl0 v => rawWrite (offsetWord (c.rCtrl0 + 4 * 0)) v
  | .wr32Ctrl1 v => rawWrite (offsetWord (c.rCtrl0 + 4 * 1)) v
  | .wr32Ctrl2 v => rawWrite (offsetWord (c.rCtrl0 + 4 * 2)) v
  | .wr32Ctrl3 v => rawWrite (offsetWord (c.rCtrl0 + 4 * 3)) v
  | .wr32Ctrl4 v => rawWrite (offsetWord (c.rCtrl0 + 4 * 4)) v
  | .wr32Seg0 v => rawWrite 0x30#32 v
  | .wr32Seg1 v => rawWrite 0x34#32 v
  | .wr32Seg2 v => rawWrite 0x38#32 v
  | .wr32Seg3 v => rawWrite 0x3C#32 v
  | .wr32Seg4 v => rawWrite 0x40#32 v
  | .wr32Misc1 v => rawWrite 0x50#32 v
  | .wr32Misc2 v => rawWrite 0x54#32 v
  | .wr32DmaCtrl v => rawWrite 0x80#32 v
  | .wr32DmaFlashAddr v => rawWrite 0x84#32 v
  | .wr32DmaDramAddr v => rawWrite 0x88#32 v
  | .wr32DmaLen v => rawWrite 0x8C#32 v
  | .wr32DmaChecksum v => rawWrite 0x90#32 v
  | .wr32Timings v => rawWrite (offsetWord c.rTimings) v
  | .wr32Unimp off v => rawWrite off v
  | .wr32Oor off v => rawWrite off v
  | .ctrlRead i w => rawWord 2 0 i w
  | .ctrlFastread i w => rawWord 2 0 i w
  | .ctrlWrite i w => rawWord 2 0 i w
  | .ctrlUser i w => rawWord 2 0 i w
  | .dmaStop w => rawWord 3 0 0 w
  | .dmaStartF2d w => rawWord 3 0 0 w
  | .dmaStartD2f w => rawWord 3 0 0 w
  | .dmaStartCksum w => rawWord 3 0 0 w
  | .wConf w => rawWord 4 0 0 w
  | .wCe w => rawWord 4 1 0 w
  | .wIntr w => rawWord 4 2 0 w
  | .wCtrl i w => rawWord 4 3 i w
  | .wSeg i w => rawWord 4 4 i w
  | .wDmactrl w => rawWord 4 5 0 w
  | .wAddr .flash w => rawWord 4 6 0 w
  | .wAddr .dram w => rawWord 4 6 1 w
  | .wLen w => rawWord 4 7 0 w
  | .wSum w => rawWord 4 8 0 w
  | .wRaw w => rawWord 4 9 0 w
  | .fRd3 i off n => ⟨off, 0#32, headOf 5 0 n i⟩
  | .fRd4 i off n => ⟨off, 0#32, headOf 5 1 n i⟩
  | .fWr3 i off n v => ⟨off, v, headOf 5 2 n i⟩
  | .fWr4 i off n v => ⟨off, v, headOf 5 3 n i⟩
  | .fUrd i off n => ⟨off, 0#32, headOf 5 4 n i⟩
  | .fUwr i off n v => ⟨off, v, headOf 5 5 n i⟩
  | .frd a n => ⟨a, 0#32, headOf 6 0 n 0⟩
  | .fwr a n v => ⟨a, v, headOf 6 1 n 0⟩
  | .dmaq => rawWord 6 2 0 0#32
  | .reset => rawWord 6 3 0 0#32
  | .setctrl i w => rawWord 7 0 i w
  | .setseg i w => rawWord 7 1 i w
  | .dmaStart w => rawWord 7 2 0 w
  | .csLow i => rawWord 7 3 i 0#32
  | .csHigh i => rawWord 7 4 i 0#32

/-- The operation that a word of the opcode table is presented as. The table's bits do not say on which port it
arrives (R90, R108): a row of 8 bits or fewer, or a word that is no multiple of 4 and so no register offset (R71), is a
control word (W.CTRL, on slave 0), any other the byte offset of a register read of 4 bytes (log 2). -/
def tableOp (nbits w : Nat) : RawOp :=
  if nbits ≤ 8 ∨ w % 4 ≠ 0 then rawWord 2 0 0 (BitVec.ofNat 32 w)
  else { rawRead (BitVec.ofNat 32 w) with data := BitVec.ofNat 32 (w / 0x100000000) }

/-- The operation the decoder reads from a word of the opcode table, under the configuration of the reset state. -/
def decodeTableWord (nbits w : Nat) : Option Instr := (decode Config.cfgA (tableOp nbits w)).toOption

end Sys2Proof
end

