-- ==== Sys2Proof/Machine/State.lean ====
section
/-! DEFINITION. The state of the machine (`10_state.md` R20 to R47), as plain data; why a step can stop; the state
right after reset. -/

namespace Sys2Proof.Machine

/-- The log codes of `60_exceptions.md` R301 to R303. -/
inductive LogCode where
  /-- register read out of range -/
  | ge1
  /-- register write out of range -/
  | ge2
  /-- SEG(0) written with another start than the base -/
  | ge3
  /-- the topmost SEG written with another end than the fixed end -/
  | ge4
  /-- segment window not inside the flash window -/
  | ge5
  /-- segment window start not a multiple of its size -/
  | ge6
  /-- segment window overlaps another -/
  | ge7
  /-- window write while not write-enabled -/
  | ge8
  /-- DMA start while in progress -/
  | ge9
  /-- register read of an unimplemented offset -/
  | u1
  /-- register write of an unimplemented offset or of DMA_CHECKSUM -/
  | u2
  /-- `num_cs` clamped at construction -/
  | w1
deriving DecidableEq, Repr

/-- The kinds of `Log(kind)` (`00_scope.md` R15). -/
inductive LogKind where
  | guestError
  | unimp
  | configWarn
deriving DecidableEq, Repr

/-- A channel (R36): its address window and its ROM-decode flag. -/
structure Channel where
  win : Window
  romd : Bool
deriving DecidableEq, Repr

/-- The DMA latch while a transfer exists (R40): `dma.active = 1` is `some` of it. -/
structure DmaTransfer where
  /-- 1: DRAM to flash, 0: flash to DRAM -/
  wdir : Bool
  /-- 1: checksum, 0: copy -/
  cksum : Bool
  faddr : Word
  daddr : Word
  rem : Word
  sum : Word
deriving DecidableEq, Repr

/-- Main memory as the block's DMA agent sees it (R60(3)): the listed bytes, at strictly rising addresses. -/
abbrev Memory := List Host.Cell

/-- A listed byte of a channel's flash image (R68; an input of the model, log 9). -/
structure ImageCell where
  channel : Nat
  offset : Nat
  value : Byte
deriving DecidableEq, Repr

/-- The whole state: the block's (R20), its configuration, and the other side of its ports (R18). -/
structure State where
  /-- the configuration; no step changes it (R20) -/
  cfg : Config
  /-- the register file `x[0 .. NREGS-1]` (R21) -/
  x : List Word
  /-- the channels `0 .. max_slaves-1` (R36) -/
  chan : List Channel
  /-- the chip-select outputs `0 .. num_cs-1` (R39) -/
  csOut : List Level
  /-- the interrupt output (R39, R305) -/
  irq : Line
  /-- the DMA latch (R40): `none` is `dma.active = 0` -/
  dma : Option DmaTransfer
  /-- main memory (R60(3)) -/
  dram : Memory
  /-- the operations presented and not yet performed, in their total order (R74, R80; log 1, log 3) -/
  pending : List RawOp
  /-- the value the last read returned on its port (R18; log 25) -/
  reply : Option Word
  /-- what the flash chips have observed, oldest first (R81; log 24) -/
  trace : List BusEvent
  /-- the diagnostic events, oldest first (R15; log 23) -/
  log : List LogCode
  /-- how many free values have been drawn (log 34) -/
  draws : Nat
  /-- the bytes the serial bus is about to answer; when it is empty the answer is a free value (R81; log 7) -/
  spiReplies : List Byte
  /-- the listed bytes of the flash images; any other byte is a free value (R68; log 9) -/
  flashImage : List ImageCell
deriving DecidableEq, Repr

/-- Why the machine stops with a fault: it never does (R15, R300: no synchronous exception, trap, bus error, stall or
abort, for any input). No constructor. -/
inductive Fault where
deriving DecidableEq, Repr

/-- Why the model declines an input. None of these is a behaviour of the hardware (R15). -/
inductive Refusal where
  /-- Raised by an arm of `exec` whose operation has no meaning yet. Safe. No arm raises it. -/
  | notModelled (mnemonic : String)
  /-- Raised by `step` when the presented bits are no operation of the spec (R65, R71; I7, I8). Safe. -/
  | badOperation (why : Reject)
  /-- Raised by `step` when the configuration breaks the constraints that every rule assumes (R7, R9; I21). Safe. -/
  | invalidConfiguration
  /-- Raised by a window access, also a quantum's, that begins in a channel's window and crosses its end (R65; I8).
  Safe: the spec gives it no behaviour and says that a model refuses it. -/
  | straddlesWindow
  /-- Raised by a frame (`F.*`) addressed to a channel the variant does not have (R36). Safe. -/
  | noSuchChannel
deriving DecidableEq, Repr

/-- The outcome of one operation. -/
abbrev Result := Host.Outcome State Fault Refusal

/-- The state right after reset of an instance with configuration `c` (R47, R331, R332), with nothing presented,
observed or logged yet. -/
def State.resetOf (c : Config) : State :=
  { cfg := c
    x := resetRegs c
    chan := (List.range c.maxSlaves).map (fun i => ⟨c.defaultSeg i, true⟩)
    csOut := List.replicate c.numCs .inactive
    irq := .low
    dma := none
    dram := []
    pending := []
    reply := none
    trace := []
    log := []
    draws := 0
    spiReplies := []
    flashImage := [] }

/-- The machine right after reset, in the reference configuration `CFG-A` (log 5). -/
def State.reset : State := State.resetOf Config.cfgA

/-- The state a run begins in after construction (R331): a clamped request is logged as W1 (R303). -/
def State.construct (c : Config) (requested : Nat) : State :=
  let built := c.construct requested
  { State.resetOf built.1 with log := if built.2 then [.w1] else [] }

end Sys2Proof.Machine
end

