-- ==== Sys2Proof/Machine/Operands.lean ====
section
/-! DEFINITION. The fields of the register words (`30_encoding.md` R92), the modes (R93), and the byte order of data and
of frame addresses (R97, R98). -/

namespace Sys2Proof.Machine

-- `W.CONF` (R23)

/-- `legacy_disable`; stored only. -/
def confLegacyDisable (w : Word) : Bool := w.getLsbD 31
/-- `we[i]`: bit `V.we_base + i`. -/
def confWriteEnable (c : Config) (w : Word) (i : Nat) : Bool := w.getLsbD (c.weBase + i)
/-- `flash_type[i]`: bit `2*i + 1`; stored only. -/
def confFlashType (w : Word) (i : Nat) : Bool := w.getLsbD (2 * i + 1)

-- `W.CE` (R24)

/-- `a4b[i]`. -/
def ceFourByte (w : Word) (i : Nat) : Bool := w.getLsbD i

-- `W.CTRL` (R26, R93)

/-- The four modes of a slave (R93, R162). -/
inductive Mode where
  | read
  | fastRead
  | write
  | user
deriving DecidableEq, Repr

/-- The mode that bits 1:0 select (R93). -/
def Mode.ofBits : Nat → Mode
  | 0 => .read
  | 1 => .fastRead
  | 2 => .write
  | _ => .user

/-- `mode` of a control word. -/
def ctrlMode (w : Word) : Mode := Mode.ofBits (w.field 1 0)
/-- `ce_stop`: 1 holds the chip select inactive. -/
def ctrlCeStop (w : Word) : Bool := w.getLsbD 2
/-- `cmd`. -/
def ctrlCmd (w : Word) : Byte := w.extractLsb' 16 8

-- `W.SEG` (R27)

/-- `start`, in units of 8 MB. -/
def segStart (w : Word) : Nat := w.field 23 16
/-- `end`, in units of 8 MB. -/
def segEnd (w : Word) : Nat := w.field 31 24
/-- The word with its start field replaced (the reading `SEG0_FIX_KEEPS = end` of D10). -/
def segWithStart (w : Word) (start : Nat) : Word :=
  (w &&& 0xFF00FFFF#32) ||| (BitVec.ofNat 32 (start % 256) <<< 16)

-- `W.DMACTRL` (R29, R94)

/-- `en`. -/
def dmaCtrlEn (w : Word) : Bool := w.getLsbD 0
/-- `wdir`: 1 is DRAM to flash. -/
def dmaCtrlWdir (w : Word) : Bool := w.getLsbD 1
/-- `cksum`: 1 is checksum-accumulate. -/
def dmaCtrlCksum (w : Word) : Bool := w.getLsbD 2
/-- `calib`; stored only. -/
def dmaCtrlCalib (w : Word) : Bool := w.getLsbD 3
/-- `freq`; stored only. -/
def dmaCtrlFreq (w : Word) : Nat := w.field 7 4
/-- `delay`; stored only. -/
def dmaCtrlDelay (w : Word) : Nat := w.field 11 8

-- DMA operands (R96)

/-- The stored flash address of a written value (R250). -/
def dmaFlashOperand (c : Config) (v : Word) : Word := BitVec.ofNat 32 c.flashBase ||| (v &&& c.dmaFlashMask)
/-- The stored main-memory address of a written value (R251). -/
def dmaDramOperand (c : Config) (v : Word) : Word := c.sdramBase ||| (v &&& c.dmaDramMask)
/-- The stored length field of a written value (R253). -/
def dmaLenOperand (c : Config) (v : Word) : Word := v &&& c.dmaLenMask

-- Byte order

/-- The bytes of an `n`-byte value, in the order they are sent (R98). -/
def leBytes (n : Nat) (v : Word) : List Byte := (List.range n).map v.byte

/-- The value whose bytes were received in this order (R98). -/
def leWord : List Byte → Word
  | [] => 0#32
  | b :: bs => b.setWidth 32 ||| leWord bs <<< 8

/-- The address bytes of a frame, most significant first (R97): four in 4-byte mode, else three. -/
def addressBytes (four : Bool) (off : Word) : List Byte :=
  if four then [off.byte 3, off.byte 2, off.byte 1, off.byte 0] else [off.byte 2, off.byte 1, off.byte 0]

end Sys2Proof.Machine
end

