-- ==== Sys2Proof/Machine/Flags.lean ====
section
/-! DEFINITION. The status and enable bits of INTR_CTRL (`10_state.md` R25, R44; `60_exceptions.md` R305, R306), which are
all the flags the block has, and the start test (`44_dma.md` R254). -/

namespace Sys2Proof.Machine

/-- The mask of `dma_status`. -/
def dmaStatusMask : Word := 0x00000800#32

/-- `dma_status`, bit 11. -/
def intrDmaStatus (w : Word) : Bool := w.getLsbD 11
/-- `abort_status`, bit 10; no event sets it (R306). -/
def intrAbortStatus (w : Word) : Bool := w.getLsbD 10
/-- `wp_status`, bit 9; no event sets it (R306). -/
def intrWpStatus (w : Word) : Bool := w.getLsbD 9
/-- `dma_en`, bit 3. -/
def intrDmaEn (w : Word) : Bool := w.getLsbD 3
/-- `abort_en`, bit 2; no rule reads it (R306). -/
def intrAbortEn (w : Word) : Bool := w.getLsbD 2
/-- `wp_en`, bit 1; no rule reads it (R306). -/
def intrWpEn (w : Word) : Bool := w.getLsbD 1

/-- Completion sets `dma_status` and no other bit (R262). -/
def setDmaStatus (w : Word) : Word := w ||| dmaStatusMask
/-- The disable write clears `dma_status` and no other bit (R264). -/
def clearDmaStatus (w : Word) : Word := w &&& ~~~dmaStatusMask

/-- `InProgress()` of R254, on the words of DMA_CTRL and INTR_CTRL. -/
def inProgress (dmaCtrl intrCtrl : Word) : Bool := dmaCtrlEn dmaCtrl && !intrDmaStatus intrCtrl

end Sys2Proof.Machine
end

