-- ==== Sys2Proof/Machine/Memory.lean ====
section
/-! DEFINITION. Main memory (`20_memory.md` R60(3), R70): bytes at 32-bit addresses, kept as a list in one canonical
form. A byte nothing has written reads as 0 (DESIGN CHOICE, log 15). -/

namespace Sys2Proof.Machine

/-- What an address that the list does not hold reads as (DESIGN CHOICE, log 15). -/
def Memory.unlisted : Byte := 0#8

/-- How many byte addresses main memory has (R60(3)). -/
def Memory.addresses : Nat := 0x100000000

/-- The byte at an address. -/
def Memory.readByte : Memory → Nat → Byte
  | [], _ => Memory.unlisted
  | (b, v) :: m, a => if b = a then v else Memory.readByte m a

/-- Store a byte, keeping the canonical form. -/
def Memory.writeByte : Memory → Nat → Byte → Memory
  | [], a, v => if v = Memory.unlisted then [] else [(a, v)]
  | (b, u) :: m, a, v =>
    if a < b then (if v = Memory.unlisted then (b, u) :: m else (a, v) :: (b, u) :: m)
    else if a = b then (if v = Memory.unlisted then m else (a, v) :: m)
    else (b, u) :: Memory.writeByte m a v

/-- Every listed address is above `low`, the addresses rise strictly, and no listed byte is what an unlisted one
reads as. -/
def Memory.wfAbove : Option Nat → Memory → Bool
  | _, [] => true
  | low, (a, v) :: m =>
    (match low with
      | none => true
      | some b => decide (b < a)) && decide (a < Memory.addresses) && decide (v ≠ Memory.unlisted)
      && Memory.wfAbove (some a) m

/-- The canonical form of main memory. -/
def Memory.wf (m : Memory) : Bool := Memory.wfAbove none m

/-- The address of byte `k` of an access at `a`: 32-bit addresses wrap silently (I24, log 16). -/
def Memory.byteAddr (a : Word) (k : Nat) : Nat := (a + BitVec.ofNat 32 k).toNat

/-- `MemRead(DRAM, a, 4)` (R12), little-endian (R70). -/
def Memory.read32 (m : Memory) (a : Word) : Word :=
  (m.readByte (Memory.byteAddr a 0)).setWidth 32
    ||| (m.readByte (Memory.byteAddr a 1)).setWidth 32 <<< 8
    ||| (m.readByte (Memory.byteAddr a 2)).setWidth 32 <<< 16
    ||| (m.readByte (Memory.byteAddr a 3)).setWidth 32 <<< 24

/-- `MemWrite(DRAM, a, 4, v)` (R12), little-endian (R70). -/
def Memory.write32 (m : Memory) (a v : Word) : Memory :=
  (((m.writeByte (Memory.byteAddr a 0) (v.byte 0)).writeByte (Memory.byteAddr a 1) (v.byte 1)).writeByte
    (Memory.byteAddr a 2) (v.byte 2)).writeByte (Memory.byteAddr a 3) (v.byte 3)

end Sys2Proof.Machine
end

