-- ==== Sys2Proof/Machine/Segment.lean ====
section
/-! DEFINITION. The validation policy of segment writes (`42_segment_map.md` R184 to R190), as a function of the
configuration, the present windows and the written word. -/

namespace Sys2Proof.Machine

/-- What a segment write does: what it logs, and the window and the word it stores, or nothing. -/
structure SegOutcome where
  logs : List LogCode
  stored : Option (Window × Word)
deriving DecidableEq, Repr

/-- R186: the window lies inside the flash window. -/
abbrev segContained (c : Config) (addr : Nat) (size : Int) : Prop :=
  0 ≤ size ∧ c.flashBase ≤ addr ∧ (addr : Int) + size ≤ c.flashBase + c.flashSize

/-- R188: the warning for a start that is no multiple of the size. -/
abbrev segMisaligned (addr : Nat) (size : Int) : Prop := 0 < size ∧ addr % size.toNat ≠ 0

/-- R189: two windows intersect, both non-empty. -/
abbrev windowsOverlap (addr : Nat) (size : Int) (w : Window) : Prop :=
  0 < size ∧ 0 < w.size ∧ addr < w.addr + w.size ∧ (w.addr : Int) < addr + size

/-- R189: some other channel's window intersects the new one. -/
abbrev segOverlaps (c : Config) (wins : Nat → Window) (i addr : Nat) (size : Int) : Prop :=
  ∃ j ∈ List.range c.maxSlaves, j ≠ i ∧ windowsOverlap addr size (wins j)

/-- R184 applies: a write of SEG(0) with another start than the base. -/
abbrev segFixesStart (c : Config) (i addr : Nat) : Prop := i = 0 ∧ addr ≠ c.flashBase

/-- R185 applies: a write of the topmost segment, on a variant with a fixed end, with another end. -/
abbrev segFixesEnd (c : Config) (i addr : Nat) (size : Int) : Prop :=
  c.fixedLastEnd = true ∧ i + 1 = c.maxSlaves ∧ (addr : Int) + size ≠ c.fixedEnd

/-- The window after the correction of R184, and what would be stored for it (R190; D10 for the other reading). -/
def segFixStart (c : Config) (i : Nat) (raw : Word) : Nat × Int × Word :=
  let (addr, size) := segUnpack raw
  if segFixesStart c i addr then
    match c.seg0Keeps with
    | .size => (c.flashBase, size, segPack c.flashBase size)
    | .endField => (c.flashBase, addr + size - c.flashBase, segWithStart raw (c.flashBase / segUnit))
  else (addr, size, raw)

/-- The window after both corrections, and what would be stored for it (R185, R190). -/
def segFix (c : Config) (i : Nat) (raw : Word) : Nat × Int × Word :=
  let (addr, size, word) := segFixStart c i raw
  if segFixesEnd c i addr size then
    (addr, c.fixedEnd - addr, segPack addr (c.fixedEnd - addr))
  else (addr, size, word)

/-- What the corrections log (R184, R185), in the order of R307(b). -/
def segFixLogs (c : Config) (i : Nat) (raw : Word) : List LogCode :=
  (if segFixesStart c i (segUnpack raw).1 then [.ge3] else [])
    ++ (if segFixesEnd c i (segFixStart c i raw).1 (segFixStart c i raw).2.1 then [.ge4] else [])

/-- R190 `SegApply(i, raw)`. -/
def segDecide (c : Config) (wins : Nat → Window) (i : Nat) (raw : Word) : SegOutcome :=
  let (addr, size, word) := segFix c i raw
  if segContained c addr size then
    { logs := segFixLogs c i raw
        ++ (if segMisaligned addr size then [.ge6] else [])
        ++ (if segOverlaps c wins i addr size then [.ge7] else [])
      stored := some (⟨addr, size.toNat⟩, word) }
  else
    { logs := segFixLogs c i raw ++ [.ge5], stored := none }

end Sys2Proof.Machine
end

