-- ==== Sys2Proof/Machine/Ops.lean ====
section
/-! DEFINITION. The named operations over the state: the register file, the log and the ports, the chip selects, the
serial bus, the flash window, the segment map, the DMA sequencer with its interrupt line, and reset. The block takes no
exception and returns from none (`60_exceptions.md` R300, R308, R309); raising and acknowledging its one interrupt are
`complete` and `dmaStop`. -/

namespace Sys2Proof.Machine

-- The register file, the channels, the log, the read ports

/-- `x[k]` (R12, R21). -/
def State.word (s : State) (k : Nat) : Word := s.x.getD k 0#32

/-- `x[k] <- v` (R12, R21). -/
def State.setWord (s : State) (k : Nat) (v : Word) : State := { s with x := s.x.set k v }

/-- `chan[i].win` (R36). -/
def State.win (s : State) (i : Nat) : Window := (s.chan.getD i ⟨⟨0, 0⟩, true⟩).win

/-- `chan[i].romd` (R36). -/
def State.romd (s : State) (i : Nat) : Bool := (s.chan.getD i ⟨⟨0, 0⟩, true⟩).romd

/-- `chan[i].win <- w`. -/
def State.setWin (s : State) (i : Nat) (w : Window) : State :=
  { s with chan := s.chan.modify i (fun ch => { ch with win := w }) }

/-- `chan[i].romd <- b`. -/
def State.setRomd (s : State) (i : Nat) (b : Bool) : State :=
  { s with chan := s.chan.modify i (fun ch => { ch with romd := b }) }

/-- `Log(..)` for each of these causes, in this order (R12, R15). -/
def State.note (s : State) (codes : List LogCode) : State := { s with log := s.log ++ codes }

/-- A read returns `v` on its port (R18; log 25). -/
def State.answer (s : State) (v : Word) : State := { s with reply := some v }

/-- The control word of channel `i`: the constant 0 where the slave has no control register (R26, R162). -/
def State.ctrlWord (s : State) (i : Nat) : Word := if i < s.cfg.numCs then s.word (idxCtrl s.cfg i) else 0#32

/-- `Mode(i)` (R162). -/
def State.mode (s : State) (i : Nat) : Mode := ctrlMode (s.ctrlWord i)

/-- `Is4Byte(i)` (R213). -/
def State.fourByte (s : State) (i : Nat) : Bool := ceFourByte (s.word (idxCeCtrl s.cfg)) i

/-- The write-enable bit of channel `i` (R225). -/
def State.writeEnabled (s : State) (i : Nat) : Bool := confWriteEnable s.cfg (s.word (idxConf s.cfg)) i

-- Chip selects

/-- The level of output `i` (R39). -/
def State.csLevel (s : State) (i : Nat) : Level := s.csOut.getD i .inactive

/-- The changes of level between two sets of outputs, in rising order. -/
def csEdges (old new : List Level) : List BusEvent :=
  (List.range new.length).filterMap fun j =>
    if old.getD j .inactive = new.getD j .inactive then none else some (.cs j (new.getD j .inactive))

/-- Drive every output (R161, R164, R332). -/
def State.driveAll (s : State) (levels : List Level) : State :=
  { s with csOut := levels, trace := s.trace ++ csEdges s.csOut levels }

/-- Drive output `i` (R214, R218); a slave at or above `num_cs` has no output (R229). -/
def State.drive (s : State) (i : Nat) (l : Level) : State :=
  if i < s.cfg.numCs ∧ s.csLevel i ≠ l then
    { s with csOut := s.csOut.set i l, trace := s.trace ++ [.cs i l] }
  else s

/-- The level that `ce_stop` of slave `j` holds its output at (R164). -/
def State.ceLevel (s : State) (j : Nat) : Level :=
  if ctrlCeStop (s.word (idxCtrl s.cfg j)) then .inactive else .active

/-- R164: re-drive every output from its `ce_stop` bit. -/
def State.refreshCs (s : State) : State := s.driveAll ((List.range s.cfg.numCs).map s.ceLevel)

-- The serial bus

/-- The selected slaves: those whose output is active (R211, R345). -/
def State.selected (s : State) : List Nat := (List.range s.csOut.length).filter fun j => s.csLevel j = .active

/-- Every exchange of an access to channel `i` answers 0: the channel has no storage (R228), or the one selected slave
has none (R81). With several selected the reply is any value (R345; log 8). -/
def State.repliesZero (s : State) (i : Nat) : Bool :=
  match s.selected with
  | [] => !s.cfg.storageAttached i
  | [j] => !s.cfg.storageAttached i || !s.cfg.storageAttached j
  | _ => false

/-- One exchange `SpiXfer(tx)` of an access to channel `i` (R12, R81): 0 where no storage answers (R228, R81), else any
value (R345; log 7, log 8). -/
def spiXfer (s : State) (i : Nat) (tx : Byte) : State × Byte :=
  if s.repliesZero i then
    ({ s with trace := s.trace ++ [.xfer tx 0#8] }, 0#8)
  else match s.spiReplies with
    | rx :: rest => ({ s with trace := s.trace ++ [.xfer tx rx], spiReplies := rest }, rx)
    | [] =>
      let rx := Config.freeSpiReply s.draws s.trace tx
      ({ s with trace := s.trace ++ [.xfer tx rx], draws := s.draws + 1 }, rx)

/-- Exchange these bytes in order; the replies in order. -/
def spiXfers : List Byte → Nat → State → State × List Byte
  | [], _, s => (s, [])
  | tx :: txs, i, s =>
    let (s1, rx) := spiXfer s i tx
    let (s2, rxs) := spiXfers txs i s1
    (s2, rx :: rxs)

/-- `CommandByte(i)` (R212). -/
def State.commandByte (s : State) (i : Nat) : Byte :=
  match s.mode i with
  | .read => s.cfg.opRead
  | _ => ctrlCmd (s.ctrlWord i)

/-- The bytes of `FrameSetup(i, off)` (R215). -/
def State.frameSetup (s : State) (i : Nat) (off : Word) : List Byte :=
  (if s.fourByte i then [s.cfg.opEn4b] else []) ++ s.commandByte i :: addressBytes (s.fourByte i) off

/-- `Select(i)`, the frame's opening bytes and these data bytes, `Deselect(i)` (R214, R215, R218); the replies to the
data bytes. -/
def framed (s : State) (i : Nat) (off : Word) (data : List Byte) : State × List Byte :=
  let opened := (spiXfers (s.frameSetup i off) i (s.drive i .active)).1
  let (done, rxs) := spiXfers data i opened
  (done.drive i .inactive, rxs)

/-- `ChanRead(i, off, n)` (R220): `UserRead` (R222) or `FramedRead` (R221). -/
def chanRead (s : State) (i : Nat) (off : Word) (n : Nat) : State × Word :=
  let dummies := List.replicate n s.cfg.dummyTx
  let (t, rxs) := match s.mode i with
    | .user => spiXfers dummies i s
    | _ => framed s i off dummies
  (t, leWord rxs)

/-- The write-enable gate is closed for a write to channel `i` (R225; `WE_GATES_USER`, D18). -/
def State.writeRefused (s : State) (i : Nat) : Bool :=
  !s.writeEnabled i && (s.cfg.weGatesUser || decide (s.mode i ≠ .user))

/-- `ChanWrite(i, off, n, v)` (R224): refused (R225), `UserWrite` (R227) or `FramedWrite` (R226). -/
def chanWrite (s : State) (i : Nat) (off : Word) (n : Nat) (v : Word) : State :=
  if s.writeRefused i then s.note [.ge8]
  else match s.mode i with
    | .user => (spiXfers (leBytes n v) i s).1
    | _ => (framed s i off (leBytes n v)).1

-- The flash window

/-- `RomImage(i, off)` (R68): a listed byte, or a free value (log 9). -/
def romByte (s : State) (i off : Nat) : Byte :=
  match s.flashImage.find? (fun c => c.channel = i ∧ c.offset = off) with
  | some c => c.value
  | none => Config.freeRomByte s.draws s.trace i off

/-- A read served as plain memory (R66): 0 without storage; no bus traffic. -/
def romRead (s : State) (i off n : Nat) : State × Word :=
  if s.cfg.storageAttached i then
    ({ s with draws := s.draws + 1 }, leWord ((List.range n).map fun k => romByte s i (off + k)))
  else (s, 0#32)

/-- Bus address `a` lies in the window (R62). -/
def Window.holds (w : Window) (a : Nat) : Bool := decide (w.addr ≤ a ∧ a < w.addr + w.size)

/-- The channels whose window contains `a` (R63, R69). -/
def State.channelsAt (s : State) (a : Nat) : List Nat :=
  (List.range s.cfg.maxSlaves).filter fun i => Window.holds (s.win i) a

/-- `ChanOf(a)` (R63): the one containing channel, any one of several (R69(a), a free value), or none (R69(b)). -/
def chanOf (s : State) (a : Nat) : State × Option Nat :=
  match s.channelsAt a with
  | [] => (s, none)
  | [i] => (s, some i)
  | is => ({ s with draws := s.draws + 1 }, is[Config.freeChannelPick s.draws s.trace a % is.length]?)

/-- R65: the whole access lies in channel `i`'s window. -/
def State.insideWindow (s : State) (i a n : Nat) : Bool := decide (a + n ≤ (s.win i).addr + (s.win i).size)

/-- The low `n` bytes of a word. -/
def lowBytes (n : Nat) (v : Word) : Word := leWord (leBytes n v)

/-- `WindowRead(a, n)` (R66); a free value in a hole (R69(b); outside the flash window, log 10); `none` where the access
straddles the window's end (R65). -/
def windowRead (s : State) (a n : Nat) : Option (State × Word) :=
  match chanOf s a with
  | (t, none) => some ({ t with draws := t.draws + 1 }, lowBytes n (Config.freeHoleRead t.draws t.trace a))
  | (t, some i) =>
    if t.insideWindow i a n then
      some (if t.romd i then romRead t i (a - (t.win i).addr) n
        else chanRead t i (BitVec.ofNat 32 (a - (t.win i).addr)) n)
    else none

/-- `WindowWrite(a, n, v)` (R67); dropped in a hole (R69(b); outside the flash window, log 10); `none` where the access
straddles the window's end (R65). -/
def windowWrite (s : State) (a n : Nat) (v : Word) : Option State :=
  match chanOf s a with
  | (t, none) => some t
  | (t, some i) =>
    if t.insideWindow i a n then some (chanWrite t i (BitVec.ofNat 32 (a - (t.win i).addr)) n v) else none

-- The segment map and the control registers

/-- The write of SEG(i) (R139, R190): nothing at all where the value is the stored one. -/
def writeSeg (s : State) (i : Nat) (v : Word) : State :=
  if v = s.word (idxSeg i) then s
  else
    let r := segDecide s.cfg s.win i v
    match r.stored with
    | none => s.note r.logs
    | some (w, stored) => ((s.note r.logs).setWin i w).setWord (idxSeg i) stored

/-- The write of CTRL(i) (R161): the word, the ROM-decode flag (R163), and every chip select (R164). -/
def writeCtrl (s : State) (i : Nat) (v : Word) : State :=
  ((s.setWord (idxCtrl s.cfg i) v).setRomd i (decide (ctrlMode v ≠ .user))).refreshCs

-- The DMA sequencer and the interrupt line

/-- `InProgress()` (R254). -/
def State.busy (s : State) : Bool := inProgress (s.word idxDmaCtrl) (s.word idxIntrCtrl)

/-- The latch that an accepted start makes (R255; `CKSUM_INIT`, D21). -/
def State.latched (s : State) : DmaTransfer :=
  { wdir := dmaCtrlWdir (s.word idxDmaCtrl)
    cksum := dmaCtrlCksum (s.word idxDmaCtrl)
    faddr := s.word idxDmaFlashAddr
    daddr := s.word idxDmaDramAddr
    rem := s.word idxDmaLen + 4#32
    sum := match s.cfg.cksumInit with
      | .zero => 0#32
      | .register => s.word idxDmaChecksum }

/-- `DmaStart()` (R255). -/
def dmaStart (s : State) : State := { s with dma := some s.latched }

/-- The four operand registers hold these values (R259's republish, R264). -/
def State.publish (s : State) (faddr daddr len sum : Word) : State :=
  (((s.setWord idxDmaFlashAddr faddr).setWord idxDmaDramAddr daddr).setWord idxDmaLen len).setWord idxDmaChecksum sum

/-- `DmaStop()` (R264): the acknowledgement; it clears `dma_status` and lowers the line (R309). -/
def dmaStop (s : State) : State :=
  { (s.setWord idxIntrCtrl (clearDmaStatus (s.word idxIntrCtrl))).publish 0#32 0#32 0#32 0#32 with
    irq := .low, dma := none }

/-- The write of DMA_CTRL (R252): a disable write, a rejected start (R254), or an accepted one. -/
def writeDmaCtrl (s : State) (v : Word) : State :=
  if dmaCtrlEn v = false then dmaStop (s.setWord idxDmaCtrl v)
  else if s.busy then s.note [.ge9]
  else dmaStart (s.setWord idxDmaCtrl v)

/-- `Complete()` (R262): `dma_status` is set; the line is raised where `dma_en` is set, and not changed otherwise. -/
def complete (s : State) : State :=
  let t := s.setWord idxIntrCtrl (setDmaStatus (s.word idxIntrCtrl))
  { t with
    irq := if intrDmaEn (t.word idxIntrCtrl) then .high else t.irq
    dma := none }

/-- The end of a quantum (R259): the latch and the operand registers hold what the move left, and the transfer
completes where nothing remains. -/
def endQuantum (s : State) (t : DmaTransfer) : State :=
  let moved := { t with rem := t.rem - 4#32 }
  let s1 := { s with dma := some moved }.publish moved.faddr moved.daddr moved.rem moved.sum
  if moved.rem = 0#32 then complete s1 else s1

/-- The move of a quantum (R260, R261, R263), with the cursors and the sum after it; `none` where the flash-side access
straddles a window's end (R65). -/
def moveQuantum (s : State) (t : DmaTransfer) : Option (State × DmaTransfer) :=
  if t.cksum then
    (windowRead s t.faddr.toNat 4).map fun r => (r.1, { t with sum := t.sum + r.2, faddr := t.faddr + 4#32 })
  else if t.wdir then
    (windowWrite s t.faddr.toNat 4 (s.dram.read32 t.daddr)).map fun r =>
      (r, { t with faddr := t.faddr + 4#32, daddr := t.daddr + 4#32 })
  else
    (windowRead s t.faddr.toNat 4).map fun r =>
      ({ r.1 with dram := r.1.dram.write32 t.daddr r.2 },
        { t with faddr := t.faddr + 4#32, daddr := t.daddr + 4#32 })

/-- The transfer in existence, on a variant that has the engine (R258, R267). -/
def State.transfer (s : State) : Option DmaTransfer := if s.cfg.hasDma then s.dma else none

/-- `DMAQ` (R258, R259). Where it is not enabled, no step is taken: nothing changes (log 4). -/
def quantum (s : State) : Result :=
  match s.transfer with
  | none => .next s
  | some t =>
    if dmaCtrlEn (s.word idxDmaCtrl) = false then .next { s with dma := none }
    else match moveQuantum s t with
      | none => .refused .straddlesWindow
      | some (s1, t1) => .next (endQuantum s1 t1)

-- Reset

/-- `RESET` (R332, R333, R334): the block is as right after construction; main memory, the collaborators' inputs
and what has been observed stay. -/
def resetBlock (s : State) : State :=
  { s.driveAll (List.replicate s.cfg.numCs .inactive) with
    x := resetRegs s.cfg
    chan := (List.range s.cfg.maxSlaves).map (fun i => ⟨s.cfg.defaultSeg i, true⟩)
    irq := .low
    dma := none }

-- Register dispatch

/-- A register read of a category (R131, R132, R133). -/
def readCategory (s : State) (cat : Category) : State :=
  match cat, wordIndex s.cfg cat with
  | .outOfRange, _ => (s.note [.ge1]).answer 0#32
  | _, some k => s.answer (s.word k)
  | _, none => (s.note [.u1]).answer 0#32

/-- A register write of a category (R135 to R142): ignored with U2 where the instance has no such register, or where
it is DMA_CHECKSUM. -/
def writeCategory (s : State) (cat : Category) (v : Word) : State :=
  match cat, wordIndex s.cfg cat with
  | .outOfRange, _ => s.note [.ge2]
  | _, none => s.note [.u2]
  | .seg i, some _ => writeSeg s i v
  | .ctrl i, some _ => writeCtrl s i v
  | .dmaCtrl, some _ => writeDmaCtrl s v
  | .dmaFlashAddr, some k => s.setWord k (dmaFlashOperand s.cfg v)
  | .dmaDramAddr, some k => s.setWord k (dmaDramOperand s.cfg v)
  | .dmaLen, some k => s.setWord k (dmaLenOperand s.cfg v)
  | .dmaChecksum, some _ => s.note [.u2]
  | _, some k => s.setWord k v

/-- `RD32 off` (R130). -/
def rd32 (s : State) (off : Nat) : State := readCategory s (categoryOf s.cfg off)

/-- `WR32 off, v` (R130, R143). -/
def wr32 (s : State) (off : Nat) (v : Word) : State := writeCategory s (categoryOf s.cfg off) v

-- The outcomes of the operations

/-- `FRD a, n` (R66, R13): the value read is returned on the window port. -/
def windowReadOp (s : State) (a n : Nat) : Result :=
  match windowRead s a n with
  | some (t, v) => .next (t.answer v)
  | none => .refused .straddlesWindow

/-- `FWR a, n, v` (R67, R13). -/
def windowWriteOp (s : State) (a n : Nat) (v : Word) : Result :=
  match windowWrite s a n v with
  | some t => .next t
  | none => .refused .straddlesWindow

/-- An access delivered straight to channel `i`'s read entry (R210, R220; log 18). -/
def channelReadOp (s : State) (i : Nat) (off : Word) (n : Nat) : Result :=
  if i < s.cfg.maxSlaves then .next ((chanRead s i off n).1.answer (chanRead s i off n).2)
  else .refused .noSuchChannel

/-- An access delivered straight to channel `i`'s write entry (R210, R224; log 18). -/
def channelWriteOp (s : State) (i : Nat) (off : Word) (n : Nat) (v : Word) : Result :=
  if i < s.cfg.maxSlaves then .next (chanWrite s i off n v) else .refused .noSuchChannel

-- Taking the next operation

/-- The next operation in the total order (R74, R80), and the state it is performed in; where none is presented,
the DMA agent's (R270; log 3). -/
def fetch (s : State) : Except Reject (Instr × State) :=
  match s.pending with
  | [] => .ok (.dmaq, s)
  | op :: rest => (decode s.cfg op).map fun i => (i, { s with pending := rest })

end Sys2Proof.Machine
end

