-- ==== Sys2Proof/Machine/ControlWord.lean ====
section
/-! DEFINITION. The meanings of the W.CTRL and W.DMACTRL rows, the sub-decodes of a written word (`30_encoding.md` R93, R94): the
register write that carries the word (log 19). -/

namespace Sys2Proof.Machine

/-- `CTRL.READ` (R165): the write of CTRL(i) with a word of this mode (R161). -/
def execCtrlRead (i : Nat) (w : Word) (s : State) : Result := .next (writeCategory s (.ctrl i) w)

/-- `CTRL.FASTREAD` (R166): the write of CTRL(i) with a word of this mode (R161). -/
def execCtrlFastread (i : Nat) (w : Word) (s : State) : Result := .next (writeCategory s (.ctrl i) w)

/-- `CTRL.WRITE` (R167): the write of CTRL(i) with a word of this mode (R161). -/
def execCtrlWrite (i : Nat) (w : Word) (s : State) : Result := .next (writeCategory s (.ctrl i) w)

/-- `CTRL.USER` (R168): the write of CTRL(i) with a word of this mode (R161). -/
def execCtrlUser (i : Nat) (w : Word) (s : State) : Result := .next (writeCategory s (.ctrl i) w)

/-- `DMA.STOP` (R264: the disable write, never rejected). -/
def execDmaStop (w : Word) (s : State) : Result := .next (writeCategory s .dmaCtrl w)

/-- `DMA.START.F2D` (R255: a start, flash to DRAM). -/
def execDmaStartF2d (w : Word) (s : State) : Result := .next (writeCategory s .dmaCtrl w)

/-- `DMA.START.D2F` (R255: a start, DRAM to flash). -/
def execDmaStartD2f (w : Word) (s : State) : Result := .next (writeCategory s .dmaCtrl w)

/-- `DMA.START.CKSUM` (R255: a start, checksum; `wdir` is latched without effect). -/
def execDmaStartCksum (w : Word) (s : State) : Result := .next (writeCategory s .dmaCtrl w)

end Sys2Proof.Machine
end

