-- ==== Sys2Proof/Machine/Frame.lean ====
section
/-! DEFINITION. The meanings of the FRAME rows: an access delivered straight to a channel (`43_flash_framing.md` R210), which takes the
frame that the channel's mode, address width and write-enable select at that moment (R220, R224, R230; log 18). -/

namespace Sys2Proof.Machine

/-- `F.RD3` (R220, R221: the frame F.RD3 where the mode is framed and `a4b[i]` is 0). -/
def execFRd3 (i : Nat) (off : Word) (n : Nat) (s : State) : Result := channelReadOp s i off n

/-- `F.RD4` (R220, R221: the frame F.RD4 where the mode is framed and `a4b[i]` is 1). -/
def execFRd4 (i : Nat) (off : Word) (n : Nat) (s : State) : Result := channelReadOp s i off n

/-- `F.WR3` (R224, R226: the frame F.WR3 where the mode is framed, `a4b[i]` is 0 and `we[i]` is 1). -/
def execFWr3 (i : Nat) (off : Word) (n : Nat) (v : Word) (s : State) : Result := channelWriteOp s i off n v

/-- `F.WR4` (R224, R226: the frame F.WR4 where the mode is framed, `a4b[i]` is 1 and `we[i]` is 1). -/
def execFWr4 (i : Nat) (off : Word) (n : Nat) (v : Word) (s : State) : Result := channelWriteOp s i off n v

/-- `F.URD` (R220, R222: the frame F.URD where the mode is User). -/
def execFUrd (i : Nat) (off : Word) (n : Nat) (s : State) : Result := channelReadOp s i off n

/-- `F.UWR` (R224, R227: the frame F.UWR where the mode is User and `we[i]` is 1). -/
def execFUwr (i : Nat) (off : Word) (n : Nat) (v : Word) (s : State) : Result := channelWriteOp s i off n v

end Sys2Proof.Machine
end

