-- ==== Sys2Proof/Machine/Port.lean ====
section
/-! DEFINITION. The meanings of the PORT rows: the flash-window port, the DMA agent's step and reset (`00_scope.md` R13). -/

namespace Sys2Proof.Machine

/-- `FRD` (R66): `WindowRead`. -/
def execFrd (a : Word) (n : Nat) (s : State) : Result := windowReadOp s a.toNat n

/-- `FWR` (R67): `WindowWrite`. -/
def execFwr (a : Word) (n : Nat) (v : Word) (s : State) : Result := windowWriteOp s a.toNat n v

/-- `DMAQ` (R259): one quantum. -/
def execDmaq (s : State) : Result := quantum s

/-- `RESET` (R332). -/
def execReset (s : State) : Result := .next (resetBlock s)

end Sys2Proof.Machine
end

