-- ==== Sys2Proof/Machine/Pseudo.lean ====
section
/-! DEFINITION. The meanings of the PSEUDO rows: the notation of `30_encoding.md` R102. Each is the register writes (and reads) it
expands to, through the register dispatch at the expanded offset. -/

namespace Sys2Proof.Machine

/-- The byte offset `V.r_ctrl0 + 4*i` (R102). -/
def ctrlOffset (c : Config) (i : Nat) : Nat := c.rCtrl0 + 4 * i

/-- `SETCTRL i, w` = `WR32 V.r_ctrl0+4*i, w` (R102, R161). -/
def execSetctrl (i : Nat) (w : Word) (s : State) : Result := .next (wr32 s (ctrlOffset s.cfg i) w)

/-- `SETSEG i, w` = `WR32 0x30+4*i, w` (R102, R139). -/
def execSetseg (i : Nat) (w : Word) (s : State) : Result := .next (wr32 s (0x30 + 4 * i) w)

/-- `DMA.START w` = `WR32 0x80, w` with `w[0] = 1` (R102, R252). -/
def execDmaStart (w : Word) (s : State) : Result := .next (wr32 s 0x80 w)

/-- A read of CTRL(i) followed by the write of a word made from the value read (R102; as one step, log 20). -/
def readModifyCtrl (s : State) (i : Nat) (f : Word → Word) : State :=
  let t := rd32 s (ctrlOffset s.cfg i)
  wr32 t (ctrlOffset s.cfg i) (f (t.reply.getD 0#32))

/-- `CS.LOW i`: clear `ce_stop` (R102). -/
def execCsLow (i : Nat) (s : State) : Result := .next (readModifyCtrl s i (fun w => w &&& ~~~4#32))

/-- `CS.HIGH i`: set `ce_stop` (R102). -/
def execCsHigh (i : Nat) (s : State) : Result := .next (readModifyCtrl s i (fun w => w ||| 4#32))

end Sys2Proof.Machine
end

