-- ==== Sys2Proof/Machine/RegRead.lean ====
section
/-! DEFINITION. The meanings of the REG.RD rows: register reads (`40_register_dispatch.md` R130 to R133). Where the instance
lacks the register, the read is unimplemented (R133). -/

namespace Sys2Proof.Machine

/-- `RD32.CONF` (R132). -/
def execRd32Conf (s : State) : Result := .next (readCategory s .conf)

/-- `RD32.CE_CTRL` (R132). -/
def execRd32CeCtrl (s : State) : Result := .next (readCategory s .ceCtrl)

/-- `RD32.INTR_CTRL` (R132). -/
def execRd32IntrCtrl (s : State) : Result := .next (readCategory s .intrCtrl)

/-- `RD32.CTRL0` (R132). -/
def execRd32Ctrl0 (s : State) : Result := .next (readCategory s (.ctrl 0))

/-- `RD32.CTRL1` (R132). -/
def execRd32Ctrl1 (s : State) : Result := .next (readCategory s (.ctrl 1))

/-- `RD32.CTRL2` (R132). -/
def execRd32Ctrl2 (s : State) : Result := .next (readCategory s (.ctrl 2))

/-- `RD32.CTRL3` (R132). -/
def execRd32Ctrl3 (s : State) : Result := .next (readCategory s (.ctrl 3))

/-- `RD32.CTRL4` (R132). -/
def execRd32Ctrl4 (s : State) : Result := .next (readCategory s (.ctrl 4))

/-- `RD32.SEG0` (R132). -/
def execRd32Seg0 (s : State) : Result := .next (readCategory s (.seg 0))

/-- `RD32.SEG1` (R132). -/
def execRd32Seg1 (s : State) : Result := .next (readCategory s (.seg 1))

/-- `RD32.SEG2` (R132). -/
def execRd32Seg2 (s : State) : Result := .next (readCategory s (.seg 2))

/-- `RD32.SEG3` (R132). -/
def execRd32Seg3 (s : State) : Result := .next (readCategory s (.seg 3))

/-- `RD32.SEG4` (R132). -/
def execRd32Seg4 (s : State) : Result := .next (readCategory s (.seg 4))

/-- `RD32.MISC1` (R133). -/
def execRd32Misc1 (s : State) : Result := .next (readCategory s .unimplemented)

/-- `RD32.MISC2` (R133). -/
def execRd32Misc2 (s : State) : Result := .next (readCategory s .unimplemented)

/-- `RD32.DMA_CTRL` (R132). -/
def execRd32DmaCtrl (s : State) : Result := .next (readCategory s .dmaCtrl)

/-- `RD32.DMA_FLASH_ADDR` (R132). -/
def execRd32DmaFlashAddr (s : State) : Result := .next (readCategory s .dmaFlashAddr)

/-- `RD32.DMA_DRAM_ADDR` (R132). -/
def execRd32DmaDramAddr (s : State) : Result := .next (readCategory s .dmaDramAddr)

/-- `RD32.DMA_LEN` (R132). -/
def execRd32DmaLen (s : State) : Result := .next (readCategory s .dmaLen)

/-- `RD32.DMA_CHECKSUM` (R132). -/
def execRd32DmaChecksum (s : State) : Result := .next (readCategory s .dmaChecksum)

/-- `RD32.TIMINGS` (R132). -/
def execRd32Timings (s : State) : Result := .next (readCategory s .timings)

/-- `RD32.UNIMP` (R133): U1, and 0, whatever the offset. -/
def execRd32Unimp (_off : Word) (s : State) : Result := .next (readCategory s .unimplemented)

/-- `RD32.OOR` (R131): GE1, and 0; no wrap modulo `NREGS`. -/
def execRd32Oor (_off : Word) (s : State) : Result := .next (readCategory s .outOfRange)

end Sys2Proof.Machine
end

