-- ==== Sys2Proof/Machine/RegWord.lean ====
section
/-! DEFINITION. The meanings of the WORD rows: a word in a register's format (`30_encoding.md` R92) is what a write of that register
carries (log 17). -/

namespace Sys2Proof.Machine

/-- `W.CONF` (R23, R135). -/
def execWConf (w : Word) (s : State) : Result :=
  .next (writeCategory s .conf w)

/-- `W.CE` (R24, R136). -/
def execWCe (w : Word) (s : State) : Result :=
  .next (writeCategory s .ceCtrl w)

/-- `W.INTR` (R25, R138). -/
def execWIntr (w : Word) (s : State) : Result :=
  .next (writeCategory s .intrCtrl w)

/-- `W.CTRL` (R26, R161). -/
def execWCtrl (i : Nat) (w : Word) (s : State) : Result :=
  .next (writeCategory s (.ctrl i) w)

/-- `W.SEG` (R27, R139). -/
def execWSeg (i : Nat) (w : Word) (s : State) : Result :=
  .next (writeCategory s (.seg i) w)

/-- `W.DMACTRL` (R29, R252). -/
def execWDmactrl (w : Word) (s : State) : Result :=
  .next (writeCategory s .dmaCtrl w)

/-- `W.ADDR` (R30, R31, R250, R251). -/
def execWAddr (side : AddrSide) (w : Word) (s : State) : Result :=
  .next (writeCategory s (match side with | .flash => .dmaFlashAddr | .dram => .dmaDramAddr) w)

/-- `W.LEN` (R32, R253). -/
def execWLen (w : Word) (s : State) : Result :=
  .next (writeCategory s .dmaLen w)

/-- `W.SUM` (R33, R141: read-only to the bus master). -/
def execWSum (w : Word) (s : State) : Result :=
  .next (writeCategory s .dmaChecksum w)

/-- `W.RAW` (R34, R137). -/
def execWRaw (w : Word) (s : State) : Result :=
  .next (writeCategory s .timings w)

end Sys2Proof.Machine
end

