-- ==== Sys2Proof/Machine/RegWrite.lean ====
section
/-! DEFINITION. The meanings of the REG.WR rows: register writes (`40_register_dispatch.md` R135 to R143). Where the instance
lacks the register, the write is unimplemented (R141). -/

namespace Sys2Proof.Machine

/-- `WR32.CONF` (R135). -/
def execWr32Conf (v : Word) (s : State) : Result := .next (writeCategory s .conf v)

/-- `WR32.CE_CTRL` (R136). -/
def execWr32CeCtrl (v : Word) (s : State) : Result := .next (writeCategory s .ceCtrl v)

/-- `WR32.INTR_CTRL` (R138). -/
def execWr32IntrCtrl (v : Word) (s : State) : Result := .next (writeCategory s .intrCtrl v)

/-- `WR32.CTRL0` (R161). -/
def execWr32Ctrl0 (v : Word) (s : State) : Result := .next (writeCategory s (.ctrl 0) v)

/-- `WR32.CTRL1` (R161). -/
def execWr32Ctrl1 (v : Word) (s : State) : Result := .next (writeCategory s (.ctrl 1) v)

/-- `WR32.CTRL2` (R161). -/
def execWr32Ctrl2 (v : Word) (s : State) : Result := .next (writeCategory s (.ctrl 2) v)

/-- `WR32.CTRL3` (R161). -/
def execWr32Ctrl3 (v : Word) (s : State) : Result := .next (writeCategory s (.ctrl 3) v)

/-- `WR32.CTRL4` (R161). -/
def execWr32Ctrl4 (v : Word) (s : State) : Result := .next (writeCategory s (.ctrl 4) v)

/-- `WR32.SEG0` (R139, R190). -/
def execWr32Seg0 (v : Word) (s : State) : Result := .next (writeCategory s (.seg 0) v)

/-- `WR32.SEG1` (R139, R190). -/
def execWr32Seg1 (v : Word) (s : State) : Result := .next (writeCategory s (.seg 1) v)

/-- `WR32.SEG2` (R139, R190). -/
def execWr32Seg2 (v : Word) (s : State) : Result := .next (writeCategory s (.seg 2) v)

/-- `WR32.SEG3` (R139, R190). -/
def execWr32Seg3 (v : Word) (s : State) : Result := .next (writeCategory s (.seg 3) v)

/-- `WR32.SEG4` (R139, R190). -/
def execWr32Seg4 (v : Word) (s : State) : Result := .next (writeCategory s (.seg 4) v)

/-- `WR32.MISC1` (R141). -/
def execWr32Misc1 (v : Word) (s : State) : Result := .next (writeCategory s .unimplemented v)

/-- `WR32.MISC2` (R141). -/
def execWr32Misc2 (v : Word) (s : State) : Result := .next (writeCategory s .unimplemented v)

/-- `WR32.DMA_CTRL` (R252). -/
def execWr32DmaCtrl (v : Word) (s : State) : Result := .next (writeCategory s .dmaCtrl v)

/-- `WR32.DMA_FLASH_ADDR` (R250). -/
def execWr32DmaFlashAddr (v : Word) (s : State) : Result := .next (writeCategory s .dmaFlashAddr v)

/-- `WR32.DMA_DRAM_ADDR` (R251). -/
def execWr32DmaDramAddr (v : Word) (s : State) : Result := .next (writeCategory s .dmaDramAddr v)

/-- `WR32.DMA_LEN` (R253). -/
def execWr32DmaLen (v : Word) (s : State) : Result := .next (writeCategory s .dmaLen v)

/-- `WR32.DMA_CHECKSUM` (R141). -/
def execWr32DmaChecksum (v : Word) (s : State) : Result := .next (writeCategory s .dmaChecksum v)

/-- `WR32.TIMINGS` (R137). -/
def execWr32Timings (v : Word) (s : State) : Result := .next (writeCategory s .timings v)

/-- `WR32.UNIMP` (R141): U2, and no other change. -/
def execWr32Unimp (_off v : Word) (s : State) : Result := .next (writeCategory s .unimplemented v)

/-- `WR32.OOR` (R140): GE2, and no other change. -/
def execWr32Oor (_off v : Word) (s : State) : Result := .next (writeCategory s .outOfRange v)

end Sys2Proof.Machine
end

