-- ==== Sys2Proof/Machine/Dispatch.lean ====
section
/-! DEFINITION. The dispatch: one arm per constructor of `Instr`, one direct call of its meaning. -/

namespace Sys2Proof.Machine

def exec (i : Instr) (s : State) : Host.Outcome State Fault Refusal :=
  match i with
  | .rd32Conf => Sys2Proof.Machine.execRd32Conf s
  | .rd32CeCtrl => Sys2Proof.Machine.execRd32CeCtrl s
  | .rd32IntrCtrl => Sys2Proof.Machine.execRd32IntrCtrl s
  | .rd32Ctrl0 => Sys2Proof.Machine.execRd32Ctrl0 s
  | .rd32Ctrl1 => Sys2Proof.Machine.execRd32Ctrl1 s
  | .rd32Ctrl2 => Sys2Proof.Machine.execRd32Ctrl2 s
  | .rd32Ctrl3 => Sys2Proof.Machine.execRd32Ctrl3 s
  | .rd32Ctrl4 => Sys2Proof.Machine.execRd32Ctrl4 s
  | .rd32Seg0 => Sys2Proof.Machine.execRd32Seg0 s
  | .rd32Seg1 => Sys2Proof.Machine.execRd32Seg1 s
  | .rd32Seg2 => Sys2Proof.Machine.execRd32Seg2 s
  | .rd32Seg3 => Sys2Proof.Machine.execRd32Seg3 s
  | .rd32Seg4 => Sys2Proof.Machine.execRd32Seg4 s
  | .rd32Misc1 => Sys2Proof.Machine.execRd32Misc1 s
  | .rd32Misc2 => Sys2Proof.Machine.execRd32Misc2 s
  | .rd32DmaCtrl => Sys2Proof.Machine.execRd32DmaCtrl s
  | .rd32DmaFlashAddr => Sys2Proof.Machine.execRd32DmaFlashAddr s
  | .rd32DmaDramAddr => Sys2Proof.Machine.execRd32DmaDramAddr s
  | .rd32DmaLen => Sys2Proof.Machine.execRd32DmaLen s
  | .rd32DmaChecksum => Sys2Proof.Machine.execRd32DmaChecksum s
  | .rd32Timings => Sys2Proof.Machine.execRd32Timings s
  | .rd32Unimp off => Sys2Proof.Machine.execRd32Unimp off s
  | .rd32Oor off => Sys2Proof.Machine.execRd32Oor off s
  | .wr32Conf v => Sys2Proof.Machine.execWr32Conf v s
  | .wr32CeCtrl v => Sys2Proof.Machine.execWr32CeCtrl v s
  | .wr32IntrCtrl v => Sys2Proof.Machine.execWr32IntrCtrl v s
  | .wr32Ctrl0 v => Sys2Proof.Machine.execWr32Ctrl0 v s
  | .wr32Ctrl1 v => Sys2Proof.Machine.execWr32Ctrl1 v s
  | .wr32Ctrl2 v => Sys2Proof.Machine.execWr32Ctrl2 v s
  | .wr32Ctrl3 v => Sys2Proof.Machine.execWr32Ctrl3 v s
  | .wr32Ctrl4 v => Sys2Proof.Machine.execWr32Ctrl4 v s
  | .wr32Seg0 v => Sys2Proof.Machine.execWr32Seg0 v s
  | .wr32Seg1 v => Sys2Proof.Machine.execWr32Seg1 v s
  | .wr32Seg2 v => Sys2Proof.Machine.execWr32Seg2 v s
  | .wr32Seg3 v => Sys2Proof.Machine.execWr32Seg3 v s
  | .wr32Seg4 v => Sys2Proof.Machine.execWr32Seg4 v s
  | .wr32Misc1 v => Sys2Proof.Machine.execWr32Misc1 v s
  | .wr32Misc2 v => Sys2Proof.Machine.execWr32Misc2 v s
  | .wr32DmaCtrl v => Sys2Proof.Machine.execWr32DmaCtrl v s
  | .wr32DmaFlashAddr v => Sys2Proof.Machine.execWr32DmaFlashAddr v s
  | .wr32DmaDramAddr v => Sys2Proof.Machine.execWr32DmaDramAddr v s
  | .wr32DmaLen v => Sys2Proof.Machine.execWr32DmaLen v s
  | .wr32DmaChecksum v => Sys2Proof.Machine.execWr32DmaChecksum v s
  | .wr32Timings v => Sys2Proof.Machine.execWr32Timings v s
  | .wr32Unimp off v => Sys2Proof.Machine.execWr32Unimp off v s
  | .wr32Oor off v => Sys2Proof.Machine.execWr32Oor off v s
  | .ctrlRead idx w => Sys2Proof.Machine.execCtrlRead idx w s
  | .ctrlFastread idx w => Sys2Proof.Machine.execCtrlFastread idx w s
  | .ctrlWrite idx w => Sys2Proof.Machine.execCtrlWrite idx w s
  | .ctrlUser idx w => Sys2Proof.Machine.execCtrlUser idx w s
  | .dmaStop w => Sys2Proof.Machine.execDmaStop w s
  | .dmaStartF2d w => Sys2Proof.Machine.execDmaStartF2d w s
  | .dmaStartD2f w => Sys2Proof.Machine.execDmaStartD2f w s
  | .dmaStartCksum w => Sys2Proof.Machine.execDmaStartCksum w s
  | .wConf w => Sys2Proof.Machine.execWConf w s
  | .wCe w => Sys2Proof.Machine.execWCe w s
  | .wIntr w => Sys2Proof.Machine.execWIntr w s
  | .wCtrl idx w => Sys2Proof.Machine.execWCtrl idx w s
  | .wSeg idx w => Sys2Proof.Machine.execWSeg idx w s
  | .wDmactrl w => Sys2Proof.Machine.execWDmactrl w s
  | .wAddr side w => Sys2Proof.Machine.execWAddr side w s
  | .wLen w => Sys2Proof.Machine.execWLen w s
  | .wSum w => Sys2Proof.Machine.execWSum w s
  | .wRaw w => Sys2Proof.Machine.execWRaw w s
  | .fRd3 idx off n => Sys2Proof.Machine.execFRd3 idx off n s
  | .fRd4 idx off n => Sys2Proof.Machine.execFRd4 idx off n s
  | .fWr3 idx off n v => Sys2Proof.Machine.execFWr3 idx off n v s
  | .fWr4 idx off n v => Sys2Proof.Machine.execFWr4 idx off n v s
  | .fUrd idx off n => Sys2Proof.Machine.execFUrd idx off n s
  | .fUwr idx off n v => Sys2Proof.Machine.execFUwr idx off n v s
  | .frd a n => Sys2Proof.Machine.execFrd a n s
  | .fwr a n v => Sys2Proof.Machine.execFwr a n v s
  | .dmaq => Sys2Proof.Machine.execDmaq s
  | .reset => Sys2Proof.Machine.execReset s
  | .setctrl idx w => Sys2Proof.Machine.execSetctrl idx w s
  | .setseg idx w => Sys2Proof.Machine.execSetseg idx w s
  | .dmaStart w => Sys2Proof.Machine.execDmaStart w s
  | .csLow idx => Sys2Proof.Machine.execCsLow idx s
  | .csHigh idx => Sys2Proof.Machine.execCsHigh idx s

end Sys2Proof.Machine
end

