-- ==== Sys2Proof/Machine/Step.lean ====
section
/-! DEFINITION. One step of the machine: the next operation of the total order (`20_memory.md` R74), and how an
operation is placed there. -/

namespace Sys2Proof.Machine

/-- One step. A configuration that breaks the constraints every rule assumes is rejected (I21). -/
def step (s : State) : Host.Outcome State Fault Refusal :=
  if s.cfg.Valid then
    match fetch s with
    | .ok (i, t) => exec i t
    | .error why => .refused (.badOperation why)
  else .refused .invalidConfiguration

/-- `s` with the operation of a word of the opcode table presented next (log 1, log 2). -/
def State.withFetchWord (s : State) (nbits w : Nat) : State := { s with pending := tableOp nbits w :: s.pending }

end Sys2Proof.Machine
end

