-- ==== Sys2Proof/Safety.lean ====
section
/-! DEFINITION. The terms the statements use: what a run keeps (`10_state.md` R20, R21, R35 to R38, `42_segment_map.md`
R192, `44_dma.md` R267), what an access may touch, what the flash chips see, and runs of quanta. -/

namespace Sys2Proof.Machine

-- Invariants

/-- R20, R21: a valid configuration, and one register file, channel table and output bank of its sizes. -/
def State.Shape (s : State) : Prop :=
  s.cfg.Valid ∧ s.x.length = s.cfg.nregs ∧ s.chan.length = s.cfg.maxSlaves ∧ s.csOut.length = s.cfg.numCs

/-- R37: every window is the one its segment register encodes. -/
def State.WindowsMatch (s : State) : Prop :=
  ∀ i < s.cfg.maxSlaves, segUnpack (s.word (idxSeg i)) = ((s.win i).addr, ((s.win i).size : Int))

/-- R38: the ROM-decode flag is clear exactly for a slave in User mode. -/
def State.RomdMatches (s : State) : Prop :=
  ∀ i < s.cfg.maxSlaves,
    s.romd i = if i < s.cfg.numCs then decide ((s.word (idxCtrl s.cfg i)).field 1 0 ≠ 3) else true

/-- R192, R36: every window is aligned and inside the flash window, channel 0 starts at its base, and a fixed last end
is where it was. -/
def State.WindowsInside (s : State) : Prop :=
  (∀ i < s.cfg.maxSlaves, (s.win i).addr % segUnit = 0 ∧ (s.win i).size % segUnit = 0 ∧
    s.cfg.flashBase ≤ (s.win i).addr ∧ (s.win i).addr + (s.win i).size ≤ s.cfg.flashBase + s.cfg.flashSize) ∧
  (s.win 0).addr = s.cfg.flashBase ∧
  (s.cfg.fixedLastEnd = true →
    (s.win (s.cfg.maxSlaves - 1)).addr + (s.win (s.cfg.maxSlaves - 1)).size = s.cfg.fixedEnd)

/-- The byte offsets that belong to a recognised category (R91 lines 1 to 11, R132). -/
def recognisedOffsets (c : Config) : List Nat :=
  [c.rConf, c.rTimings, c.rCeCtrl, 0x08] ++ c.dmaOffsets
    ++ (List.range c.maxSlaves).map (fun i => 0x30 + 4 * i)
    ++ (List.range c.numCs).map (fun i => c.rCtrl0 + 4 * i)

/-- R21, R35: a word outside every category holds 0. -/
def State.UnnamedZero (s : State) : Prop :=
  ∀ k < s.cfg.nregs, 4 * k ∉ recognisedOffsets s.cfg → s.word k = 0#32

/-- R32, R40 under the constraint of R9: the length field is a multiple of 4 that leaves room for 4 more, and what a
transfer in existence has left is a multiple of 4 that is not 0. -/
def State.LengthsSound (s : State) : Prop :=
  s.cfg.hasDma = true →
    (s.word idxDmaLen &&& 3#32 = 0#32 ∧ (s.word idxDmaLen).toNat ≤ 0xFFFFFFF8) ∧
    ∀ t, s.dma = some t → t.rem &&& 3#32 = 0#32 ∧ t.rem ≠ 0#32

/-- R267: without the engine there is no transfer and the line is low. -/
def State.QuietWithoutDma (s : State) : Prop := s.cfg.hasDma = false → s.dma = none ∧ s.irq = .low

/-- Main memory has its canonical form. -/
def State.MemoryWf (s : State) : Prop := s.dram.wf = true

/-- What every run keeps. -/
def State.Inv (s : State) : Prop :=
  s.Shape ∧ s.WindowsMatch ∧ s.RomdMatches ∧ s.WindowsInside ∧ s.UnnamedZero ∧ s.LengthsSound ∧ s.QuietWithoutDma
    ∧ s.MemoryWf

-- What an access may touch

/-- `t` is `s` but for what an access to the flash window may change: chip selects, the bus history, the log, the
collaborator's answers and the counter of free values. -/
def AccessOnly (s t : State) : Prop :=
  t = { s with
    csOut := t.csOut, trace := t.trace, log := t.log, spiReplies := t.spiReplies, draws := t.draws }

/-- Every byte of main memory reads as before. -/
def SameMemory (s t : State) : Prop := ∀ a, t.dram.readByte a = s.dram.readByte a

/-- Every word of the register file but those listed holds what it held. -/
def SameWordsBut (s t : State) (ks : List Nat) : Prop := ∀ k, k ∉ ks → t.word k = s.word k

-- Where an access goes

/-- Exactly channel `i` decodes bus address `a`, and its window holds the whole access (R63, R65). -/
def DecodedBy (s : State) (a n i : Nat) : Prop :=
  s.channelsAt a = [i] ∧ a + n ≤ (s.win i).addr + (s.win i).size

/-- No window that contains `a` ends inside the access (R65). -/
def NoStraddle (s : State) (a n : Nat) : Prop :=
  ∀ i ∈ s.channelsAt a, a + n ≤ (s.win i).addr + (s.win i).size

/-- The offset of a bus address in channel `i`'s window (R64), as the 32 bits a frame is made from (R97). -/
def windowOffset (s : State) (a i : Nat) : Word := BitVec.ofNat 32 (a - (s.win i).addr)

/-- The bytes that open a frame on channel `i`, as R99 tabulates them: the prefix and `A3` go with `a4b[i]`, the
command is `OP_READ` in mode 0 and `cmd` otherwise (R212). -/
def openingBytes (s : State) (i : Nat) (off : Word) : List Byte :=
  let ctrl := if i < s.cfg.numCs then s.word (s.cfg.rCtrl0 / 4 + i) else 0#32
  let cmd := if ctrl.field 1 0 = 0 then s.cfg.opRead else ctrl.byte 2
  if (s.word (s.cfg.rCeCtrl / 4)).getLsbD i then [s.cfg.opEn4b, cmd, off.byte 3, off.byte 2, off.byte 1, off.byte 0]
  else [cmd, off.byte 2, off.byte 1, off.byte 0]

/-- The write-enable bit of channel `i` (R225). -/
def enabledToWrite (s : State) (i : Nat) : Bool := (s.word (s.cfg.rConf / 4)).getLsbD (s.cfg.weBase + i)

/-- The four bytes of an access of 4 bytes at a main-memory address: the addresses that a copy quantum stores to. -/
def storedAt (a : Word) (b : Nat) : Prop := ∃ k < 4, b = Memory.byteAddr a k

-- What the flash chips see

/-- The bytes sent, in order. -/
def sentBytes : List BusEvent → List Byte
  | [] => []
  | .xfer tx _ :: es => tx :: sentBytes es
  | .cs _ _ :: es => sentBytes es

/-- The bytes received, in order. -/
def receivedBytes : List BusEvent → List Byte
  | [] => []
  | .xfer _ rx :: es => rx :: receivedBytes es
  | .cs _ _ :: es => receivedBytes es

/-- The chip-select changes, in order. -/
def csChanges : List BusEvent → List (Nat × Level)
  | [] => []
  | .xfer _ _ :: es => csChanges es
  | .cs i l :: es => (i, l) :: csChanges es

-- Runs of the DMA agent

/-- `k` quanta with nothing else in between, as long as each has a next state. -/
def runQuanta : Nat → State → Option State
  | 0, s => some s
  | k + 1, s =>
    match exec .dmaq s with
    | .next t => runQuanta k t
    | _ => none

/-- The sum, modulo 2^32, of the words that the next `k` quanta read from the flash side (R263): each at the flash cursor
of the transfer as it is then. -/
def quantaSum : Nat → State → Word
  | 0, _ => 0#32
  | k + 1, s =>
    match s.transfer, exec .dmaq s with
    | some x, .next t =>
      (match windowRead s x.faddr.toNat 4 with
        | some (_, w) => w
        | none => 0#32) + quantaSum k t
    | _, _ => 0#32

end Sys2Proof.Machine
end

