-- ==== Sys2Proof/Certificates/Slice0/Obligations.lean ====
section
/-! DEFINITION. The statements about the model, for the provers. The docstring of each names the rules of the spec it
formalises, and says where a clause is the model's own choice (the entry of the assumption log). -/

open Sys2Proof Sys2Proof.Machine

-- Encoding

/-- Every well-formed operation decodes from its own encoding, under every valid configuration whose named registers
have offsets of 32 bits (R90 to R94, R99, R102). The layout of the presented tuple and its 32 bits for an offset are the
model's choice (log 2): a register at a larger offset has no encoding of its own. -/
def Obligations.DecodeOfEncode : Prop :=
  ∀ c : Config, c.Valid → c.OffsetsFit → ∀ i : Instr, i.wf c = true → decode c (encode c i) = .ok i

/-- Whatever decodes is a well-formed operation, and the presented bits are exactly its encoding: no bit is dropped and
no two presentations mean one operation (R90, R91; log 2). -/
def Obligations.EncodeOfDecode : Prop :=
  ∀ c : Config, c.Valid → ∀ (op : RawOp) (i : Instr), decode c op = .ok i → i.wf c = true ∧ encode c i = op

/-- Words written out from the spec's own encodings decode to the operations they stand for under `CFG-A` (R22, R91,
R93, R94, R99; the format numbers are log 2). -/
def Obligations.SpecWordsDecode : Prop :=
  decode Config.cfgA ⟨0x00000010#32, 0x00000000#32, 0x00040000#32⟩ = .ok .rd32Ctrl0
    ∧ decode Config.cfgA ⟨0x00000030#32, 0x4C420000#32, 0x00040001#32⟩ = .ok (.wr32Seg0 0x4C420000#32)
    ∧ decode Config.cfgA ⟨0x00000000#32, 0x00020006#32, 0x00000002#32⟩ = .ok (.ctrlWrite 0 0x00020006#32)
    ∧ decode Config.cfgA ⟨0x00000000#32, 0x00000003#32, 0x00000003#32⟩ = .ok (.dmaStartD2f 0x00000003#32)
    ∧ decode Config.cfgA ⟨0x00000000#32, 0x00000808#32, 0x00000204#32⟩ = .ok (.wIntr 0x00000808#32)
    ∧ decode Config.cfgA ⟨0x00001234#32, 0xDDCCBBAA#32, 0x00040205#32⟩ = .ok (.fWr3 0 0x00001234#32 4 0xDDCCBBAA#32)
    ∧ decode Config.cfgA ⟨0x20000000#32, 0x00000000#32, 0x00020006#32⟩ = .ok (.frd 0x20000000#32 2)
    ∧ decode Config.cfgA ⟨0x00000000#32, 0x00000000#32, 0x02000407#32⟩ = .ok (.csHigh 2)

-- One step

/-- A step performs the next presented operation, at the state without it (R74; the list of presented operations is
log 1). -/
def Obligations.StepRunsTheDecodedOperation : Prop :=
  ∀ (s : State) (op : RawOp) (rest : List RawOp) (i : Instr), s.cfg.Valid → s.pending = op :: rest →
    decode s.cfg op = .ok i → step s = exec i { s with pending := rest }

/-- With nothing presented a step is the DMA agent's (the model's choice, log 3); bits that are no operation and a
configuration that breaks the constraints are refused under the names of log 13 and log 14 (R71, R65; I21). -/
def Obligations.StepOtherwise : Prop :=
  ∀ s : State,
    (s.cfg.Valid → s.pending = [] → step s = exec .dmaq s)
      ∧ (∀ op rest why, s.cfg.Valid → s.pending = op :: rest → decode s.cfg op = .error why →
          step s = .refused (.badOperation why))
      ∧ (¬ s.cfg.Valid → step s = .refused .invalidConfiguration)

/-- The only operations that stop, and the only names they stop under: window accesses and quanta across a window's end,
and frames on a channel that the variant lacks (R300, R65, R36; log 12, log 30). -/
def Obligations.OnlyTheNamedStops : Prop :=
  ∀ (i : Instr) (s : State) (r : Refusal), exec i s = .refused r →
    (r = .straddlesWindow ∧
      ((∃ a n, i = .frd a n ∧ ¬ NoStraddle s a.toNat n)
        ∨ (∃ a n v, i = .fwr a n v ∧ ¬ NoStraddle s a.toNat n)
        ∨ (i = .dmaq ∧ ∃ t, s.transfer = some t ∧ ¬ NoStraddle s t.faddr.toNat 4)))
      ∨ (r = .noSuchChannel ∧ ∃ j off n v, s.cfg.maxSlaves ≤ j ∧
          i ∈ [.fRd3 j off n, .fRd4 j off n, .fUrd j off n, .fWr3 j off n v, .fWr4 j off n v, .fUwr j off n v])

/-- Where the decoding window ends inside an access, the access and a quantum's are refused by name, and so is a frame
on a channel that the variant lacks (R65, R36; I8; log 12, log 30). -/
def Obligations.StopsByName : Prop :=
  ∀ (s : State) (i : Nat),
    (∀ (a : Word) (n : Nat), s.channelsAt a.toNat = [i] → (s.win i).addr + (s.win i).size < a.toNat + n →
      exec (.frd a n) s = .refused .straddlesWindow ∧
        ∀ v, exec (.fwr a n v) s = .refused .straddlesWindow)
      ∧ (∀ t, s.transfer = some t → (s.word 32).getLsbD 0 = true → s.channelsAt t.faddr.toNat = [i] →
          (s.win i).addr + (s.win i).size < t.faddr.toNat + 4 → exec .dmaq s = .refused .straddlesWindow)
      ∧ (s.cfg.maxSlaves ≤ i → ∀ off n v,
          ∀ op ∈ [Instr.fRd3 i off n, .fRd4 i off n, .fUrd i off n, .fWr3 i off n v, .fWr4 i off n v, .fUwr i off n v],
            exec op s = .refused .noSuchChannel)

-- Reset and construction

/-- What RESET leaves (R47, R332), and what it does not do (R334): no exchange, main memory, the configuration and the
model's own fields as before. -/
def Obligations.ResetTabulated : Prop :=
  ∀ s : State, s.Shape → ∃ t, exec .reset s = .next t
    ∧ (∀ i < s.cfg.numCs, t.word (s.cfg.rCtrl0 / 4 + i) = 0x00000004#32)
    ∧ (∀ i < s.cfg.maxSlaves,
        t.word (12 + i) = segPack (s.cfg.defaultSeg i).addr (s.cfg.defaultSeg i).size
          ∧ t.win i = s.cfg.defaultSeg i ∧ t.romd i = true)
    ∧ (∀ k, (∀ i < s.cfg.numCs, k ≠ s.cfg.rCtrl0 / 4 + i) → (∀ i < s.cfg.maxSlaves, k ≠ 12 + i) → t.word k = 0#32)
    ∧ t.csOut = List.replicate s.cfg.numCs .inactive ∧ t.irq = .low ∧ t.dma = none
    ∧ sentBytes t.trace = sentBytes s.trace
    ∧ t.x.length = s.x.length ∧ t.chan.length = s.chan.length ∧ SameMemory s t
    ∧ t = { s with x := t.x, chan := t.chan, csOut := t.csOut, irq := t.irq, dma := t.dma, trace := t.trace }

/-- R333: reset is idempotent and complete. Nothing of the block's state after it depends on the state before it;
invoking it twice gives the same register file, channels and outputs; every channel is in ROM-decode mode and every
chip select inactive. -/
def Obligations.ResetIsIdempotentAndComplete : Prop :=
  ∀ s t : State, s.cfg = t.cfg → ∃ s1 t1 s2,
    exec .reset s = .next s1 ∧ exec .reset t = .next t1 ∧ exec .reset s1 = .next s2
      ∧ (t1.x = s1.x ∧ t1.chan = s1.chan ∧ t1.csOut = s1.csOut ∧ t1.irq = s1.irq ∧ t1.dma = s1.dma)
      ∧ s2 = s1
      ∧ (∀ i, s1.romd i = true) ∧ (∀ i, s1.csLevel i = .inactive)

/-- The state after reset meets every invariant under every valid configuration (R47 with R37, R38, R192), so in the
reference configuration (the model's choice, log 5) and in the default configuration of each of the six variants
(log 6), which are valid. -/
def Obligations.ResetMeetsTheInvariants : Prop :=
  (∀ c : Config, c.Valid → (State.resetOf c).Inv)
    ∧ State.reset.Inv ∧ ∀ v : Variant, (Config.ofVariant v).Valid ∧ (State.resetOf (Config.ofVariant v)).Inv

/-- R303: a request for more chip selects than the variant has slaves is clamped to the maximum with one logged warning,
construction still succeeds, and no operation of a run logs that warning. -/
def Obligations.ClampOnlyAtConstruction : Prop :=
  (∀ (c : Config) (n : Nat),
      (State.construct c n).cfg = { c with numCs := min n c.maxSlaves }
        ∧ (State.construct c n).log = if c.maxSlaves < n then [.w1] else [])
    ∧ ∀ (i : Instr) (s t : State), exec i s = .next t → t.log.count .w1 = s.log.count .w1

-- Register reads

/-- R132: a read of a register that the instance has returns the stored word, all 32 bits, with no other effect. -/
def Obligations.StoredRegistersAreRead : Prop :=
  ∀ s : State, s.cfg.Valid →
    ∀ p ∈ [(Instr.rd32Conf, s.cfg.rConf), (.rd32CeCtrl, s.cfg.rCeCtrl), (.rd32IntrCtrl, 0x08),
        (.rd32Ctrl0, s.cfg.rCtrl0), (.rd32Ctrl1, s.cfg.rCtrl0 + 4), (.rd32Ctrl2, s.cfg.rCtrl0 + 8),
        (.rd32Ctrl3, s.cfg.rCtrl0 + 12), (.rd32Ctrl4, s.cfg.rCtrl0 + 16),
        (.rd32Seg0, 0x30), (.rd32Seg1, 0x34), (.rd32Seg2, 0x38), (.rd32Seg3, 0x3C), (.rd32Seg4, 0x40),
        (.rd32DmaCtrl, 0x80), (.rd32DmaFlashAddr, 0x84), (.rd32DmaDramAddr, 0x88), (.rd32DmaLen, 0x8C),
        (.rd32DmaChecksum, 0x90), (.rd32Timings, s.cfg.rTimings)],
      p.1.wf s.cfg = true → exec p.1 s = .next { s with reply := some (s.word (p.2 / 4)) }

/-- R131: a read beyond the register file is logged and returns 0, and nothing else changes. -/
def Obligations.OutOfRangeRead : Prop :=
  ∀ (s : State) (off : Word), ∃ t, exec (.rd32Oor off) s = .next t ∧ t.reply = some 0x00000000#32
    ∧ t.log = s.log ++ [.ge1] ∧ t = { s with reply := t.reply, log := t.log }

/-- R133: a read of an offset in no category, or of a register that the instance lacks, is logged as unimplemented and
returns 0 without consulting the stored word, and nothing else changes. -/
def Obligations.UnimplementedReads : Prop :=
  ∀ (s : State) (off : Word) (i : Instr),
    (i ∈ [.rd32Misc1, .rd32Misc2, .rd32Unimp off]
      ∨ (i ∈ [.rd32Ctrl0, .rd32Ctrl1, .rd32Ctrl2, .rd32Ctrl3, .rd32Ctrl4, .rd32Seg0, .rd32Seg1, .rd32Seg2, .rd32Seg3,
            .rd32Seg4, .rd32DmaCtrl, .rd32DmaFlashAddr, .rd32DmaDramAddr, .rd32DmaLen, .rd32DmaChecksum]
          ∧ i.wf s.cfg = false)) →
    ∃ t, exec i s = .next t ∧ t.reply = some 0x00000000#32 ∧ t.log = s.log ++ [.u1]
      ∧ t = { s with reply := t.reply, log := t.log }

/-- A register read at any offset that is a multiple of 4 decodes to one operation, which completes with the answer of
the offset's category and changes no state of the block (R91, R130 to R133). -/
def Obligations.EveryRegisterReadCompletes : Prop :=
  ∀ (s : State) (off : Word), s.cfg.Valid → off.toNat % 4 = 0 →
    ∃ i t, decode s.cfg (rawRead off) = .ok i ∧ exec i s = .next t
      ∧ t = { s with reply := t.reply, log := t.log }
      ∧ if s.cfg.nregs ≤ off.toNat / 4 then t.reply = some 0#32 ∧ t.log = s.log ++ [.ge1]
        else if off.toNat ∈ recognisedOffsets s.cfg then t.reply = some (s.word (off.toNat / 4)) ∧ t.log = s.log
        else t.reply = some 0#32 ∧ t.log = s.log ++ [.u1]

-- Register writes with no further effect

/-- R135, R136, R137: CONF, CE_CTRL and TIMINGS store the written word, all 32 bits, and nothing else changes. -/
def Obligations.VerbatimWrites : Prop :=
  ∀ (s : State) (v : Word), s.Shape →
    ∀ p ∈ [(Instr.wr32Conf v, s.cfg.rConf), (.wr32CeCtrl v, s.cfg.rCeCtrl), (.wr32Timings v, s.cfg.rTimings)],
      ∃ t, exec p.1 s = .next t ∧ t.word (p.2 / 4) = v ∧ SameWordsBut s t [p.2 / 4] ∧ SameMemory s t
        ∧ t = { s with x := t.x }

/-- A write of INTR_CTRL stores all 32 bits, the three status bits included, and leaves the interrupt line, the transfer
and everything else as they were (R138, R305; the `W.INTR` row as that write is the model's choice, log 17). -/
def Obligations.InterruptControlWrite : Prop :=
  ∀ (s : State) (v : Word), s.Shape → ∀ i ∈ [Instr.wr32IntrCtrl v, .wIntr v],
    ∃ t, exec i s = .next t ∧ t.word 2 = v ∧ SameWordsBut s t [2] ∧ SameMemory s t ∧ t = { s with x := t.x }

/-- A word in a register's format is the write that carries it (the model's choice, log 17): it stores what a write of
that register stores, and nothing else changes (R92, R135 to R137, R250, R251, R253). -/
def Obligations.WordRowWrites : Prop :=
  ∀ (s : State) (v : Word), s.Shape →
    ∀ p ∈ [(Instr.wConf v, s.cfg.rConf / 4, v), (.wCe v, s.cfg.rCeCtrl / 4, v), (.wRaw v, s.cfg.rTimings / 4, v)]
        ++ (if s.cfg.hasDma then
            [(.wAddr .flash v, 33, BitVec.ofNat 32 s.cfg.flashBase ||| (v &&& s.cfg.dmaFlashMask)),
              (.wAddr .dram v, 34, s.cfg.sdramBase ||| (v &&& s.cfg.dmaDramMask)), (.wLen v, 35, v &&& s.cfg.dmaLenMask)]
          else []),
      ∃ t, exec p.1 s = .next t ∧ t.word p.2.1 = p.2.2 ∧ SameWordsBut s t [p.2.1] ∧ SameMemory s t
        ∧ t = { s with x := t.x }

/-- R140: a write beyond the register file is logged and changes no state. -/
def Obligations.OutOfRangeWrite : Prop :=
  ∀ (s : State) (off v : Word), ∃ t, exec (.wr32Oor off v) s = .next t ∧ t.log = s.log ++ [.ge2]
    ∧ t = { s with log := t.log }

/-- A write of an offset in no category, of DMA_CHECKSUM, or of a register that the instance lacks is logged as
unimplemented and changes no state (R141, R101; the rows that are no `WR32` are log 17 and log 19). -/
def Obligations.UnimplementedWrites : Prop :=
  ∀ (s : State) (off v : Word) (j : Nat) (i : Instr),
    (i ∈ [.wr32Misc1 v, .wr32Misc2 v, .wr32Unimp off v, .wr32DmaChecksum v, .wSum v]
      ∨ (i ∈ [.wr32Ctrl0 v, .wr32Ctrl1 v, .wr32Ctrl2 v, .wr32Ctrl3 v, .wr32Ctrl4 v, .wr32Seg0 v, .wr32Seg1 v,
            .wr32Seg2 v, .wr32Seg3 v, .wr32Seg4 v, .wr32DmaCtrl v, .wr32DmaFlashAddr v, .wr32DmaDramAddr v,
            .wr32DmaLen v]
          ∧ i.wf s.cfg = false)
      ∨ (i ∈ [.ctrlRead j v, .ctrlFastread j v, .ctrlWrite j v, .ctrlUser j v, .wCtrl j v] ∧ s.cfg.numCs ≤ j)
      ∨ (i = .wSeg j v ∧ s.cfg.maxSlaves ≤ j)
      ∨ (i ∈ [.dmaStop v, .dmaStartF2d v, .dmaStartD2f v, .dmaStartCksum v, .wDmactrl v, .wAddr .flash v,
            .wAddr .dram v, .wLen v]
          ∧ s.cfg.hasDma = false)) →
    ∃ t, exec i s = .next t ∧ t.log = s.log ++ [.u2] ∧ t = { s with log := t.log }

/-- A register write at any offset that is a multiple of 4 decodes to one operation, which completes; out of range it
only logs GE2, in no category or at DMA_CHECKSUM it only logs U2 (R91, R130, R140 to R142). -/
def Obligations.EveryRegisterWriteCompletes : Prop :=
  ∀ (s : State) (off v : Word), s.cfg.Valid → off.toNat % 4 = 0 →
    ∃ i t, decode s.cfg (rawWrite off v) = .ok i ∧ exec i s = .next t
      ∧ (s.cfg.nregs ≤ off.toNat / 4 → t = { s with log := s.log ++ [.ge2] })
      ∧ (off.toNat / 4 < s.cfg.nregs → (off.toNat ∉ recognisedOffsets s.cfg ∨ (s.cfg.hasDma = true ∧ off = 0x90#32)) →
          t = { s with log := s.log ++ [.u2] })

/-- A register write never exchanges a byte and never touches main memory or the flash images; it changes the chip
selects only at a control register and the interrupt line only by a disable write (R143). -/
def Obligations.RegisterWritesStayInside : Prop :=
  ∀ (s t : State) (off v : Word) (i : Instr), s.cfg.Valid → decode s.cfg (rawWrite off v) = .ok i →
    exec i s = .next t →
      sentBytes t.trace = sentBytes s.trace ∧ SameMemory s t ∧ t.flashImage = s.flashImage
        ∧ t.spiReplies = s.spiReplies ∧ t.draws = s.draws ∧ t.reply = s.reply
        ∧ (t.csOut ≠ s.csOut → ∃ j < s.cfg.numCs, off.toNat = s.cfg.rCtrl0 + 4 * j)
        ∧ (t.irq ≠ s.irq → off = 0x80#32 ∧ v.getLsbD 0 = false)

-- Segment registers

/-- A word decodes to a window that packs into the word with bits 15:0 cleared, and a window of the domain packs
into a word that decodes to it (R191). -/
def Obligations.SegmentRoundTrip : Prop :=
  (∀ w : Word, segPack (segUnpack w).1 (segUnpack w).2 = w &&& 0xFFFF0000#32)
    ∧ ∀ (addr : Nat) (size : Int), addr % 8388608 = 0 → size % 8388608 = 0 → addr ≤ 0xFF * 8388608 →
        0 ≤ addr + size → addr + size ≤ 0xFF * 8388608 → segUnpack (segPack addr size) = (addr, size)

/-- Writing a segment register with the word it holds does nothing at all, not even a log (R139; log 17). -/
def Obligations.SegmentWriteOfTheSameWord : Prop :=
  ∀ (s : State) (i : Nat), s.cfg.Valid → i < s.cfg.maxSlaves →
    ∀ op, (op ∈ [.wSeg i (s.word (12 + i)), .setseg i (s.word (12 + i))]
        ∨ (op, i) ∈ [(Instr.wr32Seg0 (s.word 12), 0), (.wr32Seg1 (s.word 13), 1), (.wr32Seg2 (s.word 14), 2),
          (.wr32Seg3 (s.word 15), 3), (.wr32Seg4 (s.word 16), 4)]) →
      exec op s = .next s

/-- The write of a segment register with another word (R184 to R190, D10): the corrections of channel 0's start and of
a fixed end, containment, the two warnings, and the window and word stored together. Where channel 0's start is
corrected the statement is about the default reading of that correction; any other write is covered under both
readings. That the `W.SEG` row is that write is the model's choice (log 17). -/
def Obligations.SegmentWrite : Prop :=
  ∀ (s : State) (i : Nat) (v : Word), s.Shape → i < s.cfg.maxSlaves → v ≠ s.word (12 + i) →
    (s.cfg.seg0Keeps = .size ∨ i ≠ 0 ∨ v.field 23 16 * 8388608 = s.cfg.flashBase) →
    ∀ op, (op ∈ [.wSeg i v, .setseg i v]
        ∨ (op, i) ∈ [(Instr.wr32Seg0 v, 0), (.wr32Seg1 v, 1), (.wr32Seg2 v, 2), (.wr32Seg3 v, 3), (.wr32Seg4 v, 4)]) →
      let start := v.field 23 16 * 8388608
      let moved := i = 0 ∧ start ≠ s.cfg.flashBase
      let addr := if moved then s.cfg.flashBase else start
      let decoded : Int := (v.field 31 24 * 8388608 : Int) - (start : Int)
      let ended := s.cfg.fixedLastEnd = true ∧ i + 1 = s.cfg.maxSlaves ∧ (addr : Int) + decoded ≠ s.cfg.fixedEnd
      let size : Int := if ended then (s.cfg.fixedEnd : Int) - addr else decoded
      let corrections := (if moved then [LogCode.ge3] else []) ++ (if ended then [LogCode.ge4] else [])
      ∃ t, exec op s = .next t ∧ SameMemory s t ∧ t.x.length = s.x.length ∧ t.chan.length = s.chan.length ∧
        if 0 ≤ size ∧ s.cfg.flashBase ≤ addr ∧ (addr : Int) + size ≤ s.cfg.flashBase + s.cfg.flashSize then
          t.win i = ⟨addr, size.toNat⟩
            ∧ (if moved ∨ ended then
                (t.word (12 + i)).field 31 24 * 8388608 = addr + size.toNat
                  ∧ (t.word (12 + i)).field 23 16 * 8388608 = addr ∧ (t.word (12 + i)).field 15 0 = 0
              else t.word (12 + i) = v)
            ∧ SameWordsBut s t [12 + i]
            ∧ (∀ j, j ≠ i → t.win j = s.win j) ∧ (∀ j, t.romd j = s.romd j)
            ∧ t.log = s.log ++ corrections
                ++ (if 0 < size ∧ addr % size.toNat ≠ 0 then [.ge6] else [])
                ++ (if ∃ j < s.cfg.maxSlaves, j ≠ i ∧ 0 < size ∧ 0 < (s.win j).size
                      ∧ addr < (s.win j).addr + (s.win j).size ∧ ((s.win j).addr : Int) < addr + size
                    then [.ge7] else [])
            ∧ t = { s with x := t.x, chan := t.chan, log := t.log }
        else t = { s with log := s.log ++ corrections ++ [.ge5] }

/-- The other reading of the start correction (the switch of D10, I22): a write of SEG(0) with another start keeps the
end field and replaces the start field; then a fixed end is corrected where channel 0 is the topmost one, and
containment, the two warnings and the discard are those of any segment write (R185 to R190, R307). That the `W.SEG` row
is that write is the model's choice (log 17). -/
def Obligations.SegmentZeroKeepsItsEnd : Prop :=
  ∀ (s : State) (v : Word), s.Shape → v ≠ s.word 12 → s.cfg.seg0Keeps = .endField →
    v.field 23 16 * 8388608 ≠ s.cfg.flashBase →
    ∀ op ∈ [Instr.wr32Seg0 v, .wSeg 0 v, .setseg 0 v],
      let base := s.cfg.flashBase
      let ended := s.cfg.fixedLastEnd = true ∧ s.cfg.maxSlaves = 1 ∧ v.field 31 24 * 8388608 ≠ s.cfg.fixedEnd
      let size : Int := (if ended then (s.cfg.fixedEnd : Int) else (v.field 31 24 * 8388608 : Int)) - base
      let corrections := [LogCode.ge3] ++ (if ended then [LogCode.ge4] else [])
      ∃ t, exec op s = .next t ∧ SameMemory s t ∧ t.x.length = s.x.length ∧ t.chan.length = s.chan.length ∧
        if 0 ≤ size ∧ size ≤ s.cfg.flashSize then
          t.win 0 = ⟨base, size.toNat⟩
            ∧ (t.word 12).field 23 16 * 8388608 = base ∧ (t.word 12).field 31 24 * 8388608 = base + size.toNat
            ∧ (t.word 12).field 15 0 = (if ended then 0 else v.field 15 0)
            ∧ SameWordsBut s t [12] ∧ (∀ j, j ≠ 0 → t.win j = s.win j) ∧ (∀ j, t.romd j = s.romd j)
            ∧ t.log = s.log ++ corrections
                ++ (if 0 < size ∧ base % size.toNat ≠ 0 then [.ge6] else [])
                ++ (if ∃ j < s.cfg.maxSlaves, j ≠ 0 ∧ 0 < size ∧ 0 < (s.win j).size
                      ∧ base < (s.win j).addr + (s.win j).size ∧ ((s.win j).addr : Int) < base + size
                    then [.ge7] else [])
            ∧ t = { s with x := t.x, chan := t.chan, log := t.log }
        else t = { s with log := s.log ++ corrections ++ [.ge5] }

-- Control registers

/-- A write of CTRL(i) stores the word, sets the slave's ROM-decode flag from its mode, and re-drives every chip select
from its `ce_stop` bit; no byte is exchanged and nothing else changes (R161, R163, R164; that a control word's row is
the write that carries it is the model's choice, log 17, log 19). -/
def Obligations.ControlWrite : Prop :=
  ∀ (s : State) (i : Nat) (v : Word), s.Shape → i < s.cfg.numCs →
    ∀ op, (op ∈ [.ctrlRead i v, .ctrlFastread i v, .ctrlWrite i v, .ctrlUser i v, .wCtrl i v, .setctrl i v]
        ∨ (op, i) ∈ [(Instr.wr32Ctrl0 v, 0), (.wr32Ctrl1 v, 1), (.wr32Ctrl2 v, 2), (.wr32Ctrl3 v, 3),
          (.wr32Ctrl4 v, 4)]) →
      ∃ t, exec op s = .next t
        ∧ t.word (s.cfg.rCtrl0 / 4 + i) = v ∧ SameWordsBut s t [s.cfg.rCtrl0 / 4 + i]
        ∧ t.romd i = decide (v.field 1 0 ≠ 3) ∧ (∀ j, j ≠ i → t.romd j = s.romd j) ∧ (∀ j, t.win j = s.win j)
        ∧ t.csOut.length = s.cfg.numCs
        ∧ (∀ j < s.cfg.numCs,
            t.csLevel j = if (t.word (s.cfg.rCtrl0 / 4 + j)).getLsbD 2 then .inactive else .active)
        ∧ sentBytes t.trace = sentBytes s.trace ∧ SameMemory s t
        ∧ t = { s with x := t.x, chan := t.chan, csOut := t.csOut, trace := t.trace }

/-- CS.LOW and CS.HIGH read CTRL(i) and write it back with `ce_stop` cleared or set (R102, R161, R164; as one step,
log 20). For a slave of the variant without a control register the read and the write are unimplemented: the read
answers 0, both are logged, and nothing else changes (R133, R141). -/
def Obligations.ChipSelectPulses : Prop :=
  ∀ (s : State) (i : Nat), s.Shape →
    (i < s.cfg.numCs →
      ∀ p ∈ [(Instr.csLow i, s.word (s.cfg.rCtrl0 / 4 + i) &&& ~~~0x00000004#32),
          (.csHigh i, s.word (s.cfg.rCtrl0 / 4 + i) ||| 0x00000004#32)],
        ∃ t, exec p.1 s = .next t
          ∧ t.word (s.cfg.rCtrl0 / 4 + i) = p.2 ∧ SameWordsBut s t [s.cfg.rCtrl0 / 4 + i]
          ∧ t.csLevel i = (if p.1 = .csLow i then .active else .inactive)
          ∧ t.romd i = decide ((s.word (s.cfg.rCtrl0 / 4 + i)).field 1 0 ≠ 3) ∧ (∀ j, j ≠ i → t.romd j = s.romd j)
          ∧ (∀ j, t.win j = s.win j)
          ∧ (∀ j < s.cfg.numCs,
              t.csLevel j = if (t.word (s.cfg.rCtrl0 / 4 + j)).getLsbD 2 then .inactive else .active)
          ∧ t.reply = some (s.word (s.cfg.rCtrl0 / 4 + i))
          ∧ sentBytes t.trace = sentBytes s.trace ∧ SameMemory s t
          ∧ t = { s with x := t.x, chan := t.chan, csOut := t.csOut, trace := t.trace, reply := t.reply })
      ∧ (s.cfg.numCs ≤ i → i < s.cfg.maxSlaves → ∀ op ∈ [Instr.csLow i, .csHigh i],
          exec op s = .next { s with reply := some 0#32, log := s.log ++ [.u1, .u2] })

/-- Each of the six pseudo-operations is the register accesses that it expands to, at the expanded offset, whatever the
offset decodes to (R102). CS.LOW and CS.HIGH are a read followed by a write of a word made from its answer (as one step,
log 20). DMA.STOP is the row of any word with bit 0 clear (log 19), where the variant has the engine. -/
def Obligations.PseudoOperationsExpand : Prop :=
  ∀ (s : State) (i : Nat) (w : Word) (op : Instr), s.cfg.Valid →
    (decode s.cfg (rawWrite (offsetWord (s.cfg.rCtrl0 + 4 * i)) w) = .ok op → s.cfg.rCtrl0 + 4 * i < 0x100000000 →
        exec (.setctrl i w) s = exec op s)
      ∧ (decode s.cfg (rawWrite (offsetWord (0x30 + 4 * i)) w) = .ok op → 0x30 + 4 * i < 0x100000000 →
          exec (.setseg i w) s = exec op s)
      ∧ (decode s.cfg (rawWrite 0x80#32 w) = .ok op → exec (.dmaStart w) s = exec op s)
      ∧ (decode s.cfg (rawWrite 0x80#32 w) = .ok op → s.cfg.hasDma = true → exec (.dmaStop w) s = exec op s)
      ∧ (∀ (rd : Instr) (t : State) (v : Word),
          decode s.cfg (rawRead (offsetWord (s.cfg.rCtrl0 + 4 * i))) = .ok rd → s.cfg.rCtrl0 + 4 * i < 0x100000000 →
          exec rd s = .next t → t.reply = some v →
            (decode s.cfg (rawWrite (offsetWord (s.cfg.rCtrl0 + 4 * i)) (v &&& ~~~0x00000004#32)) = .ok op →
                exec (.csLow i) s = exec op t)
              ∧ (decode s.cfg (rawWrite (offsetWord (s.cfg.rCtrl0 + 4 * i)) (v ||| 0x00000004#32)) = .ok op →
                exec (.csHigh i) s = exec op t))

-- DMA registers

/-- R250, R251, R253: the operand registers store the written value masked, the addresses with their base, at any time,
and nothing else changes. -/
def Obligations.DmaOperandWrites : Prop :=
  ∀ (s : State) (v : Word), s.Shape → s.cfg.hasDma = true →
    ∀ p ∈ [(Instr.wr32DmaFlashAddr v, 33, BitVec.ofNat 32 s.cfg.flashBase ||| (v &&& s.cfg.dmaFlashMask)),
        (.wr32DmaDramAddr v, 34, s.cfg.sdramBase ||| (v &&& s.cfg.dmaDramMask)),
        (.wr32DmaLen v, 35, v &&& s.cfg.dmaLenMask)],
      ∃ t, exec p.1 s = .next t ∧ t.word p.2.1 = p.2.2 ∧ SameWordsBut s t [p.2.1] ∧ SameMemory s t
        ∧ t = { s with x := t.x }

/-- The disable write stores the word, clears `dma_status`, zeroes the four operand registers, lowers the line and ends
any transfer, whether or not one was in progress; nothing else changes (R252, R264; the rows that are no `WR32` are
log 17 and log 19). -/
def Obligations.DisableWrite : Prop :=
  ∀ (s : State) (v : Word), s.Shape → s.cfg.hasDma = true → v.getLsbD 0 = false →
    ∀ i ∈ [Instr.wr32DmaCtrl v, .dmaStop v, .wDmactrl v],
      ∃ t, exec i s = .next t
        ∧ t.word 32 = v ∧ t.word 2 = s.word 2 &&& ~~~0x00000800#32
        ∧ (∀ k ∈ [33, 34, 35, 36], t.word k = 0#32) ∧ SameWordsBut s t [2, 32, 33, 34, 35, 36]
        ∧ t.irq = .low ∧ t.dma = none ∧ SameMemory s t ∧ t = { s with x := t.x, irq := t.irq, dma := t.dma }

/-- R254: a start while the enable bit is set and the done-status bit is not is logged and leaves every register, the
line and the transfer unchanged, whatever the written word's other bits are. -/
def Obligations.StartWhileBusyIsRejected : Prop :=
  ∀ (s : State) (v : Word), s.cfg.hasDma = true → v.getLsbD 0 = true →
    (s.word 32).getLsbD 0 = true → (s.word 2).getLsbD 11 = false →
      ∃ t, exec (.wr32DmaCtrl v) s = .next t ∧ t.log = s.log ++ [.ge9] ∧ t = { s with log := t.log }

/-- An accepted start, in each of its forms, stores the word and latches the operands, the direction, the mode and the
initial checksum; it writes no other register, moves nothing and leaves the line (R252, R255, R256; the switch of
D21). The forms that are no `WR32` are rejected like it while a transfer is in progress (R254). That a word's row is
the write that carries it is the model's choice (log 17, log 19). -/
def Obligations.StartForms : Prop :=
  ∀ (s : State) (v : Word), s.Shape → s.cfg.hasDma = true → v.getLsbD 0 = true →
    (((s.word 32).getLsbD 0 = false ∨ (s.word 2).getLsbD 11 = true) →
      ∀ i ∈ [Instr.wr32DmaCtrl v, .dmaStartF2d v, .dmaStartD2f v, .dmaStartCksum v, .wDmactrl v, .dmaStart v],
        ∃ t, exec i s = .next t
          ∧ t.word 32 = v ∧ SameWordsBut s t [32]
          ∧ t.dma = some
              { wdir := v.getLsbD 1, cksum := v.getLsbD 2, faddr := s.word 33, daddr := s.word 34
                rem := s.word 35 + 4#32
                sum := if s.cfg.cksumInit = .zero then 0#32 else s.word 36 }
          ∧ SameMemory s t ∧ t = { s with x := t.x, dma := t.dma })
      ∧ ((s.word 32).getLsbD 0 = true → (s.word 2).getLsbD 11 = false →
        ∀ i ∈ [Instr.dmaStartF2d v, .dmaStartD2f v, .dmaStartCksum v, .wDmactrl v, .dmaStart v],
          exec i s = .next { s with log := s.log ++ [.ge9] })

-- Accesses to the flash window and to channels

/-- In ROM-decode mode a window read returns the bytes of the flash image, little-endian, or 0 without storage, with no
bus traffic, no chip-select change and no register change (R66, R70; the bytes are the model's `romByte`, log 9). -/
def Obligations.RomDecodeRead : Prop :=
  ∀ (s : State) (a : Word) (n i : Nat), n ≤ 4 → DecodedBy s a.toNat n i → s.romd i = true →
    ∃ t v, exec (.frd a n) s = .next t ∧ t.reply = some v
      ∧ (∀ k < n, v.byte k = if s.cfg.storageAttached i then romByte s i (a.toNat - (s.win i).addr + k) else 0#8)
      ∧ v.toNat < 2 ^ (8 * n) ∧ t = { s with reply := t.reply, draws := t.draws }

/-- In User mode a read is `n` raw exchanges of the dummy byte, with no chip-select change, and returns the bytes
received, little-endian (R222, R66, R70; a frame row is the access that reaches the channel, log 18). -/
def Obligations.UserRead : Prop :=
  ∀ (s : State) (i : Nat) (off : Word) (n : Nat) (op : Instr), i < s.cfg.maxSlaves → s.mode i = .user →
    (op ∈ [.fUrd i off n, .fRd3 i off n, .fRd4 i off n]
      ∨ ∃ a, op = .frd a n ∧ DecodedBy s a.toNat n i ∧ s.romd i = false) →
    ∃ t events, exec op s = .next t ∧ t.trace = s.trace ++ events
      ∧ csChanges events = [] ∧ sentBytes events = List.replicate n s.cfg.dummyTx
      ∧ (receivedBytes events).length = n ∧ t.reply = some (leWord (receivedBytes events))
      ∧ t.csOut = s.csOut ∧ t.log = s.log
      ∧ t = { s with trace := t.trace, reply := t.reply, spiReplies := t.spiReplies, draws := t.draws }

/-- A framed read selects the slave, sends the opening bytes and `n` dummy bytes, deselects, and returns the
bytes received for the dummies, little-endian; it is not gated by write-enable (R221, R215, R220); a slave without a
chip-select output has the same bytes and no change of level (R229). That a frame's row is the access that reaches the
channel is the model's choice (log 18). -/
def Obligations.FramedRead : Prop :=
  ∀ (s : State) (i : Nat) (off : Word) (n : Nat) (op : Instr), s.Shape → i < s.cfg.maxSlaves → s.mode i ≠ .user →
    (op ∈ [.fRd3 i off n, .fRd4 i off n, .fUrd i off n]
      ∨ ∃ a, op = .frd a n ∧ DecodedBy s a.toNat n i ∧ s.romd i = false ∧ off = windowOffset s a.toNat i) →
    ∃ t xs, exec op s = .next t
      ∧ t.trace = s.trace ++ (if i < s.cfg.numCs ∧ s.csLevel i ≠ .active then [.cs i .active] else []) ++ xs
          ++ (if i < s.cfg.numCs then [.cs i .inactive] else [])
      ∧ csChanges xs = [] ∧ sentBytes xs = openingBytes s i off ++ List.replicate n s.cfg.dummyTx
      ∧ (receivedBytes xs).length = (openingBytes s i off).length + n
      ∧ t.reply = some (leWord ((receivedBytes xs).drop (openingBytes s i off).length))
      ∧ (i < s.cfg.numCs → t.csLevel i = .inactive) ∧ (∀ j, j ≠ i → t.csLevel j = s.csLevel j)
      ∧ t.csOut.length = s.csOut.length ∧ t.log = s.log ∧ SameMemory s t
      ∧ t = { s with csOut := t.csOut, trace := t.trace, reply := t.reply, spiReplies := t.spiReplies
                     draws := t.draws }

/-- An enabled write in a framed mode selects the slave, sends the opening bytes and the data bytes, lowest
first, and deselects (R226, R215, R224). For a slave without a chip-select output it sends the same bytes with no change
of level: that is what R229 says of the rules as written, and that the model performs it and does not refuse it, as R229
and I14 advise, is the model's choice (log 21). That a frame's row is the access that reaches the channel is the model's
choice too (log 18). -/
def Obligations.FramedWrite : Prop :=
  ∀ (s : State) (i : Nat) (off : Word) (n : Nat) (v : Word) (op : Instr), s.Shape → i < s.cfg.maxSlaves →
    s.mode i ≠ .user → enabledToWrite s i = true →
    (op ∈ [.fWr3 i off n v, .fWr4 i off n v, .fUwr i off n v]
      ∨ ∃ a, op = .fwr a n v ∧ DecodedBy s a.toNat n i ∧ off = windowOffset s a.toNat i) →
    ∃ t xs, exec op s = .next t
      ∧ t.trace = s.trace ++ (if i < s.cfg.numCs ∧ s.csLevel i ≠ .active then [.cs i .active] else []) ++ xs
          ++ (if i < s.cfg.numCs then [.cs i .inactive] else [])
      ∧ csChanges xs = [] ∧ sentBytes xs = openingBytes s i off ++ (List.range n).map v.byte
      ∧ (i < s.cfg.numCs → t.csLevel i = .inactive) ∧ (∀ j, j ≠ i → t.csLevel j = s.csLevel j)
      ∧ t.csOut.length = s.csOut.length ∧ t.log = s.log ∧ SameMemory s t
      ∧ t = { s with csOut := t.csOut, trace := t.trace, spiReplies := t.spiReplies, draws := t.draws }

/-- An enabled write in User mode sends the data bytes, lowest first, and nothing else; the offset is not used (R227,
R224; the frame rows are log 18). -/
def Obligations.UserWrite : Prop :=
  ∀ (s : State) (i : Nat) (off : Word) (n : Nat) (v : Word) (op : Instr), i < s.cfg.maxSlaves → s.mode i = .user →
    (enabledToWrite s i = true ∨ s.cfg.weGatesUser = false) →
    (op ∈ [.fUwr i off n v, .fWr3 i off n v, .fWr4 i off n v]
      ∨ ∃ a, op = .fwr a n v ∧ DecodedBy s a.toNat n i) →
    ∃ t events, exec op s = .next t ∧ t.trace = s.trace ++ events
      ∧ csChanges events = [] ∧ sentBytes events = (List.range n).map v.byte
      ∧ t.csOut = s.csOut ∧ t.log = s.log ∧ SameMemory s t
      ∧ t = { s with trace := t.trace, spiReplies := t.spiReplies, draws := t.draws }

/-- A write to a channel whose write-enable bit is clear is logged and sends nothing, in the framed modes and, under the
default switch, in User mode (R225, D18; the frame rows are log 18). -/
def Obligations.WriteWithoutEnableIsRefused : Prop :=
  ∀ (s : State) (i : Nat) (off : Word) (n : Nat) (v : Word) (op : Instr), i < s.cfg.maxSlaves →
    enabledToWrite s i = false → (s.cfg.weGatesUser = true ∨ s.mode i ≠ .user) →
    (op ∈ [.fWr3 i off n v, .fWr4 i off n v, .fUwr i off n v] ∨ ∃ a, op = .fwr a n v ∧ DecodedBy s a.toNat n i) →
    exec op s = .next { s with log := s.log ++ [.ge8] }

/-- A read that goes through a channel still performs its exchanges and returns all-zero data where at most one slave is
selected and the channel has no storage (R228) or the one selected slave has none (R81). A User-mode read selects no
slave itself, so the one selected may be another than its own; a framed read selects its own. That a User-mode read of a
channel without storage answers 0 also while another slave, which has storage, is the one selected, is the model's choice
between R228 and R81 (log 8, DEDUCED and unsafe). The read is a window read of a channel whose ROM-decode flag is clear,
or a frame row (log 18). With several slaves selected the reply is any value (R345, log 8). -/
def Obligations.NoStorageReadsZero : Prop :=
  ∀ (s : State) (i j : Nat) (off : Word) (n : Nat) (op : Instr), s.Shape → i < s.cfg.maxSlaves →
    (∀ k, k ≠ j → s.csLevel k = .inactive) → (s.mode i = .user ∨ j = i) →
    (s.cfg.storageAttached i = false ∨ (s.csLevel j = .active ∧ s.cfg.storageAttached j = false)) →
    (op ∈ [.fRd3 i off n, .fRd4 i off n, .fUrd i off n]
      ∨ ∃ a, op = .frd a n ∧ DecodedBy s a.toNat n i ∧ s.romd i = false ∧ off = windowOffset s a.toNat i) →
    ∃ t events, exec op s = .next t ∧ t.trace = s.trace ++ events
      ∧ sentBytes events = (if s.mode i = .user then [] else openingBytes s i off) ++ List.replicate n s.cfg.dummyTx
      ∧ (∀ b ∈ receivedBytes events, b = 0#8) ∧ t.reply = some 0#32
      ∧ t = { s with csOut := t.csOut, trace := t.trace, reply := t.reply }

/-- At an address in no channel's window a read returns some value of `8n` bits and a write is dropped; the block's state
does not change. Inside the flash window that is a hole (R69(b); the value is free, log 10). That a read or write of the
bus master outside the whole flash window does the same is the model's choice (log 10, DESIGN CHOICE and unsafe): R69(b)
says it of the cursor of a quantum only. -/
def Obligations.HoleAccess : Prop :=
  ∀ (s : State) (a : Word) (n : Nat), n ≤ 4 → s.channelsAt a.toNat = [] →
    (∃ v : Word, v.toNat < 2 ^ (8 * n)
        ∧ exec (.frd a n) s = .next { s with reply := some v, draws := s.draws + 1 })
      ∧ ∀ v, exec (.fwr a n v) s = .next s

/-- Where several windows contain the address, the access is that of one of their channels (R69(a); which one is free,
log 11), and it completes where none of those windows ends inside it. -/
def Obligations.OverlapAccess : Prop :=
  ∀ (s : State) (a : Word) (n : Nat), 2 ≤ (s.channelsAt a.toNat).length → NoStraddle s a.toNat n →
    let s' := { s with draws := s.draws + 1 }
    (∀ v, ∃ i ∈ s.channelsAt a.toNat,
        exec (.fwr a n v) s = .next (chanWrite s' i (windowOffset s a.toNat i) n v))
      ∧ ∃ i ∈ s.channelsAt a.toNat,
        exec (.frd a n) s =
          if s.romd i then .next ((romRead s' i (a.toNat - (s.win i).addr) n).1.answer
              (romRead s' i (a.toNat - (s.win i).addr) n).2)
          else .next ((chanRead s' i (windowOffset s a.toNat i) n).1.answer
              (chanRead s' i (windowOffset s a.toNat i) n).2)

/-- An access to the flash window or to a channel writes no register and no channel state, and does not touch main
memory, the interrupt line, the transfer or the list of presented operations (R210). -/
def Obligations.AccessesWriteNoRegister : Prop :=
  ∀ (s t : State) (i n : Nat) (off v a : Word) (op : Instr), exec op s = .next t →
    (op ∈ [.fWr3 i off n v, .fWr4 i off n v, .fUwr i off n v, .fwr a n v] → AccessOnly s t ∧ SameMemory s t)
      ∧ (op ∈ [.fRd3 i off n, .fRd4 i off n, .fUrd i off n, .frd a n] →
          AccessOnly { s with reply := t.reply } t ∧ SameMemory s t ∧ t.log = s.log)

/-- The bytes of a value, lowest first, assemble back into it, and assembled bytes come apart again (R98, R70). -/
def Obligations.LittleEndianRoundTrip : Prop :=
  (∀ (n : Nat) (v : Word), n ≤ 4 → v.toNat < 2 ^ (8 * n) → leWord (leBytes n v) = v)
    ∧ ∀ bs : List Byte, bs.length ≤ 4 → leBytes bs.length (leWord bs) = bs

-- The quantum

/-- A copy quantum from flash to main memory stores the word read from the flash side at the destination cursor, lowest
byte first, touches no other byte, advances both cursors and republishes the operand registers (R259, R260, R70). Where
the destination is one of the last three addresses, that each byte's address wraps modulo 2^32 is the model's inference
(log 16). -/
def Obligations.QuantumFlashToMemory : Prop :=
  ∀ (s : State) (x : DmaTransfer), s.Shape → s.MemoryWf → s.transfer = some x → (s.word 32).getLsbD 0 = true →
    x.cksum = false → x.wdir = false → NoStraddle s x.faddr.toNat 4 →
    ∃ t s1 w, windowRead s x.faddr.toNat 4 = some (s1, w) ∧ exec .dmaq s = .next t
      ∧ (∀ k < 4, t.dram.readByte (Memory.byteAddr x.daddr k) = w.byte k)
      ∧ (∀ b, ¬ storedAt x.daddr b → t.dram.readByte b = s.dram.readByte b)
      ∧ t.word 33 = x.faddr + 4#32 ∧ t.word 34 = x.daddr + 4#32 ∧ t.word 35 = x.rem - 4#32 ∧ t.word 36 = x.sum
      ∧ SameWordsBut s t ([33, 34, 35, 36] ++ if x.rem = 4#32 then [2] else [])
      ∧ (x.rem ≠ 4#32 → t.irq = s.irq ∧
          t.dma = some { x with faddr := x.faddr + 4#32, daddr := x.daddr + 4#32, rem := x.rem - 4#32 })
      ∧ t = { s1 with x := t.x, irq := t.irq, dma := t.dma, dram := t.dram }

/-- A copy quantum from main memory to flash writes the word at the source cursor through the window, refused or not,
advances both cursors and republishes the operand registers; main memory is unchanged (R259, R261). Where the source
is one of the last three addresses, that each byte's address wraps modulo 2^32 is the model's inference (log 16). -/
def Obligations.QuantumMemoryToFlash : Prop :=
  ∀ (s : State) (x : DmaTransfer), s.Shape → s.transfer = some x → (s.word 32).getLsbD 0 = true →
    x.cksum = false → x.wdir = true → NoStraddle s x.faddr.toNat 4 →
    ∃ t s1, windowWrite s x.faddr.toNat 4 (s.dram.read32 x.daddr) = some s1 ∧ exec .dmaq s = .next t
      ∧ t.word 33 = x.faddr + 4#32 ∧ t.word 34 = x.daddr + 4#32 ∧ t.word 35 = x.rem - 4#32 ∧ t.word 36 = x.sum
      ∧ SameWordsBut s t ([33, 34, 35, 36] ++ if x.rem = 4#32 then [2] else [])
      ∧ (x.rem ≠ 4#32 → t.irq = s.irq ∧
          t.dma = some { x with faddr := x.faddr + 4#32, daddr := x.daddr + 4#32, rem := x.rem - 4#32 })
      ∧ SameMemory s t ∧ t = { s1 with x := t.x, irq := t.irq, dma := t.dma }

/-- A checksum quantum adds the word read from the flash side, modulo 2^32, advances the flash cursor only and
republishes the operand registers; main memory is unchanged, whatever the direction bit is (R259, R263). -/
def Obligations.QuantumChecksum : Prop :=
  ∀ (s : State) (x : DmaTransfer), s.Shape → s.transfer = some x → (s.word 32).getLsbD 0 = true →
    x.cksum = true → NoStraddle s x.faddr.toNat 4 →
    ∃ t s1 w, windowRead s x.faddr.toNat 4 = some (s1, w) ∧ exec .dmaq s = .next t
      ∧ t.word 33 = x.faddr + 4#32 ∧ t.word 34 = x.daddr ∧ t.word 35 = x.rem - 4#32 ∧ t.word 36 = x.sum + w
      ∧ SameWordsBut s t ([33, 34, 35, 36] ++ if x.rem = 4#32 then [2] else [])
      ∧ (x.rem ≠ 4#32 → t.irq = s.irq ∧
          t.dma = some { x with faddr := x.faddr + 4#32, rem := x.rem - 4#32, sum := x.sum + w })
      ∧ SameMemory s t ∧ t = { s1 with x := t.x, irq := t.irq, dma := t.dma }

/-- R262: the quantum that brings the remaining length to 0 sets `dma_status` and no other bit of INTR_CTRL, raises the
line if `dma_en` is set then and leaves it otherwise, and ends the transfer; DMA_CTRL keeps its word, and the operand
registers hold the final cursors, length 0 and the final checksum. -/
def Obligations.Completion : Prop :=
  ∀ (s : State) (x : DmaTransfer), s.Shape → s.transfer = some x → (s.word 32).getLsbD 0 = true → x.rem = 4#32 →
    NoStraddle s x.faddr.toNat 4 →
    ∃ t, exec .dmaq s = .next t ∧ t.word 2 = s.word 2 ||| 0x00000800#32
      ∧ t.irq = (if (s.word 2).getLsbD 3 then .high else s.irq) ∧ t.dma = none
      ∧ t.word 32 = s.word 32 ∧ t.word 33 = x.faddr + 4#32
      ∧ t.word 34 = (if x.cksum then x.daddr else x.daddr + 4#32) ∧ t.word 35 = 0#32
      ∧ (x.cksum = false → t.word 36 = x.sum)
      ∧ (x.cksum = true → ∃ s1 w, windowRead s x.faddr.toNat 4 = some (s1, w) ∧ t.word 36 = x.sum + w)
      ∧ SameWordsBut s t [2, 33, 34, 35, 36]

/-- A quantum that finds the enable bit clear ends the transfer with no completion signal and no other change (R258);
where there is no transfer, or no engine, the model takes no step and nothing changes (log 4, log 29; R267). -/
def Obligations.QuantumWithoutEnable : Prop :=
  ∀ s : State,
    (∀ x, s.transfer = some x → (s.word 32).getLsbD 0 = false → exec .dmaq s = .next { s with dma := none })
      ∧ (s.dma = none ∨ s.cfg.hasDma = false → exec .dmaq s = .next s)

/-- In a run of quanta with nothing else in between, a transfer ends in exactly a quarter as many quanta as it has bytes
left, and after each quantum the operand registers show its progress, the checksum register the sum of the words read so
far in checksum mode (R265, R270, R259, R263; R72 for the aligned flash cursor). -/
def Obligations.TransferRunsToCompletion : Prop :=
  ∀ (s : State) (x : DmaTransfer), s.Inv → s.transfer = some x → (s.word 32).getLsbD 0 = true →
    x.faddr.toNat % 4 = 0 → ∀ q : Nat, 4 * q ≤ x.rem.toNat →
      let daddr := if x.cksum then x.daddr else x.daddr + BitVec.ofNat 32 (4 * q)
      let sum := if x.cksum then x.sum + quantaSum q s else x.sum
      ∃ t, runQuanta q s = some t
        ∧ (4 * q < x.rem.toNat → t.transfer = some
            { x with
              faddr := x.faddr + BitVec.ofNat 32 (4 * q), daddr := daddr, rem := x.rem - BitVec.ofNat 32 (4 * q)
              sum := sum })
        ∧ (0 < q → t.word 33 = x.faddr + BitVec.ofNat 32 (4 * q) ∧ t.word 34 = daddr
            ∧ t.word 35 = x.rem - BitVec.ofNat 32 (4 * q) ∧ t.word 36 = sum)
        ∧ (4 * q = x.rem.toNat → t.dma = none ∧ (t.word 2).getLsbD 11 = true ∧ t.word 35 = 0#32)

-- Rules of the whole machine

/-- The interrupt line rises only at a completion with `dma_en` set, and falls only at a disable write or at reset, for
every operation of the spec on a slave of the variant (R305, R308, R309). -/
def Obligations.InterruptLineChangesOnlyAtItsEvents : Prop :=
  ∀ (i : Instr) (s t : State), s.Shape → i.wf s.cfg = true →
    (∀ j w, i ∈ [.setctrl j w, .csLow j, .csHigh j] → j < s.cfg.maxSlaves) → exec i s = .next t →
    (s.irq = .low → t.irq = .high →
        i = .dmaq ∧ (∃ x, s.transfer = some x ∧ x.rem = 4#32) ∧ (s.word 2).getLsbD 3 = true
          ∧ (t.word 2).getLsbD 11 = true ∧ t.dma = none)
      ∧ (s.irq = .high → t.irq = .low →
          (i = .reset ∨ ∃ w, w.getLsbD 0 = false ∧ i ∈ [.wr32DmaCtrl w, .dmaStop w, .wDmactrl w])
            ∧ (t.word 2).getLsbD 11 = false ∧ t.dma = none)

/-- No operation changes the configuration, the list of presented operations or the listed flash images, and the log
and the bus history only grow (R20, R15, R81; the last four are the model's fields, log 1, log 9, log 23, log 24). -/
def Obligations.ConfigurationIsFixed : Prop :=
  ∀ (i : Instr) (s t : State), exec i s = .next t →
    t.cfg = s.cfg ∧ t.pending = s.pending ∧ t.flashImage = s.flashImage ∧ s.log <+: t.log ∧ s.trace <+: t.trace

/-- Every step keeps the sizes of the register file, the channel table and the output bank, and a valid configuration
(R20, R21). -/
def Obligations.ShapeIsKept : Prop := ∀ s t : State, s.Shape → step s = .next t → t.Shape

/-- Every step keeps every window equal to what its segment register encodes (R37). -/
def Obligations.WindowsMatchIsKept : Prop :=
  ∀ s t : State, s.Shape → s.WindowsMatch → step s = .next t → t.WindowsMatch

/-- Every step keeps each ROM-decode flag clear exactly for a slave in User mode (R38). -/
def Obligations.RomdMatchesIsKept : Prop :=
  ∀ s t : State, s.Shape → s.RomdMatches → step s = .next t → t.RomdMatches

/-- Every step keeps every window inside the flash window and in units of 8 MB, channel 0 at the base, and a fixed last
end where it was (R192, R36). -/
def Obligations.WindowsStayInside : Prop :=
  ∀ s t : State, s.Shape → s.WindowsInside → step s = .next t → t.WindowsInside

/-- Every step keeps every word outside the categories at 0 (R21, R35). -/
def Obligations.UnnamedWordsStayZero : Prop :=
  ∀ s t : State, s.Shape → s.UnnamedZero → step s = .next t → t.UnnamedZero

/-- Every step keeps the length field a multiple of 4 with room for 4 more, and the remaining length of a transfer a
non-zero multiple of 4 (R9, R32, R40). -/
def Obligations.LengthsStaySound : Prop :=
  ∀ s t : State, s.Shape → s.LengthsSound → step s = .next t → t.LengthsSound

/-- Without the engine no step starts a transfer or raises the line (R267). -/
def Obligations.QuietWithoutTheEngine : Prop :=
  ∀ s t : State, s.QuietWithoutDma → step s = .next t → t.QuietWithoutDma

/-- Every step keeps main memory in its canonical form (the model's form; its bytes are R60's). -/
def Obligations.MemoryStaysCanonical : Prop := ∀ s t : State, s.MemoryWf → step s = .next t → t.MemoryWf
end

