-- ==== Sys2Proof/Laws/State.lean ====
section
/-! SUPPORT. The small lemmas of State's updates: what each field is after each update, so that no proof unfolds one. -/

namespace Sys2Proof.Machine

@[simp] theorem State.setWord_cfg (s : State) (k : Nat) (v : Word) : (s.setWord k v).cfg = s.cfg := rfl
@[simp] theorem State.setWord_chan (s : State) (k : Nat) (v : Word) : (s.setWord k v).chan = s.chan := rfl
@[simp] theorem State.setWord_csOut (s : State) (k : Nat) (v : Word) : (s.setWord k v).csOut = s.csOut := rfl
@[simp] theorem State.setWord_irq (s : State) (k : Nat) (v : Word) : (s.setWord k v).irq = s.irq := rfl
@[simp] theorem State.setWord_dma (s : State) (k : Nat) (v : Word) : (s.setWord k v).dma = s.dma := rfl
@[simp] theorem State.setWord_dram (s : State) (k : Nat) (v : Word) : (s.setWord k v).dram = s.dram := rfl
@[simp] theorem State.setWord_pending (s : State) (k : Nat) (v : Word) : (s.setWord k v).pending = s.pending := rfl
@[simp] theorem State.setWord_reply (s : State) (k : Nat) (v : Word) : (s.setWord k v).reply = s.reply := rfl
@[simp] theorem State.setWord_trace (s : State) (k : Nat) (v : Word) : (s.setWord k v).trace = s.trace := rfl
@[simp] theorem State.setWord_log (s : State) (k : Nat) (v : Word) : (s.setWord k v).log = s.log := rfl
@[simp] theorem State.setWord_draws (s : State) (k : Nat) (v : Word) : (s.setWord k v).draws = s.draws := rfl
@[simp] theorem State.setWord_spiReplies (s : State) (k : Nat) (v : Word) : (s.setWord k v).spiReplies = s.spiReplies := rfl
@[simp] theorem State.setWord_flashImage (s : State) (k : Nat) (v : Word) : (s.setWord k v).flashImage = s.flashImage := rfl

@[simp] theorem State.setWin_cfg (s : State) (i : Nat) (w : Window) : (s.setWin i w).cfg = s.cfg := rfl
@[simp] theorem State.setWin_x (s : State) (i : Nat) (w : Window) : (s.setWin i w).x = s.x := rfl
@[simp] theorem State.setWin_csOut (s : State) (i : Nat) (w : Window) : (s.setWin i w).csOut = s.csOut := rfl
@[simp] theorem State.setWin_irq (s : State) (i : Nat) (w : Window) : (s.setWin i w).irq = s.irq := rfl
@[simp] theorem State.setWin_dma (s : State) (i : Nat) (w : Window) : (s.setWin i w).dma = s.dma := rfl
@[simp] theorem State.setWin_dram (s : State) (i : Nat) (w : Window) : (s.setWin i w).dram = s.dram := rfl
@[simp] theorem State.setWin_pending (s : State) (i : Nat) (w : Window) : (s.setWin i w).pending = s.pending := rfl
@[simp] theorem State.setWin_reply (s : State) (i : Nat) (w : Window) : (s.setWin i w).reply = s.reply := rfl
@[simp] theorem State.setWin_trace (s : State) (i : Nat) (w : Window) : (s.setWin i w).trace = s.trace := rfl
@[simp] theorem State.setWin_log (s : State) (i : Nat) (w : Window) : (s.setWin i w).log = s.log := rfl
@[simp] theorem State.setWin_draws (s : State) (i : Nat) (w : Window) : (s.setWin i w).draws = s.draws := rfl
@[simp] theorem State.setWin_spiReplies (s : State) (i : Nat) (w : Window) : (s.setWin i w).spiReplies = s.spiReplies := rfl
@[simp] theorem State.setWin_flashImage (s : State) (i : Nat) (w : Window) : (s.setWin i w).flashImage = s.flashImage := rfl

@[simp] theorem State.setRomd_cfg (s : State) (i : Nat) (b : Bool) : (s.setRomd i b).cfg = s.cfg := rfl
@[simp] theorem State.setRomd_x (s : State) (i : Nat) (b : Bool) : (s.setRomd i b).x = s.x := rfl
@[simp] theorem State.setRomd_csOut (s : State) (i : Nat) (b : Bool) : (s.setRomd i b).csOut = s.csOut := rfl
@[simp] theorem State.setRomd_irq (s : State) (i : Nat) (b : Bool) : (s.setRomd i b).irq = s.irq := rfl
@[simp] theorem State.setRomd_dma (s : State) (i : Nat) (b : Bool) : (s.setRomd i b).dma = s.dma := rfl
@[simp] theorem State.setRomd_dram (s : State) (i : Nat) (b : Bool) : (s.setRomd i b).dram = s.dram := rfl
@[simp] theorem State.setRomd_pending (s : State) (i : Nat) (b : Bool) : (s.setRomd i b).pending = s.pending := rfl
@[simp] theorem State.setRomd_reply (s : State) (i : Nat) (b : Bool) : (s.setRomd i b).reply = s.reply := rfl
@[simp] theorem State.setRomd_trace (s : State) (i : Nat) (b : Bool) : (s.setRomd i b).trace = s.trace := rfl
@[simp] theorem State.setRomd_log (s : State) (i : Nat) (b : Bool) : (s.setRomd i b).log = s.log := rfl
@[simp] theorem State.setRomd_draws (s : State) (i : Nat) (b : Bool) : (s.setRomd i b).draws = s.draws := rfl
@[simp] theorem State.setRomd_spiReplies (s : State) (i : Nat) (b : Bool) : (s.setRomd i b).spiReplies = s.spiReplies := rfl
@[simp] theorem State.setRomd_flashImage (s : State) (i : Nat) (b : Bool) : (s.setRomd i b).flashImage = s.flashImage := rfl

@[simp] theorem State.note_cfg (s : State) (codes : List LogCode) : (s.note codes).cfg = s.cfg := rfl
@[simp] theorem State.note_x (s : State) (codes : List LogCode) : (s.note codes).x = s.x := rfl
@[simp] theorem State.note_chan (s : State) (codes : List LogCode) : (s.note codes).chan = s.chan := rfl
@[simp] theorem State.note_csOut (s : State) (codes : List LogCode) : (s.note codes).csOut = s.csOut := rfl
@[simp] theorem State.note_irq (s : State) (codes : List LogCode) : (s.note codes).irq = s.irq := rfl
@[simp] theorem State.note_dma (s : State) (codes : List LogCode) : (s.note codes).dma = s.dma := rfl
@[simp] theorem State.note_dram (s : State) (codes : List LogCode) : (s.note codes).dram = s.dram := rfl
@[simp] theorem State.note_pending (s : State) (codes : List LogCode) : (s.note codes).pending = s.pending := rfl
@[simp] theorem State.note_reply (s : State) (codes : List LogCode) : (s.note codes).reply = s.reply := rfl
@[simp] theorem State.note_trace (s : State) (codes : List LogCode) : (s.note codes).trace = s.trace := rfl
@[simp] theorem State.note_draws (s : State) (codes : List LogCode) : (s.note codes).draws = s.draws := rfl
@[simp] theorem State.note_spiReplies (s : State) (codes : List LogCode) : (s.note codes).spiReplies = s.spiReplies := rfl
@[simp] theorem State.note_flashImage (s : State) (codes : List LogCode) : (s.note codes).flashImage = s.flashImage := rfl

@[simp] theorem State.answer_cfg (s : State) (v : Word) : (s.answer v).cfg = s.cfg := rfl
@[simp] theorem State.answer_x (s : State) (v : Word) : (s.answer v).x = s.x := rfl
@[simp] theorem State.answer_chan (s : State) (v : Word) : (s.answer v).chan = s.chan := rfl
@[simp] theorem State.answer_csOut (s : State) (v : Word) : (s.answer v).csOut = s.csOut := rfl
@[simp] theorem State.answer_irq (s : State) (v : Word) : (s.answer v).irq = s.irq := rfl
@[simp] theorem State.answer_dma (s : State) (v : Word) : (s.answer v).dma = s.dma := rfl
@[simp] theorem State.answer_dram (s : State) (v : Word) : (s.answer v).dram = s.dram := rfl
@[simp] theorem State.answer_pending (s : State) (v : Word) : (s.answer v).pending = s.pending := rfl
@[simp] theorem State.answer_trace (s : State) (v : Word) : (s.answer v).trace = s.trace := rfl
@[simp] theorem State.answer_log (s : State) (v : Word) : (s.answer v).log = s.log := rfl
@[simp] theorem State.answer_draws (s : State) (v : Word) : (s.answer v).draws = s.draws := rfl
@[simp] theorem State.answer_spiReplies (s : State) (v : Word) : (s.answer v).spiReplies = s.spiReplies := rfl
@[simp] theorem State.answer_flashImage (s : State) (v : Word) : (s.answer v).flashImage = s.flashImage := rfl

@[simp] theorem State.driveAll_cfg (s : State) (levels : List Level) : (s.driveAll levels).cfg = s.cfg := rfl
@[simp] theorem State.driveAll_x (s : State) (levels : List Level) : (s.driveAll levels).x = s.x := rfl
@[simp] theorem State.driveAll_chan (s : State) (levels : List Level) : (s.driveAll levels).chan = s.chan := rfl
@[simp] theorem State.driveAll_irq (s : State) (levels : List Level) : (s.driveAll levels).irq = s.irq := rfl
@[simp] theorem State.driveAll_dma (s : State) (levels : List Level) : (s.driveAll levels).dma = s.dma := rfl
@[simp] theorem State.driveAll_dram (s : State) (levels : List Level) : (s.driveAll levels).dram = s.dram := rfl
@[simp] theorem State.driveAll_pending (s : State) (levels : List Level) : (s.driveAll levels).pending = s.pending := rfl
@[simp] theorem State.driveAll_reply (s : State) (levels : List Level) : (s.driveAll levels).reply = s.reply := rfl
@[simp] theorem State.driveAll_log (s : State) (levels : List Level) : (s.driveAll levels).log = s.log := rfl
@[simp] theorem State.driveAll_draws (s : State) (levels : List Level) : (s.driveAll levels).draws = s.draws := rfl
@[simp] theorem State.driveAll_spiReplies (s : State) (levels : List Level) : (s.driveAll levels).spiReplies = s.spiReplies := rfl
@[simp] theorem State.driveAll_flashImage (s : State) (levels : List Level) : (s.driveAll levels).flashImage = s.flashImage := rfl

@[simp] theorem State.refreshCs_cfg (s : State) : (s.refreshCs).cfg = s.cfg := rfl
@[simp] theorem State.refreshCs_x (s : State) : (s.refreshCs).x = s.x := rfl
@[simp] theorem State.refreshCs_chan (s : State) : (s.refreshCs).chan = s.chan := rfl
@[simp] theorem State.refreshCs_irq (s : State) : (s.refreshCs).irq = s.irq := rfl
@[simp] theorem State.refreshCs_dma (s : State) : (s.refreshCs).dma = s.dma := rfl
@[simp] theorem State.refreshCs_dram (s : State) : (s.refreshCs).dram = s.dram := rfl
@[simp] theorem State.refreshCs_pending (s : State) : (s.refreshCs).pending = s.pending := rfl
@[simp] theorem State.refreshCs_reply (s : State) : (s.refreshCs).reply = s.reply := rfl
@[simp] theorem State.refreshCs_log (s : State) : (s.refreshCs).log = s.log := rfl
@[simp] theorem State.refreshCs_draws (s : State) : (s.refreshCs).draws = s.draws := rfl
@[simp] theorem State.refreshCs_spiReplies (s : State) : (s.refreshCs).spiReplies = s.spiReplies := rfl
@[simp] theorem State.refreshCs_flashImage (s : State) : (s.refreshCs).flashImage = s.flashImage := rfl

@[simp] theorem State.setWord_x (s : State) (k : Nat) (v : Word) : (s.setWord k v).x = s.x.set k v := rfl
@[simp] theorem State.note_log (s : State) (codes : List LogCode) : (s.note codes).log = s.log ++ codes := rfl
@[simp] theorem State.answer_reply (s : State) (v : Word) : (s.answer v).reply = some v := rfl
@[simp] theorem State.driveAll_csOut (s : State) (levels : List Level) : (s.driveAll levels).csOut = levels := rfl
@[simp] theorem State.driveAll_trace (s : State) (levels : List Level) :
    (s.driveAll levels).trace = s.trace ++ csEdges s.csOut levels := rfl

@[simp] theorem State.publish_cfg (s : State) (a b c d : Word) : (s.publish a b c d).cfg = s.cfg := rfl
@[simp] theorem State.publish_chan (s : State) (a b c d : Word) : (s.publish a b c d).chan = s.chan := rfl
@[simp] theorem State.publish_csOut (s : State) (a b c d : Word) : (s.publish a b c d).csOut = s.csOut := rfl
@[simp] theorem State.publish_irq (s : State) (a b c d : Word) : (s.publish a b c d).irq = s.irq := rfl
@[simp] theorem State.publish_dma (s : State) (a b c d : Word) : (s.publish a b c d).dma = s.dma := rfl
@[simp] theorem State.publish_dram (s : State) (a b c d : Word) : (s.publish a b c d).dram = s.dram := rfl
@[simp] theorem State.publish_pending (s : State) (a b c d : Word) : (s.publish a b c d).pending = s.pending := rfl
@[simp] theorem State.publish_reply (s : State) (a b c d : Word) : (s.publish a b c d).reply = s.reply := rfl
@[simp] theorem State.publish_trace (s : State) (a b c d : Word) : (s.publish a b c d).trace = s.trace := rfl
@[simp] theorem State.publish_log (s : State) (a b c d : Word) : (s.publish a b c d).log = s.log := rfl
@[simp] theorem State.publish_draws (s : State) (a b c d : Word) : (s.publish a b c d).draws = s.draws := rfl
@[simp] theorem State.publish_spiReplies (s : State) (a b c d : Word) : (s.publish a b c d).spiReplies = s.spiReplies := rfl
@[simp] theorem State.publish_flashImage (s : State) (a b c d : Word) : (s.publish a b c d).flashImage = s.flashImage := rfl

@[simp] theorem dmaStart_cfg (s : State) : (dmaStart s).cfg = s.cfg := rfl
@[simp] theorem dmaStart_x (s : State) : (dmaStart s).x = s.x := rfl
@[simp] theorem dmaStart_chan (s : State) : (dmaStart s).chan = s.chan := rfl
@[simp] theorem dmaStart_csOut (s : State) : (dmaStart s).csOut = s.csOut := rfl
@[simp] theorem dmaStart_irq (s : State) : (dmaStart s).irq = s.irq := rfl
@[simp] theorem dmaStart_dram (s : State) : (dmaStart s).dram = s.dram := rfl
@[simp] theorem dmaStart_pending (s : State) : (dmaStart s).pending = s.pending := rfl
@[simp] theorem dmaStart_reply (s : State) : (dmaStart s).reply = s.reply := rfl
@[simp] theorem dmaStart_trace (s : State) : (dmaStart s).trace = s.trace := rfl
@[simp] theorem dmaStart_log (s : State) : (dmaStart s).log = s.log := rfl
@[simp] theorem dmaStart_draws (s : State) : (dmaStart s).draws = s.draws := rfl
@[simp] theorem dmaStart_spiReplies (s : State) : (dmaStart s).spiReplies = s.spiReplies := rfl
@[simp] theorem dmaStart_flashImage (s : State) : (dmaStart s).flashImage = s.flashImage := rfl
@[simp] theorem dmaStart_dma (s : State) : (dmaStart s).dma = some s.latched := rfl

@[simp] theorem dmaStop_cfg (s : State) : (dmaStop s).cfg = s.cfg := rfl
@[simp] theorem dmaStop_chan (s : State) : (dmaStop s).chan = s.chan := rfl
@[simp] theorem dmaStop_csOut (s : State) : (dmaStop s).csOut = s.csOut := rfl
@[simp] theorem dmaStop_dram (s : State) : (dmaStop s).dram = s.dram := rfl
@[simp] theorem dmaStop_pending (s : State) : (dmaStop s).pending = s.pending := rfl
@[simp] theorem dmaStop_reply (s : State) : (dmaStop s).reply = s.reply := rfl
@[simp] theorem dmaStop_trace (s : State) : (dmaStop s).trace = s.trace := rfl
@[simp] theorem dmaStop_log (s : State) : (dmaStop s).log = s.log := rfl
@[simp] theorem dmaStop_draws (s : State) : (dmaStop s).draws = s.draws := rfl
@[simp] theorem dmaStop_spiReplies (s : State) : (dmaStop s).spiReplies = s.spiReplies := rfl
@[simp] theorem dmaStop_flashImage (s : State) : (dmaStop s).flashImage = s.flashImage := rfl
@[simp] theorem dmaStop_irq (s : State) : (dmaStop s).irq = .low := rfl
@[simp] theorem dmaStop_dma (s : State) : (dmaStop s).dma = none := rfl

@[simp] theorem complete_cfg (s : State) : (complete s).cfg = s.cfg := rfl
@[simp] theorem complete_chan (s : State) : (complete s).chan = s.chan := rfl
@[simp] theorem complete_csOut (s : State) : (complete s).csOut = s.csOut := rfl
@[simp] theorem complete_dram (s : State) : (complete s).dram = s.dram := rfl
@[simp] theorem complete_pending (s : State) : (complete s).pending = s.pending := rfl
@[simp] theorem complete_reply (s : State) : (complete s).reply = s.reply := rfl
@[simp] theorem complete_trace (s : State) : (complete s).trace = s.trace := rfl
@[simp] theorem complete_log (s : State) : (complete s).log = s.log := rfl
@[simp] theorem complete_draws (s : State) : (complete s).draws = s.draws := rfl
@[simp] theorem complete_spiReplies (s : State) : (complete s).spiReplies = s.spiReplies := rfl
@[simp] theorem complete_flashImage (s : State) : (complete s).flashImage = s.flashImage := rfl
@[simp] theorem complete_dma (s : State) : (complete s).dma = none := rfl

@[simp] theorem resetBlock_cfg (s : State) : (resetBlock s).cfg = s.cfg := rfl
@[simp] theorem resetBlock_dram (s : State) : (resetBlock s).dram = s.dram := rfl
@[simp] theorem resetBlock_pending (s : State) : (resetBlock s).pending = s.pending := rfl
@[simp] theorem resetBlock_reply (s : State) : (resetBlock s).reply = s.reply := rfl
@[simp] theorem resetBlock_log (s : State) : (resetBlock s).log = s.log := rfl
@[simp] theorem resetBlock_draws (s : State) : (resetBlock s).draws = s.draws := rfl
@[simp] theorem resetBlock_spiReplies (s : State) : (resetBlock s).spiReplies = s.spiReplies := rfl
@[simp] theorem resetBlock_flashImage (s : State) : (resetBlock s).flashImage = s.flashImage := rfl
@[simp] theorem resetBlock_x (s : State) : (resetBlock s).x = resetRegs s.cfg := rfl
@[simp] theorem resetBlock_chan (s : State) :
    (resetBlock s).chan = (List.range s.cfg.maxSlaves).map (fun i => ⟨s.cfg.defaultSeg i, true⟩) := rfl
@[simp] theorem resetBlock_csOut (s : State) : (resetBlock s).csOut = List.replicate s.cfg.numCs .inactive := rfl
@[simp] theorem resetBlock_irq (s : State) : (resetBlock s).irq = .low := rfl
@[simp] theorem resetBlock_dma (s : State) : (resetBlock s).dma = none := rfl

@[simp] theorem State.win_setWord (s : State) (k : Nat) (v : Word) (j : Nat) : (s.setWord k v).win j = s.win j := rfl
@[simp] theorem State.romd_setWord (s : State) (k : Nat) (v : Word) (j : Nat) : (s.setWord k v).romd j = s.romd j := rfl
@[simp] theorem State.word_setWin (s : State) (i : Nat) (w : Window) (j : Nat) : (s.setWin i w).word j = s.word j := rfl
@[simp] theorem State.word_setRomd (s : State) (i : Nat) (b : Bool) (j : Nat) : (s.setRomd i b).word j = s.word j := rfl
@[simp] theorem State.word_note (s : State) (codes : List LogCode) (j : Nat) : (s.note codes).word j = s.word j := rfl
@[simp] theorem State.win_note (s : State) (codes : List LogCode) (j : Nat) : (s.note codes).win j = s.win j := rfl
@[simp] theorem State.romd_note (s : State) (codes : List LogCode) (j : Nat) : (s.note codes).romd j = s.romd j := rfl
@[simp] theorem State.word_answer (s : State) (v : Word) (j : Nat) : (s.answer v).word j = s.word j := rfl
@[simp] theorem State.win_answer (s : State) (v : Word) (j : Nat) : (s.answer v).win j = s.win j := rfl
@[simp] theorem State.romd_answer (s : State) (v : Word) (j : Nat) : (s.answer v).romd j = s.romd j := rfl
@[simp] theorem State.word_driveAll (s : State) (levels : List Level) (j : Nat) : (s.driveAll levels).word j = s.word j := rfl
@[simp] theorem State.win_driveAll (s : State) (levels : List Level) (j : Nat) : (s.driveAll levels).win j = s.win j := rfl
@[simp] theorem State.romd_driveAll (s : State) (levels : List Level) (j : Nat) : (s.driveAll levels).romd j = s.romd j := rfl
@[simp] theorem State.word_refreshCs (s : State) (j : Nat) : (s.refreshCs).word j = s.word j := rfl
@[simp] theorem State.win_refreshCs (s : State) (j : Nat) : (s.refreshCs).win j = s.win j := rfl
@[simp] theorem State.romd_refreshCs (s : State) (j : Nat) : (s.refreshCs).romd j = s.romd j := rfl

/-- Reading a word after writing one: the written word where it is in range, the old one elsewhere (R21). -/
theorem State.word_setWord (s : State) (k j : Nat) (v : Word) :
    (s.setWord k v).word j = if k = j ∧ k < s.x.length then v else s.word j := by
  simp only [State.word, State.setWord, List.getD_eq_getElem?_getD, List.getElem?_set]
  by_cases h : k = j
  · subst h
    by_cases hk : k < s.x.length <;> simp [hk]
  · simp [h]

/-- The written word, in range, reads back. -/
theorem State.word_setWord_self (s : State) (k : Nat) (v : Word) (h : k < s.x.length) :
    (s.setWord k v).word k = v := by
  simp [State.word_setWord, h]

/-- Every other word is as before. -/
theorem State.word_setWord_ne (s : State) (k j : Nat) (v : Word) (h : k ≠ j) : (s.setWord k v).word j = s.word j := by
  simp [State.word_setWord, h]

/-- The register file keeps its size (R20). -/
@[simp] theorem State.setWord_length (s : State) (k : Nat) (v : Word) : (s.setWord k v).x.length = s.x.length := by
  simp

/-- The windows after one is moved. -/
theorem State.win_setWin (s : State) (i j : Nat) (w : Window) :
    (s.setWin i w).win j = if i = j ∧ i < s.chan.length then w else s.win j := by
  simp only [State.win, State.setWin, List.getD_eq_getElem?_getD, List.getElem?_modify]
  by_cases h : i = j
  · subst h
    by_cases hk : i < s.chan.length <;> simp [hk]
  · simp [h]

/-- Moving a window changes no ROM-decode flag. -/
@[simp] theorem State.romd_setWin (s : State) (i j : Nat) (w : Window) : (s.setWin i w).romd j = s.romd j := by
  simp only [State.romd, State.setWin, List.getD_eq_getElem?_getD, List.getElem?_modify]
  by_cases h : i = j
  · subst h
    by_cases hk : i < s.chan.length <;> simp [hk]
  · simp [h]

/-- The ROM-decode flags after one is written. -/
theorem State.romd_setRomd (s : State) (i j : Nat) (b : Bool) :
    (s.setRomd i b).romd j = if i = j ∧ i < s.chan.length then b else s.romd j := by
  simp only [State.romd, State.setRomd, List.getD_eq_getElem?_getD, List.getElem?_modify]
  by_cases h : i = j
  · subst h
    by_cases hk : i < s.chan.length <;> simp [hk]
  · simp [h]

/-- Writing a ROM-decode flag moves no window. -/
@[simp] theorem State.win_setRomd (s : State) (i j : Nat) (b : Bool) : (s.setRomd i b).win j = s.win j := by
  simp only [State.win, State.setRomd, List.getD_eq_getElem?_getD, List.getElem?_modify]
  by_cases h : i = j
  · subst h
    by_cases hk : i < s.chan.length <;> simp [hk]
  · simp [h]

/-- The channel table keeps its size. -/
@[simp] theorem State.setWin_chan_length (s : State) (i : Nat) (w : Window) :
    (s.setWin i w).chan.length = s.chan.length := by
  simp [State.setWin]

/-- The channel table keeps its size. -/
@[simp] theorem State.setRomd_chan_length (s : State) (i : Nat) (b : Bool) :
    (s.setRomd i b).chan.length = s.chan.length := by
  simp [State.setRomd]

/-- A refresh leaves one level per configured slave (R164). -/
@[simp] theorem State.refreshCs_csOut (s : State) :
    s.refreshCs.csOut = (List.range s.cfg.numCs).map s.ceLevel := rfl

/-- The four operand registers hold the published values, every other word its own (R259). -/
theorem State.word_publish (s : State) (a b c d : Word) (j : Nat) (h : 37 ≤ s.x.length) :
    (s.publish a b c d).word j
      = if j = idxDmaFlashAddr then a else if j = idxDmaDramAddr then b else if j = idxDmaLen then c
        else if j = idxDmaChecksum then d else s.word j := by
  simp only [State.publish, State.word_setWord, State.setWord_length, idxDmaFlashAddr, idxDmaDramAddr, idxDmaLen,
    idxDmaChecksum]
  by_cases h1 : j = 33
  · subst h1; simp; omega
  · by_cases h2 : j = 34
    · subst h2; simp; omega
    · by_cases h3 : j = 35
      · subst h3; simp; omega
      · by_cases h4 : j = 36
        · subst h4; simp; omega
        · simp [h1, h2, h3, h4, Ne.symm h1, Ne.symm h2, Ne.symm h3, Ne.symm h4]

/-- Publishing keeps the register file's size. -/
@[simp] theorem State.publish_length (s : State) (a b c d : Word) : (s.publish a b c d).x.length = s.x.length := by
  simp [State.publish]

end Sys2Proof.Machine
end

