-- ==== Sys2Proof/Laws/Access.lean ====
section
/-! SUPPORT. What an access to the flash window can do (`43_flash_framing.md` R210): one lemma per operation of the
serial bus, of a channel and of the window, said once. -/

namespace Sys2Proof.Machine

-- `AccessOnly` and its fields

theorem AccessOnly.refl (s : State) : AccessOnly s s := rfl

theorem AccessOnly.cfg {s t : State} (h : AccessOnly s t) : t.cfg = s.cfg := by rw [h]
theorem AccessOnly.x {s t : State} (h : AccessOnly s t) : t.x = s.x := by rw [h]
theorem AccessOnly.chan {s t : State} (h : AccessOnly s t) : t.chan = s.chan := by rw [h]
theorem AccessOnly.irq {s t : State} (h : AccessOnly s t) : t.irq = s.irq := by rw [h]
theorem AccessOnly.dma {s t : State} (h : AccessOnly s t) : t.dma = s.dma := by rw [h]
theorem AccessOnly.dram {s t : State} (h : AccessOnly s t) : t.dram = s.dram := by rw [h]
theorem AccessOnly.pending {s t : State} (h : AccessOnly s t) : t.pending = s.pending := by rw [h]
theorem AccessOnly.reply {s t : State} (h : AccessOnly s t) : t.reply = s.reply := by rw [h]
theorem AccessOnly.flashImage {s t : State} (h : AccessOnly s t) : t.flashImage = s.flashImage := by rw [h]
theorem AccessOnly.word {s t : State} (h : AccessOnly s t) (k : Nat) : t.word k = s.word k := by
  simp [State.word, h.x]
theorem AccessOnly.win {s t : State} (h : AccessOnly s t) (i : Nat) : t.win i = s.win i := by
  simp [State.win, h.chan]
theorem AccessOnly.romd {s t : State} (h : AccessOnly s t) (i : Nat) : t.romd i = s.romd i := by
  simp [State.romd, h.chan]
theorem AccessOnly.ctrlWord {s t : State} (h : AccessOnly s t) (i : Nat) : t.ctrlWord i = s.ctrlWord i := by
  simp [State.ctrlWord, h.cfg, h.word]
theorem AccessOnly.mode {s t : State} (h : AccessOnly s t) (i : Nat) : t.mode i = s.mode i := by
  simp [State.mode, h.ctrlWord]

theorem AccessOnly.trans {s t u : State} (h : AccessOnly s t) (h' : AccessOnly t u) : AccessOnly s u := by
  obtain ⟨cfg, x, chan, csOut, irq, dma, dram, pending, reply, trace, log, draws, spiReplies, flashImage⟩ := u
  simp only [AccessOnly, State.mk.injEq] at h' ⊢
  simp [h'.1, h.cfg, h'.2.1, h.x, h'.2.2.1, h.chan, h'.2.2.2.2.1, h.irq, h'.2.2.2.2.2.1, h.dma, h'.2.2.2.2.2.2.1, h.dram,
    h'.2.2.2.2.2.2.2.1, h.pending, h'.2.2.2.2.2.2.2.2.1, h.reply, h'.2.2.2.2.2.2.2.2.2.2.2.2.2, h.flashImage]

-- One exchange, and several

/-- An exchange touches only the bus history, the replies and the counter of free values (R12). -/
theorem spiXfer_accessOnly (s : State) (i : Nat) (tx : Byte) : AccessOnly s (spiXfer s i tx).1 := by
  unfold spiXfer; split
  · rfl
  · split <;> rfl

/-- An exchange is recorded with its reply (R81). -/
theorem spiXfer_trace (s : State) (i : Nat) (tx : Byte) :
    (spiXfer s i tx).1.trace = s.trace ++ [.xfer tx (spiXfer s i tx).2] := by
  unfold spiXfer; split
  · rfl
  · split <;> rfl

/-- An exchange changes no chip select. -/
theorem spiXfer_csOut (s : State) (i : Nat) (tx : Byte) : (spiXfer s i tx).1.csOut = s.csOut := by
  unfold spiXfer; split
  · rfl
  · split <;> rfl

/-- An exchange logs nothing. -/
theorem spiXfer_log (s : State) (i : Nat) (tx : Byte) : (spiXfer s i tx).1.log = s.log := by
  unfold spiXfer; split
  · rfl
  · split <;> rfl

-- Where no storage answers

/-- Where no output but `j`'s is active, the selected slave is `j` or none (R211). -/
theorem State.selected_of_only {s : State} {j : Nat} (h : ∀ k, k ≠ j → s.csLevel k = .inactive) :
    s.selected = if s.csLevel j = .active then [j] else [] := by
  have hlt : s.csLevel j = .active → j < s.csOut.length := fun ha => by
    by_contra hge
    simp [State.csLevel, List.getD_eq_getElem?_getD, List.getElem?_eq_none (Nat.le_of_not_lt hge)] at ha
  have hmem : ∀ k, k ∈ s.selected ↔ k = j ∧ s.csLevel j = .active := by
    intro k
    simp only [State.selected, List.mem_filter, List.mem_range, decide_eq_true_eq]
    constructor
    · rintro ⟨-, hk⟩
      by_cases hkj : k = j
      · subst hkj; exact ⟨rfl, hk⟩
      · rw [h k hkj] at hk; cases hk
    · rintro ⟨rfl, hk⟩; exact ⟨hlt hk, hk⟩
  have hnd : s.selected.Nodup := List.nodup_range.filter _
  split
  · rename_i ha
    exact List.perm_singleton.mp ((List.perm_ext_iff_of_nodup hnd (by simp)).mpr (fun k => by simp [hmem, ha]))
  · rename_i ha
    exact List.eq_nil_iff_forall_not_mem.mpr (fun k hk => ha ((hmem k).mp hk).2)

/-- Where no output but `j`'s is active, replies are 0 exactly if the channel or the selected slave lacks storage
(R228, R81). -/
theorem State.repliesZero_of_only {s : State} {i j : Nat} (h : ∀ k, k ≠ j → s.csLevel k = .inactive) :
    s.repliesZero i = true ↔ s.cfg.storageAttached i = false ∨ (s.csLevel j = .active ∧ s.cfg.storageAttached j = false) := by
  unfold State.repliesZero
  rw [State.selected_of_only h]
  by_cases ha : s.csLevel j = .active <;> simp [ha]

/-- Where no storage answers the reply is 0 (R228, R81). -/
theorem spiXfer_zero {s : State} {i : Nat} (tx : Byte) (h : s.repliesZero i = true) : (spiXfer s i tx).2 = 0#8 := by
  simp [spiXfer, h]

/-- An exchange does not change whether replies are 0. -/
theorem spiXfer_repliesZero (s : State) (i k : Nat) (tx : Byte) : (spiXfer s i tx).1.repliesZero k = s.repliesZero k := by
  have hsel : (spiXfer s i tx).1.selected = s.selected := by
    unfold State.selected State.csLevel; rw [spiXfer_csOut]
  unfold State.repliesZero
  rw [hsel, (spiXfer_accessOnly s i tx).cfg]

theorem spiXfers_accessOnly (txs : List Byte) (i : Nat) (s : State) : AccessOnly s (spiXfers txs i s).1 := by
  induction txs generalizing s with
  | nil => rfl
  | cons tx txs ih => exact (spiXfer_accessOnly s i tx).trans (ih _)

theorem spiXfers_csOut (txs : List Byte) (i : Nat) (s : State) : (spiXfers txs i s).1.csOut = s.csOut := by
  induction txs generalizing s with
  | nil => rfl
  | cons tx txs ih => simp only [spiXfers]; rw [ih, spiXfer_csOut]

theorem spiXfers_log (txs : List Byte) (i : Nat) (s : State) : (spiXfers txs i s).1.log = s.log := by
  induction txs generalizing s with
  | nil => rfl
  | cons tx txs ih => simp only [spiXfers]; rw [ih, spiXfer_log]

/-- One reply for each byte sent. -/
theorem spiXfers_length (txs : List Byte) (i : Nat) (s : State) : (spiXfers txs i s).2.length = txs.length := by
  induction txs generalizing s with
  | nil => rfl
  | cons tx txs ih => simp only [spiXfers, List.length_cons, ih]

/-- Several exchanges are recorded in order, each with its reply (R81). -/
theorem spiXfers_trace (txs : List Byte) (i : Nat) (s : State) :
    (spiXfers txs i s).1.trace = s.trace ++ List.zipWith .xfer txs (spiXfers txs i s).2 := by
  induction txs generalizing s with
  | nil => simp [spiXfers]
  | cons tx txs ih => simp only [spiXfers]; rw [ih, spiXfer_trace]; simp

/-- Where no storage answers every reply is 0 (R228, R81). -/
theorem spiXfers_zero {s : State} {i : Nat} (txs : List Byte) (h : s.repliesZero i = true) :
    (spiXfers txs i s).2 = List.replicate txs.length 0#8 := by
  induction txs generalizing s with
  | nil => rfl
  | cons tx txs ih =>
    simp only [spiXfers, List.length_cons, List.replicate_succ, List.cons.injEq]
    exact ⟨spiXfer_zero tx h, ih (by rw [spiXfer_repliesZero]; exact h)⟩

/-- Where no storage answers, exchanges only add to the history: no reply is drawn or taken from the input. -/
theorem spiXfers_zero_frame {s : State} {i : Nat} (txs : List Byte) (h : s.repliesZero i = true) :
    (spiXfers txs i s).1 = { s with trace := (spiXfers txs i s).1.trace } := by
  induction txs generalizing s with
  | nil => rfl
  | cons tx txs ih =>
    simp only [spiXfers]
    rw [ih (by rw [spiXfer_repliesZero]; exact h), show (spiXfer s i tx).1 = { s with trace := s.trace ++ [.xfer tx 0#8] }
      by simp [spiXfer, h]]

theorem spiXfers_history (txs : List Byte) (i : Nat) (s : State) : s.trace <+: (spiXfers txs i s).1.trace := by
  rw [spiXfers_trace]; exact List.prefix_append _ _

-- The chip select of a frame

theorem State.drive_accessOnly (s : State) (i : Nat) (l : Level) : AccessOnly s (s.drive i l) := by
  unfold State.drive; split <;> rfl

theorem State.drive_log (s : State) (i : Nat) (l : Level) : (s.drive i l).log = s.log := by
  unfold State.drive; split <;> rfl

theorem State.drive_draws (s : State) (i : Nat) (l : Level) : (s.drive i l).draws = s.draws := by
  unfold State.drive; split <;> rfl

theorem State.drive_spiReplies (s : State) (i : Nat) (l : Level) : (s.drive i l).spiReplies = s.spiReplies := by
  unfold State.drive; split <;> rfl

theorem State.drive_csOut_length (s : State) (i : Nat) (l : Level) : (s.drive i l).csOut.length = s.csOut.length := by
  unfold State.drive; split <;> simp

/-- A change of level is recorded, and only a change (R214, R218, R229). -/
theorem State.drive_trace (s : State) (i : Nat) (l : Level) :
    (s.drive i l).trace = s.trace ++ if i < s.cfg.numCs ∧ s.csLevel i ≠ l then [.cs i l] else [] := by
  unfold State.drive; split <;> simp

/-- A driven output has its level, and every other its own (R214, R218). -/
theorem State.drive_csLevel (s : State) (i j : Nat) (l : Level) (h : s.csOut.length = s.cfg.numCs) :
    (s.drive i l).csLevel j = if i = j ∧ i < s.cfg.numCs then l else s.csLevel j := by
  unfold State.drive
  by_cases hd : i < s.cfg.numCs ∧ s.csLevel i ≠ l
  · rw [if_pos hd]
    simp only [State.csLevel, List.getD_eq_getElem?_getD, List.getElem?_set]
    by_cases hij : i = j
    · subst hij; simp [h, hd.1]
    · simp [hij]
  · rw [if_neg hd]
    split
    · rename_i h2; obtain ⟨rfl, h3⟩ := h2
      by_contra hne; exact hd ⟨h3, hne⟩
    · rfl

theorem State.drive_history (s : State) (i : Nat) (l : Level) : s.trace <+: (s.drive i l).trace := by
  rw [State.drive_trace]; exact List.prefix_append _ _

-- A frame, and a channel

theorem framed_accessOnly (s : State) (i : Nat) (off : Word) (data : List Byte) :
    AccessOnly s (framed s i off data).1 :=
  (((s.drive_accessOnly i _).trans (spiXfers_accessOnly _ i _)).trans (spiXfers_accessOnly _ i _)).trans
    (State.drive_accessOnly _ i _)

theorem framed_log (s : State) (i : Nat) (off : Word) (data : List Byte) : (framed s i off data).1.log = s.log := by
  simp only [framed, State.drive_log, spiXfers_log]

theorem framed_csOut_length (s : State) (i : Nat) (off : Word) (data : List Byte) :
    (framed s i off data).1.csOut.length = s.csOut.length := by
  simp only [framed, State.drive_csOut_length, spiXfers_csOut]

theorem framed_history (s : State) (i : Nat) (off : Word) (data : List Byte) :
    s.trace <+: (framed s i off data).1.trace :=
  (((s.drive_history i _).trans (spiXfers_history _ i _)).trans (spiXfers_history _ i _)).trans
    (State.drive_history _ i _)

/-- One reply for each data byte. -/
theorem framed_length (s : State) (i : Nat) (off : Word) (data : List Byte) :
    (framed s i off data).2.length = data.length := by
  simp only [framed, spiXfers_length]

/-- What a frame leaves on the bus: the select, the opening bytes, the data bytes, the deselect (R99). -/
theorem framed_trace (s : State) (i : Nat) (off : Word) (data : List Byte) (h : s.csOut.length = s.cfg.numCs) :
    ∃ opening, opening.length = (s.frameSetup i off).length ∧
      (framed s i off data).1.trace = s.trace
        ++ (if i < s.cfg.numCs ∧ s.csLevel i ≠ .active then [.cs i .active] else [])
        ++ List.zipWith .xfer (s.frameSetup i off) opening
        ++ List.zipWith .xfer data (framed s i off data).2
        ++ (if i < s.cfg.numCs then [.cs i .inactive] else []) := by
  refine ⟨_, spiXfers_length (s.frameSetup i off) i (s.drive i .active), ?_⟩
  have hc : ∀ t : State, AccessOnly (s.drive i .active) t → t.csOut = (s.drive i .active).csOut →
      (i < t.cfg.numCs ∧ t.csLevel i ≠ .inactive ↔ i < s.cfg.numCs) := by
    intro t ht hcs
    rw [ht.cfg, (s.drive_accessOnly i _).cfg]
    have hl : t.csLevel i = (s.drive i .active).csLevel i := by simp [State.csLevel, hcs]
    rw [hl, State.drive_csLevel _ _ _ _ h]
    by_cases hi : i < s.cfg.numCs <;> simp [hi]
  have ha := (spiXfers_accessOnly (s.frameSetup i off) i (s.drive i .active)).trans
    (spiXfers_accessOnly data i (spiXfers (s.frameSetup i off) i (s.drive i .active)).1)
  simp only [framed, State.drive_trace, spiXfers_trace]
  rw [if_congr (hc _ ha (by rw [spiXfers_csOut, spiXfers_csOut])) rfl rfl]

/-- The outputs after a frame: the channel's own inactive, every other as it was (R218). -/
theorem framed_csLevel (s : State) (i j : Nat) (off : Word) (data : List Byte) (h : s.csOut.length = s.cfg.numCs) :
    (framed s i off data).1.csLevel j = if i = j ∧ i < s.cfg.numCs then .inactive else s.csLevel j := by
  have hx : ∀ (txs : List Byte) (u : State), (spiXfers txs i u).1.csOut = u.csOut := fun txs u => spiXfers_csOut txs i u
  have hc : ∀ (txs : List Byte) (u : State), (spiXfers txs i u).1.cfg = u.cfg :=
    fun txs u => (spiXfers_accessOnly txs i u).cfg
  simp only [framed]
  rw [State.drive_csLevel _ _ _ _ (by rw [hx, hx, State.drive_csOut_length, hc, hc, (s.drive_accessOnly i _).cfg, h])]
  rw [hc, hc, (s.drive_accessOnly i _).cfg]
  split
  · rfl
  · rename_i hne
    have hl : ∀ (txs : List Byte) (u : State), (spiXfers txs i u).1.csLevel j = u.csLevel j := by
      intro txs u; simp only [State.csLevel, hx]
    rw [hl, hl, State.drive_csLevel _ _ _ _ h, if_neg hne]

/-- Read accesses change what accesses change (R210). -/
theorem chanRead_accessOnly (s : State) (i : Nat) (off : Word) (n : Nat) : AccessOnly s (chanRead s i off n).1 := by
  simp only [chanRead]
  split
  · exact spiXfers_accessOnly _ i s
  · exact framed_accessOnly s i off _

theorem chanRead_log (s : State) (i : Nat) (off : Word) (n : Nat) : (chanRead s i off n).1.log = s.log := by
  simp only [chanRead]
  split
  · exact spiXfers_log _ i s
  · exact framed_log s i off _

theorem chanRead_csOut_length (s : State) (i : Nat) (off : Word) (n : Nat) :
    (chanRead s i off n).1.csOut.length = s.csOut.length := by
  simp only [chanRead]
  split
  · rw [spiXfers_csOut]
  · exact framed_csOut_length s i off _

theorem chanRead_history (s : State) (i : Nat) (off : Word) (n : Nat) : s.trace <+: (chanRead s i off n).1.trace := by
  simp only [chanRead]
  split
  · exact spiXfers_history _ i s
  · exact framed_history s i off _

/-- Write accesses change what accesses change (R210). -/
theorem chanWrite_accessOnly (s : State) (i : Nat) (off : Word) (n : Nat) (v : Word) :
    AccessOnly s (chanWrite s i off n v) := by
  unfold chanWrite
  split
  · rfl
  · split
    · exact spiXfers_accessOnly _ i s
    · exact framed_accessOnly s i off _

theorem chanWrite_csOut_length (s : State) (i : Nat) (off : Word) (n : Nat) (v : Word) :
    (chanWrite s i off n v).csOut.length = s.csOut.length := by
  unfold chanWrite
  split
  · rfl
  · split
    · rw [spiXfers_csOut]
    · exact framed_csOut_length s i off _

theorem chanWrite_history (s : State) (i : Nat) (off : Word) (n : Nat) (v : Word) :
    s.trace <+: (chanWrite s i off n v).trace := by
  unfold chanWrite
  split
  · exact List.prefix_rfl
  · split
    · exact spiXfers_history _ i s
    · exact framed_history s i off _

/-- A write access logs at most GE8 (R225). -/
theorem chanWrite_log (s : State) (i : Nat) (off : Word) (n : Nat) (v : Word) :
    (chanWrite s i off n v).log = if s.writeRefused i then s.log ++ [.ge8] else s.log := by
  unfold chanWrite
  split
  · rfl
  · split
    · exact spiXfers_log _ i s
    · exact framed_log s i off _

-- The window

theorem chanOf_accessOnly (s : State) (a : Nat) : AccessOnly s (chanOf s a).1 := by
  unfold chanOf; split <;> rfl

theorem chanOf_csOut (s : State) (a : Nat) : (chanOf s a).1.csOut = s.csOut := by
  unfold chanOf; split <;> rfl

theorem chanOf_log (s : State) (a : Nat) : (chanOf s a).1.log = s.log := by
  unfold chanOf; split <;> rfl

theorem chanOf_trace (s : State) (a : Nat) : (chanOf s a).1.trace = s.trace := by
  unfold chanOf; split <;> rfl

/-- The channel that decodes an address contains it (R63, R69). -/
theorem chanOf_mem {s : State} {a i : Nat} (h : (chanOf s a).2 = some i) : i ∈ s.channelsAt a := by
  unfold chanOf at h
  split at h
  · simp at h
  · rename_i j hj; simp only [Option.some.injEq] at h; simp [hj, h]
  · exact List.mem_of_getElem? h

/-- A channel decodes an address exactly if a window contains it (R69(b)). -/
theorem chanOf_none (s : State) (a : Nat) : (chanOf s a).2 = none ↔ s.channelsAt a = [] := by
  unfold chanOf
  split
  · rename_i h; simp [h]
  · rename_i h; simp [h]
  · rename_i h _
    have hpos : 0 < (s.channelsAt a).length := List.length_pos_iff.mpr h
    have hlt := Nat.mod_lt (Config.freeChannelPick s.draws s.trace a) hpos
    simp only [List.getElem?_eq_none_iff, show ¬ s.channelsAt a = [] from h, iff_false]
    omega

/-- What containing an address means (R62). -/
theorem mem_channelsAt {s : State} {a i : Nat} :
    i ∈ s.channelsAt a ↔ i < s.cfg.maxSlaves ∧ (s.win i).addr ≤ a ∧ a < (s.win i).addr + (s.win i).size := by
  simp [State.channelsAt, Window.holds]

theorem romRead_accessOnly (s : State) (i off n : Nat) : AccessOnly s (romRead s i off n).1 := by
  unfold romRead; split <;> rfl

theorem romRead_csOut (s : State) (i off n : Nat) : (romRead s i off n).1.csOut = s.csOut := by
  unfold romRead; split <;> rfl

theorem romRead_trace (s : State) (i off n : Nat) : (romRead s i off n).1.trace = s.trace := by
  unfold romRead; split <;> rfl

theorem romRead_log (s : State) (i off n : Nat) : (romRead s i off n).1.log = s.log := by
  unfold romRead; split <;> rfl

/-- What a window read can do (R66, R69): an access that keeps the log and the number of outputs. -/
theorem windowRead_spec {s t : State} {a n : Nat} {v : Word} (h : windowRead s a n = some (t, v)) :
    AccessOnly s t ∧ t.csOut.length = s.csOut.length ∧ s.trace <+: t.trace ∧ t.log = s.log := by
  unfold windowRead at h
  have h1 := chanOf_accessOnly s a
  have h2 := chanOf_csOut s a
  have h3 := chanOf_log s a
  have ht := chanOf_trace s a
  rcases hco : chanOf s a with ⟨u, _ | i⟩ <;> simp only [hco] at h h1 h2 h3 ht
  · simp only [Option.some.injEq, Prod.mk.injEq] at h
    obtain ⟨rfl, -⟩ := h
    exact ⟨h1.trans (by rfl), by simp [h2], by simp [ht], by simp [h3]⟩
  · split at h
    · simp only [Option.some.injEq] at h
      split at h
      · have := romRead_accessOnly u i (a - (u.win i).addr) n
        have h4 := romRead_csOut u i (a - (u.win i).addr) n
        have h5 := romRead_log u i (a - (u.win i).addr) n
        have h6 := romRead_trace u i (a - (u.win i).addr) n
        rw [h] at this h4 h5 h6
        exact ⟨h1.trans this, by rw [h4, h2], by rw [h6, ht], by rw [h5, h3]⟩
      · have := chanRead_accessOnly u i (BitVec.ofNat 32 (a - (u.win i).addr)) n
        have h4 := chanRead_csOut_length u i (BitVec.ofNat 32 (a - (u.win i).addr)) n
        have h5 := chanRead_log u i (BitVec.ofNat 32 (a - (u.win i).addr)) n
        have h6 := chanRead_history u i (BitVec.ofNat 32 (a - (u.win i).addr)) n
        rw [h] at this h4 h5 h6
        exact ⟨h1.trans this, by rw [h4, h2], by rw [← ht]; exact h6, by rw [h5, h3]⟩
    · simp at h

/-- What a window write can do (R67, R69): an access that keeps the number of outputs and logs at most GE8. -/
theorem windowWrite_spec {s t : State} {a n : Nat} {v : Word} (h : windowWrite s a n v = some t) :
    AccessOnly s t ∧ t.csOut.length = s.csOut.length ∧ s.trace <+: t.trace ∧ (t.log = s.log ∨ t.log = s.log ++ [.ge8]) := by
  unfold windowWrite at h
  have h1 := chanOf_accessOnly s a
  have h2 := chanOf_csOut s a
  have h3 := chanOf_log s a
  have ht := chanOf_trace s a
  rcases hco : chanOf s a with ⟨u, _ | i⟩ <;> simp only [hco] at h h1 h2 h3 ht
  · simp only [Option.some.injEq] at h
    obtain rfl := h
    exact ⟨h1, by rw [h2], by rw [ht], .inl h3⟩
  · split at h
    · simp only [Option.some.injEq] at h
      obtain rfl := h
      refine ⟨h1.trans (chanWrite_accessOnly _ _ _ _ _), by rw [chanWrite_csOut_length, h2],
        by rw [← ht]; exact chanWrite_history _ _ _ _ _, ?_⟩
      rw [chanWrite_log, h3]
      split <;> simp
    · simp at h

/-- A window read is declined exactly where the decoding window does not hold the whole access (R65). -/
theorem windowRead_none {s : State} {a n : Nat} (h : windowRead s a n = none) :
    ∃ i ∈ s.channelsAt a, (s.win i).addr + (s.win i).size < a + n := by
  unfold windowRead at h
  have h1 := chanOf_accessOnly s a
  have hm : ∀ i, (chanOf s a).2 = some i → i ∈ s.channelsAt a := fun i => chanOf_mem
  rcases hco : chanOf s a with ⟨u, _ | i⟩ <;> simp only [hco] at h h1 hm
  · simp at h
  · split at h
    · simp at h
    · rename_i hin
      refine ⟨i, hm i rfl, ?_⟩
      simpa [State.insideWindow, h1.win] using hin

/-- A window write is declined exactly where the decoding window does not hold the whole access (R65). -/
theorem windowWrite_none {s : State} {a n : Nat} {v : Word} (h : windowWrite s a n v = none) :
    ∃ i ∈ s.channelsAt a, (s.win i).addr + (s.win i).size < a + n := by
  unfold windowWrite at h
  have h1 := chanOf_accessOnly s a
  have hm : ∀ i, (chanOf s a).2 = some i → i ∈ s.channelsAt a := fun i => chanOf_mem
  rcases hco : chanOf s a with ⟨u, _ | i⟩ <;> simp only [hco] at h h1 hm
  · simp at h
  · split at h
    · simp at h
    · rename_i hin
      refine ⟨i, hm i rfl, ?_⟩
      simpa [State.insideWindow, h1.win] using hin

end Sys2Proof.Machine
end

