-- ==== Sys2Proof/Laws/Encoding.lean ====
section
/-! SUPPORT. The four parts of an operation's head read back (the layout of log 2). They are stated over the equation
`op.head = headOf …`: a goal that unfolds `headOf` on numerals is slow to check. -/

namespace Sys2Proof

/-- The low byte of a head. -/
theorem headOf_format (f row size slave : Nat) (h : f < 256) : (headOf f row size slave).field 7 0 = f := by
  simp only [headOf, Word.field, BitVec.extractLsb'_toNat, BitVec.toNat_ofNat]
  omega

/-- The second byte of a head. -/
theorem headOf_row (f row size slave : Nat) (h : f < 256) (hr : row < 256) :
    (headOf f row size slave).field 15 8 = row := by
  simp only [headOf, Word.field, BitVec.extractLsb'_toNat, BitVec.toNat_ofNat, Nat.shiftRight_eq_div_pow]
  omega

/-- The third byte of a head. -/
theorem headOf_size (f row size slave : Nat) (h : f < 256) (hr : row < 256) (hn : size < 256) :
    (headOf f row size slave).field 23 16 = size := by
  simp only [headOf, Word.field, BitVec.extractLsb'_toNat, BitVec.toNat_ofNat, Nat.shiftRight_eq_div_pow]
  omega

/-- The fourth byte of a head. -/
theorem headOf_slave (f row size slave : Nat) (h : f < 256) (hr : row < 256) (hn : size < 256) (hs : slave < 256) :
    (headOf f row size slave).field 31 24 = slave := by
  simp only [headOf, Word.field, BitVec.extractLsb'_toNat, BitVec.toNat_ofNat, Nat.shiftRight_eq_div_pow]
  omega

/-- A head is its four bytes. -/
theorem headOf_fields (w : Word) : headOf (w.field 7 0) (w.field 15 8) (w.field 23 16) (w.field 31 24) = w := by
  apply BitVec.eq_of_toNat_eq
  simp only [headOf, Word.field, BitVec.extractLsb'_toNat, BitVec.toNat_ofNat, Nat.shiftRight_eq_div_pow]
  have := w.isLt
  omega

/-- The format of an operation made with `headOf`. -/
theorem RawOp.format_of_head {op : RawOp} {f row size slave : Nat} (h : op.head = headOf f row size slave)
    (hf : f < 256) : op.format = f := by
  unfold RawOp.format; rw [h]; exact headOf_format _ _ _ _ hf

/-- The row of an operation made with `headOf`. -/
theorem RawOp.row_of_head {op : RawOp} {f row size slave : Nat} (h : op.head = headOf f row size slave)
    (hf : f < 256) (hr : row < 256) : op.row = row := by
  unfold RawOp.row; rw [h]; exact headOf_row _ _ _ _ hf hr

/-- The size of an operation made with `headOf`. -/
theorem RawOp.size_of_head {op : RawOp} {f row size slave : Nat} (h : op.head = headOf f row size slave)
    (hf : f < 256) (hr : row < 256) (hn : size < 256) : op.size = size := by
  unfold RawOp.size; rw [h]; exact headOf_size _ _ _ _ hf hr hn

/-- The slave index of an operation made with `headOf`. -/
theorem RawOp.slave_of_head {op : RawOp} {f row size slave : Nat} (h : op.head = headOf f row size slave)
    (hf : f < 256) (hr : row < 256) (hn : size < 256) (hs : slave < 256) : op.slave = slave := by
  unfold RawOp.slave; rw [h]; exact headOf_slave _ _ _ _ hf hr hn hs

/-- An operation is its words and the four parts of its head. -/
theorem RawOp.head_eq (op : RawOp) : op.head = headOf op.format op.row op.size op.slave := (headOf_fields op.head).symm

end Sys2Proof
end

