-- ==== Sys2Proof/Laws/Layout.lean ====
section
/-! SUPPORT. What a valid configuration gives (`00_scope.md` R7 to R9): the named registers lie at distinct word offsets
inside the register file, so each category has a word of its own, at its own byte offset (`30_encoding.md` R91). -/

namespace Sys2Proof.Machine

/-- No variant has more than five slaves (R2). -/
theorem maxSlaves_le (c : Config) : c.maxSlaves ≤ 5 := by
  unfold Config.maxSlaves; cases c.variant <;> decide

/-- Every variant has a slave (R2). -/
theorem maxSlaves_pos (c : Config) : 1 ≤ c.maxSlaves := by
  unfold Config.maxSlaves; cases c.variant <;> decide

/-- The constraints of R7(a), (e) and R8, pair by pair. -/
structure Config.Facts (c : Config) : Prop where
  nregs_ge : 38 ≤ c.nregs
  numCs_le : c.numCs ≤ c.maxSlaves
  we_le : c.weBase + c.maxSlaves ≤ 32
  conf_mod : c.rConf % 4 = 0
  conf_lt : c.rConf / 4 < c.nregs
  ce_mod : c.rCeCtrl % 4 = 0
  ce_lt : c.rCeCtrl / 4 < c.nregs
  tim_mod : c.rTimings % 4 = 0
  tim_lt : c.rTimings / 4 < c.nregs
  ctrl_mod : c.rCtrl0 % 4 = 0
  ctrl_lt : ∀ i < c.maxSlaves, (c.rCtrl0 + 4 * i) / 4 < c.nregs
  conf_ce : c.rConf ≠ c.rCeCtrl
  conf_intr : c.rConf ≠ 8
  conf_tim : c.rConf ≠ c.rTimings
  ce_intr : c.rCeCtrl ≠ 8
  ce_tim : c.rCeCtrl ≠ c.rTimings
  tim_intr : c.rTimings ≠ 8
  conf_misc : c.rConf ≠ 80 ∧ c.rConf ≠ 84
  ce_misc : c.rCeCtrl ≠ 80 ∧ c.rCeCtrl ≠ 84
  tim_misc : c.rTimings ≠ 80 ∧ c.rTimings ≠ 84
  ctrl_conf : ∀ i < c.maxSlaves, c.rCtrl0 + 4 * i ≠ c.rConf
  ctrl_ce : ∀ i < c.maxSlaves, c.rCtrl0 + 4 * i ≠ c.rCeCtrl
  ctrl_tim : ∀ i < c.maxSlaves, c.rCtrl0 + 4 * i ≠ c.rTimings
  ctrl_intr : ∀ i < c.maxSlaves, c.rCtrl0 + 4 * i ≠ 8
  ctrl_misc : ∀ i < c.maxSlaves, c.rCtrl0 + 4 * i ≠ 80 ∧ c.rCtrl0 + 4 * i ≠ 84
  ctrl_seg : ∀ i < c.maxSlaves, ∀ j < c.maxSlaves, c.rCtrl0 + 4 * i ≠ 48 + 4 * j
  seg_conf : ∀ i < c.maxSlaves, 48 + 4 * i ≠ c.rConf
  seg_ce : ∀ i < c.maxSlaves, 48 + 4 * i ≠ c.rCeCtrl
  seg_tim : ∀ i < c.maxSlaves, 48 + 4 * i ≠ c.rTimings
  dma_conf : c.hasDma = true → ∀ o ∈ [128, 132, 136, 140, 144], c.rConf ≠ o
  dma_ce : c.hasDma = true → ∀ o ∈ [128, 132, 136, 140, 144], c.rCeCtrl ≠ o
  dma_tim : c.hasDma = true → ∀ o ∈ [128, 132, 136, 140, 144], c.rTimings ≠ o
  dma_ctrl : c.hasDma = true → ∀ o ∈ [128, 132, 136, 140, 144], ∀ i < c.maxSlaves, c.rCtrl0 + 4 * i ≠ o

/-- A valid configuration meets them. -/
theorem Config.Valid.facts {c : Config} (h : c.Valid) : Config.Facts c := by
  obtain ⟨⟨hlo, hnd, hall, hwe⟩, ⟨hcs, -, -⟩, -, -⟩ := h
  have hm := maxSlaves_pos c
  have mem : ∀ i < c.maxSlaves, c.rCtrl0 + 4 * i ∈ c.namedOffsets := by
    intro i hi
    simp only [Config.namedOffsets, List.mem_append, List.mem_map, List.mem_range]
    exact .inl (.inr ⟨i, hi, rfl⟩)
  have h0 := hall _ (mem 0 (by omega))
  have hc := hall c.rConf (by simp [Config.namedOffsets])
  have he := hall c.rCeCtrl (by simp [Config.namedOffsets])
  have ht := hall c.rTimings (by simp [Config.namedOffsets])
  have hctl : ∀ i < c.maxSlaves, (c.rCtrl0 + 4 * i) / 4 < c.nregs := fun i hi => (hall _ (mem i hi)).2
  by_cases hd : c.hasDma = true
  · simp [Config.namedOffsets, Config.dmaOffsets, hd, List.nodup_append, List.nodup_cons] at hnd
    refine ⟨hlo, hcs, hwe, hc.1, hc.2, he.1, he.2, ht.1, ht.2, by omega, hctl, ?_, ?_, ?_, ?_, ?_, ?_, ?_, ?_, ?_,
      ?_, ?_, ?_, ?_, ?_, ?_, ?_, ?_, ?_, ?_, ?_, ?_, ?_⟩ <;> simp [hd] <;> grind
  · simp only [Bool.not_eq_true] at hd
    simp [Config.namedOffsets, Config.dmaOffsets, hd, List.nodup_append, List.nodup_cons] at hnd
    refine ⟨hlo, hcs, hwe, hc.1, hc.2, he.1, he.2, ht.1, ht.2, by omega, hctl, ?_, ?_, ?_, ?_, ?_, ?_, ?_, ?_, ?_,
      ?_, ?_, ?_, ?_, ?_, ?_, ?_, ?_, ?_, ?_, ?_, ?_, ?_⟩ <;> simp [hd] <;> grind

/-- The byte offset of a category's register; of the others, none. -/
def Category.offset (c : Config) : Category → Option Nat
  | .outOfRange => none
  | .conf => some c.rConf
  | .timings => some c.rTimings
  | .ceCtrl => some c.rCeCtrl
  | .intrCtrl => some 8
  | .dmaCtrl => if c.hasDma then some 128 else none
  | .dmaFlashAddr => if c.hasDma then some 132 else none
  | .dmaDramAddr => if c.hasDma then some 136 else none
  | .dmaLen => if c.hasDma then some 140 else none
  | .dmaChecksum => if c.hasDma then some 144 else none
  | .seg i => if i < c.maxSlaves then some (48 + 4 * i) else none
  | .ctrl i => if i < c.numCs then some (c.rCtrl0 + 4 * i) else none
  | .unimplemented => none

/-- The word of a category is the word at its byte offset (R21: the word at byte offset `off` is `x[off >> 2]`). -/
theorem wordIndex_eq_offset {c : Config} (h : Config.Facts c) (cat : Category) :
    wordIndex c cat = (cat.offset c).map (· / 4) := by
  have := h.ctrl_mod
  cases cat <;> simp only [wordIndex, Category.offset, idxConf, idxCeCtrl, idxTimings, idxIntrCtrl, idxDmaCtrl,
    idxDmaFlashAddr, idxDmaDramAddr, idxDmaLen, idxDmaChecksum, idxSeg, idxCtrl, Option.map_none, Option.map_some] <;>
    (try split) <;> simp <;> omega

/-- A register of the instance decodes from its own byte offset (R91). -/
theorem categoryOf_offset {c : Config} (h : Config.Facts c) {cat : Category} {off : Nat}
    (ho : cat.offset c = some off) : categoryOf c off = cat := by
  have hcs := h.numCs_le
  have hm := h.ctrl_mod
  have hmax := maxSlaves_le c
  have hn := h.nregs_ge
  cases cat <;> simp only [Category.offset] at ho
  case outOfRange => simp at ho
  case unimplemented => simp at ho
  case conf => cases ho; simp only [categoryOf]; rw [if_neg (by have := h.conf_lt; omega), if_pos trivial]
  case timings =>
    cases ho; simp only [categoryOf]
    rw [if_neg (by have := h.tim_lt; omega), if_neg (Ne.symm h.conf_tim), if_pos trivial]
  case ceCtrl =>
    cases ho; simp only [categoryOf]
    rw [if_neg (by have := h.ce_lt; omega), if_neg (Ne.symm h.conf_ce), if_neg h.ce_tim, if_pos trivial]
  case intrCtrl =>
    cases ho; simp only [categoryOf]
    rw [if_neg (by omega), if_neg (Ne.symm h.conf_intr), if_neg (Ne.symm h.tim_intr), if_neg (Ne.symm h.ce_intr),
      if_pos trivial]
  case seg i =>
    split at ho <;> cases ho
    rename_i hi
    have h1 := h.seg_conf i hi
    have h2 := h.seg_ce i hi
    have h3 := h.seg_tim i hi
    simp only [categoryOf]
    rw [if_neg (by omega), if_neg h1, if_neg h3, if_neg h2, if_neg (by omega), if_neg (by omega), if_neg (by omega),
      if_neg (by omega), if_neg (by omega), if_neg (by omega), if_pos (by omega)]
    congr 1; omega
  case ctrl i =>
    split at ho <;> cases ho
    rename_i hi
    have hi' : i < c.maxSlaves := by omega
    have h1 := h.ctrl_conf i hi'
    have h2 := h.ctrl_ce i hi'
    have h3 := h.ctrl_tim i hi'
    have h4 := h.ctrl_lt i hi'
    have h5 := h.ctrl_intr i hi'
    have h6 : ¬ (48 ≤ c.rCtrl0 + 4 * i ∧ c.rCtrl0 + 4 * i < 48 + 4 * c.maxSlaves) := by
      intro ⟨ha, hb⟩
      exact h.ctrl_seg i hi' ((c.rCtrl0 + 4 * i - 48) / 4) (by omega) (by omega)
    have h7 : ∀ o ∈ [128, 132, 136, 140, 144], ¬ (c.hasDma = true ∧ c.rCtrl0 + 4 * i = o) :=
      fun o ho' ⟨hd, he⟩ => h.dma_ctrl hd o ho' i hi' he
    simp only [categoryOf]
    rw [if_neg (by omega), if_neg h1, if_neg h3, if_neg h2, if_neg h5, if_neg (h7 128 (by simp)),
      if_neg (h7 132 (by simp)), if_neg (h7 136 (by simp)), if_neg (h7 140 (by simp)), if_neg (h7 144 (by simp)),
      if_neg h6, if_pos (by omega)]
    congr 1; omega
  all_goals
    split at ho <;> cases ho
    rename_i hd
    have h1 := h.dma_conf hd
    have h2 := h.dma_ce hd
    have h3 := h.dma_tim hd
    simp only [List.mem_cons, forall_eq_or_imp, List.not_mem_nil] at h1 h2 h3
    simp only [categoryOf]
    rw [if_neg (by omega), if_neg (by omega), if_neg (by omega), if_neg (by omega), if_neg (by omega)]
    simp [hd]

/-- The decode of an offset that is a multiple of 4: a register of the instance at its own offset, or none (R91). -/
theorem categoryOf_cases {c : Config} (h : Config.Facts c) (off : Nat) (hoff : off % 4 = 0) :
    (categoryOf c off).offset c = some off
      ∨ (categoryOf c off = .outOfRange ∧ c.nregs ≤ off / 4)
      ∨ (categoryOf c off = .unimplemented ∧ off / 4 < c.nregs) := by
  have hm := h.ctrl_mod
  by_cases h0 : c.nregs ≤ off / 4
  · right; left; exact ⟨by simp [categoryOf, h0], h0⟩
  · unfold categoryOf
    rw [if_neg h0]
    repeat' split
    all_goals first
      | (right; right; exact ⟨rfl, by omega⟩)
      | (left; simp [Category.offset, *] <;> omega)

/-- An offset decodes to no register exactly if it is none of the registers' offsets. -/
theorem categoryOf_unimplemented {c : Config} (h : Config.Facts c) {off : Nat} (hoff : off % 4 = 0)
    (hlt : off / 4 < c.nregs) (hno : ∀ cat : Category, cat.offset c ≠ some off) : categoryOf c off = .unimplemented := by
  rcases categoryOf_cases h off hoff with h1 | h1 | h1
  · exact absurd h1 (hno _)
  · omega
  · exact h1.1

/-- The offsets 0x50 and 0x54 are unimplemented (R28). -/
theorem categoryOf_misc {c : Config} (h : Config.Facts c) {off : Nat} (ho : off = 80 ∨ off = 84) :
    categoryOf c off = .unimplemented := by
  have hn := h.nregs_ge
  have hmax := maxSlaves_le c
  have hcs := h.numCs_le
  refine categoryOf_unimplemented h (by omega) (by omega) ?_
  intro cat
  have h1 := h.conf_misc
  have h2 := h.ce_misc
  have h3 := h.tim_misc
  cases cat
  case ctrl i =>
    simp only [Category.offset, ne_eq]
    split
    · have := h.ctrl_misc i (by omega)
      simp only [Option.some.injEq]; omega
    · simp
  all_goals
    simp only [Category.offset, ne_eq]
    (try split) <;> simp only [reduceCtorEq, Option.some.injEq, not_false_eq_true] <;> omega

/-- The offset of an absent slave's control register is unimplemented (R91; log 35 for its place in the layout). -/
theorem categoryOf_absent_ctrl {c : Config} (h : Config.Facts c) {i : Nat} (h1 : c.numCs ≤ i) (h2 : i < c.maxSlaves) :
    categoryOf c (c.rCtrl0 + 4 * i) = .unimplemented := by
  have hm := h.ctrl_mod
  refine categoryOf_unimplemented h (by omega) (h.ctrl_lt i h2) ?_
  intro cat
  have a1 := h.ctrl_conf i h2
  have a2 := h.ctrl_ce i h2
  have a3 := h.ctrl_tim i h2
  have a4 := h.ctrl_intr i h2
  have a5 := h.dma_ctrl
  cases cat <;> simp only [Category.offset, ne_eq]
  case seg j =>
    split
    · rename_i hj; have := h.ctrl_seg i h2 j hj
      simp only [Option.some.injEq]; omega
    · simp
  case ctrl j =>
    split
    · simp only [Option.some.injEq]; omega
    · simp
  all_goals
    first
    | (simp only [reduceCtorEq, Option.some.injEq, not_false_eq_true]; done)
    | (simp only [Option.some.injEq]; omega)
    | (split
       · rename_i hd
         simp only [Option.some.injEq]
         exact fun he => a5 hd _ (by simp) i h2 he.symm
       · simp)

/-- A register of the instance has a multiple of 4 inside the register file as its offset. -/
theorem offset_bounds {c : Config} (h : Config.Facts c) {cat : Category} {off : Nat} (ho : cat.offset c = some off) :
    off % 4 = 0 ∧ off / 4 < c.nregs := by
  have hcs := h.numCs_le
  have hmax := maxSlaves_le c
  have hn := h.nregs_ge
  have hm := h.ctrl_mod
  cases cat <;> simp only [Category.offset] at ho
  case conf => cases ho; exact ⟨h.conf_mod, h.conf_lt⟩
  case ceCtrl => cases ho; exact ⟨h.ce_mod, h.ce_lt⟩
  case timings => cases ho; exact ⟨h.tim_mod, h.tim_lt⟩
  case ctrl i =>
    split at ho <;> cases ho
    exact ⟨by omega, h.ctrl_lt i (by omega)⟩
  all_goals first
    | (cases ho; done)
    | (cases ho; omega)
    | (split at ho <;> cases ho; omega)

/-- Two registers of an instance never share a word (R21). -/
theorem wordIndex_inj {c : Config} (h : Config.Facts c) {a b : Category} {k : Nat} (ha : wordIndex c a = some k)
    (hb : wordIndex c b = some k) : a = b := by
  rw [wordIndex_eq_offset h, Option.map_eq_some_iff] at ha hb
  obtain ⟨oa, ha, hka⟩ := ha
  obtain ⟨ob, hb, hkb⟩ := hb
  have h1 := offset_bounds h ha
  have h2 := offset_bounds h hb
  have h3 : oa = ob := by omega
  rw [← categoryOf_offset h ha, ← categoryOf_offset h hb, h3]

/-- A register of the instance has its word inside the register file. -/
theorem wordIndex_lt {c : Config} (h : Config.Facts c) {a : Category} {k : Nat} (ha : wordIndex c a = some k) :
    k < c.nregs := by
  rw [wordIndex_eq_offset h, Option.map_eq_some_iff] at ha
  obtain ⟨oa, ha, hka⟩ := ha
  have h1 := offset_bounds h ha
  omega

end Sys2Proof.Machine
end

