-- ==== Sys2Proof/Laws/Exec.lean ====
section
/-! SUPPORT. What one operation can do, said once: a register read or write of a category, an access to the flash window,
a quantum, or reset; and what a property of states must survive to survive every operation. -/

namespace Sys2Proof.Machine

-- The register dispatch

/-- A register read logs and answers, and nothing else (R131 to R133). -/
theorem readCategory_spec (s : State) (cat : Category) :
    ∃ codes v, .w1 ∉ codes ∧ readCategory s cat = (s.note codes).answer v := by
  unfold readCategory
  split
  · exact ⟨_, _, by decide, rfl⟩
  · rename_i k _ _
    exact ⟨[], s.word k, by decide, by simp [State.note]⟩
  · exact ⟨_, _, by decide, rfl⟩

/-- A read of a register that the instance has answers its word (R132). -/
theorem readCategory_stored {s : State} {cat : Category} {k : Nat} (h : wordIndex s.cfg cat = some k) :
    readCategory s cat = s.answer (s.word k) := by
  unfold readCategory
  cases cat <;> simp_all [wordIndex]

/-- A read of a register that the instance lacks logs U1 and answers 0 (R133). -/
theorem readCategory_absent {s : State} {cat : Category} (hc : cat ≠ .outOfRange)
    (h : wordIndex s.cfg cat = none) : readCategory s cat = (s.note [.u1]).answer 0#32 := by
  unfold readCategory
  cases cat <;> simp_all

/-- A read beyond the register file logs GE1 and answers 0 (R131). -/
theorem readCategory_outOfRange (s : State) : readCategory s .outOfRange = (s.note [.ge1]).answer 0#32 := rfl

/-- The value a plain register stores for a written word: the categories that a write stores into with no other
effect (R135 to R138, R250, R251, R253). -/
def Stores (c : Config) (cat : Category) (v : Word) : Prop :=
  match cat with
  | .conf | .ceCtrl | .timings | .intrCtrl => True
  | .dmaFlashAddr => ∃ w, v = dmaFlashOperand c w
  | .dmaDramAddr => ∃ w, v = dmaDramOperand c w
  | .dmaLen => ∃ w, v = dmaLenOperand c w
  | _ => False

/-- What a register write can do (R135 to R142). -/
theorem writeCategory_cases (s : State) (cat : Category) (v : Word) :
    (∃ code, code ≠ .w1 ∧ writeCategory s cat v = s.note [code])
      ∨ (∃ k w, wordIndex s.cfg cat = some k ∧ Stores s.cfg cat w ∧ writeCategory s cat v = s.setWord k w)
      ∨ (∃ i, cat = .seg i ∧ i < s.cfg.maxSlaves ∧ writeCategory s cat v = writeSeg s i v)
      ∨ (∃ i, cat = .ctrl i ∧ i < s.cfg.numCs ∧ writeCategory s cat v = writeCtrl s i v)
      ∨ (cat = .dmaCtrl ∧ s.cfg.hasDma = true ∧ writeCategory s cat v = writeDmaCtrl s v) := by
  cases cat with
  | outOfRange => exact .inl ⟨_, by decide, rfl⟩
  | unimplemented => exact .inl ⟨_, by decide, rfl⟩
  | conf => exact .inr (.inl ⟨_, _, rfl, trivial, rfl⟩)
  | timings => exact .inr (.inl ⟨_, _, rfl, trivial, rfl⟩)
  | ceCtrl => exact .inr (.inl ⟨_, _, rfl, trivial, rfl⟩)
  | intrCtrl => exact .inr (.inl ⟨_, _, rfl, trivial, rfl⟩)
  | seg i =>
    by_cases h : i < s.cfg.maxSlaves
    · exact .inr (.inr (.inl ⟨i, rfl, h, by simp [writeCategory, wordIndex, h]⟩))
    · exact .inl ⟨.u2, by decide, by simp [writeCategory, wordIndex, h]⟩
  | ctrl i =>
    by_cases h : i < s.cfg.numCs
    · exact .inr (.inr (.inr (.inl ⟨i, rfl, h, by simp [writeCategory, wordIndex, h]⟩)))
    · exact .inl ⟨.u2, by decide, by simp [writeCategory, wordIndex, h]⟩
  | dmaCtrl =>
    by_cases h : s.cfg.hasDma = true
    · exact .inr (.inr (.inr (.inr ⟨rfl, h, by simp [writeCategory, wordIndex, h]⟩)))
    · exact .inl ⟨.u2, by decide, by simp [writeCategory, wordIndex, h]⟩
  | dmaFlashAddr =>
    by_cases h : s.cfg.hasDma = true
    · exact .inr (.inl ⟨idxDmaFlashAddr, _, by simp [wordIndex, h], ⟨v, rfl⟩, by simp [writeCategory, wordIndex, h]⟩)
    · exact .inl ⟨.u2, by decide, by simp [writeCategory, wordIndex, h]⟩
  | dmaDramAddr =>
    by_cases h : s.cfg.hasDma = true
    · exact .inr (.inl ⟨idxDmaDramAddr, _, by simp [wordIndex, h], ⟨v, rfl⟩, by simp [writeCategory, wordIndex, h]⟩)
    · exact .inl ⟨.u2, by decide, by simp [writeCategory, wordIndex, h]⟩
  | dmaLen =>
    by_cases h : s.cfg.hasDma = true
    · exact .inr (.inl ⟨idxDmaLen, _, by simp [wordIndex, h], ⟨v, rfl⟩, by simp [writeCategory, wordIndex, h]⟩)
    · exact .inl ⟨.u2, by decide, by simp [writeCategory, wordIndex, h]⟩
  | dmaChecksum =>
    by_cases h : s.cfg.hasDma = true
    · exact .inl ⟨.u2, by decide, by simp [writeCategory, wordIndex, h]⟩
    · exact .inl ⟨.u2, by decide, by simp [writeCategory, wordIndex, h]⟩

/-- What a segment write logs (R184 to R189). -/
theorem segDecide_logs (c : Config) (wins : Nat → Window) (i : Nat) (raw : Word) :
    .w1 ∉ (segDecide c wins i raw).logs := by
  simp only [segDecide, segFixLogs]
  repeat' split
  all_goals simp

/-- The write of a segment register stores nothing, or a window with its word (R139, R190). -/
theorem writeSeg_cases (s : State) (i : Nat) (v : Word) :
    (∃ codes, .w1 ∉ codes ∧ writeSeg s i v = s.note codes)
      ∨ ∃ codes w word, .w1 ∉ codes ∧ v ≠ s.word (idxSeg i) ∧ segDecide s.cfg s.win i v = ⟨codes, some (w, word)⟩
        ∧ writeSeg s i v = ((s.note codes).setWin i w).setWord (idxSeg i) word := by
  unfold writeSeg
  split
  · exact .inl ⟨[], by decide, by simp [State.note]⟩
  · rename_i hv
    have hl := segDecide_logs s.cfg s.win i v
    rcases h : segDecide s.cfg s.win i v with ⟨codes, _ | ⟨w, word⟩⟩ <;> rw [h] at hl
    · exact .inl ⟨codes, hl, rfl⟩
    · exact .inr ⟨codes, w, word, hl, hv, rfl, rfl⟩

/-- The write of DMA_CTRL: the disable write, a rejected start, or an accepted one (R252). -/
theorem writeDmaCtrl_cases (s : State) (v : Word) :
    (dmaCtrlEn v = false ∧ writeDmaCtrl s v = dmaStop (s.setWord idxDmaCtrl v))
      ∨ (dmaCtrlEn v = true ∧ s.busy = true ∧ writeDmaCtrl s v = s.note [.ge9])
      ∨ (dmaCtrlEn v = true ∧ s.busy = false ∧ writeDmaCtrl s v = dmaStart (s.setWord idxDmaCtrl v)) := by
  unfold writeDmaCtrl
  cases dmaCtrlEn v <;> cases s.busy <;> simp

-- A quantum

/-- What the move of a quantum can do (R259 to R261, R263): an access, and for a copy to main memory the four bytes at
the destination cursor; the cursors advance by 4, the memory one only in a copy. -/
theorem moveQuantum_spec {s s1 : State} {t t1 : DmaTransfer} (h : moveQuantum s t = some (s1, t1)) :
    ∃ s0, AccessOnly s s0 ∧ s0.csOut.length = s.csOut.length ∧ s.trace <+: s0.trace ∧ (s0.log = s.log ∨ s0.log = s.log ++ [.ge8])
      ∧ (s1 = s0 ∨ (t.cksum = false ∧ t.wdir = false ∧ ∃ w, s1 = { s0 with dram := s0.dram.write32 t.daddr w }))
      ∧ t1.rem = t.rem ∧ t1.wdir = t.wdir ∧ t1.cksum = t.cksum ∧ t1.faddr = t.faddr + 4#32
      ∧ t1.daddr = (if t.cksum then t.daddr else t.daddr + 4#32)
      ∧ (t.cksum = false → t1.sum = t.sum)
      ∧ (t.cksum = true → ∃ w, windowRead s t.faddr.toNat 4 = some (s1, w) ∧ t1.sum = t.sum + w) := by
  unfold moveQuantum at h
  split at h
  · rename_i hc
    simp only [Option.map_eq_some_iff, Prod.mk.injEq] at h
    obtain ⟨⟨u, v⟩, hr, rfl, rfl⟩ := h
    obtain ⟨h1, h2, ht, h3⟩ := windowRead_spec hr
    exact ⟨u, h1, h2, ht, .inl h3, .inl rfl, rfl, rfl, rfl, rfl, by simp [hc], by simp [hc], fun _ => ⟨v, hr, rfl⟩⟩
  · rename_i hc
    split at h
    · simp only [Option.map_eq_some_iff, Prod.mk.injEq] at h
      obtain ⟨u, hr, rfl, rfl⟩ := h
      obtain ⟨h1, h2, ht, h3⟩ := windowWrite_spec hr
      exact ⟨u, h1, h2, ht, h3, .inl rfl, rfl, rfl, rfl, rfl, by simp [hc], fun _ => rfl, fun h => absurd h hc⟩
    · rename_i hw
      simp only [Option.map_eq_some_iff, Prod.mk.injEq] at h
      obtain ⟨⟨u, v⟩, hr, rfl, rfl⟩ := h
      obtain ⟨h1, h2, ht, h3⟩ := windowRead_spec hr
      exact ⟨u, h1, h2, ht, .inl h3, .inr ⟨by simpa using hc, by simpa using hw, v, rfl⟩, rfl, rfl, rfl, rfl,
        by simp [hc], fun _ => rfl, fun h => absurd h hc⟩

/-- What a quantum can do (R258, R259; log 4). -/
theorem quantum_cases {s u : State} (h : quantum s = .next u) :
    (s.transfer = none ∧ u = s)
      ∨ ∃ t, s.transfer = some t ∧
        ((dmaCtrlEn (s.word idxDmaCtrl) = false ∧ u = { s with dma := none })
          ∨ (dmaCtrlEn (s.word idxDmaCtrl) = true ∧ ∃ s1 t1, moveQuantum s t = some (s1, t1) ∧ u = endQuantum s1 t1)) := by
  unfold quantum at h
  split at h
  · rename_i ht
    simp only [Host.Outcome.next.injEq] at h
    exact .inl ⟨ht, h.symm⟩
  · rename_i t ht
    refine .inr ⟨t, ht, ?_⟩
    split at h
    · rename_i he
      simp only [Host.Outcome.next.injEq] at h
      exact .inl ⟨he, h.symm⟩
    · rename_i he
      split at h
      · simp at h
      · rename_i s1 t1 hm
        simp only [Host.Outcome.next.injEq] at h
        exact .inr ⟨by simpa using he, s1, t1, hm, h.symm⟩

/-- A transfer in existence on a variant that has the engine. -/
theorem State.transfer_eq_some {s : State} {t : DmaTransfer} :
    s.transfer = some t ↔ s.cfg.hasDma = true ∧ s.dma = some t := by
  unfold State.transfer; split <;> simp_all

-- One operation

/-- What one operation can do. -/
inductive Effect (s : State) : State → Prop
  /-- a register read -/
  | read (cat : Category) : Effect s (readCategory s cat)
  /-- a register write -/
  | write (cat : Category) (v : Word) : Effect s (writeCategory s cat v)
  /-- a register read and a write of the same register -/
  | readWrite (cat : Category) (v : Word) : Effect s (writeCategory (readCategory s cat) cat v)
  /-- a read access to the flash window or a channel -/
  | accessRead (t : State) (v : Word) (h : AccessOnly s t) (hl : t.csOut.length = s.csOut.length)
      (ht : s.trace <+: t.trace) (hg : t.log = s.log) : Effect s (t.answer v)
  /-- a write access to the flash window or a channel -/
  | accessWrite (t : State) (h : AccessOnly s t) (hl : t.csOut.length = s.csOut.length)
      (ht : s.trace <+: t.trace) (hg : t.log = s.log ∨ t.log = s.log ++ [.ge8]) : Effect s t
  /-- a quantum -/
  | quantum (t : State) (h : quantum s = .next t) : Effect s t
  /-- reset -/
  | reset : Effect s (resetBlock s)

/-- A register access leaves the configuration. -/
@[simp] theorem readCategory_cfg (s : State) (cat : Category) : (readCategory s cat).cfg = s.cfg := by
  obtain ⟨codes, v, -, h⟩ := readCategory_spec s cat
  rw [h]; rfl

theorem windowReadOp_effect {s t : State} {a n : Nat} (h : windowReadOp s a n = .next t) : Effect s t := by
  unfold windowReadOp at h
  split at h
  · rename_i u v hr
    simp only [Host.Outcome.next.injEq] at h
    subst h
    obtain ⟨h1, h2, ht, h3⟩ := windowRead_spec hr
    exact .accessRead u v h1 h2 ht h3
  · simp at h

theorem windowWriteOp_effect {s t : State} {a n : Nat} {v : Word} (h : windowWriteOp s a n v = .next t) :
    Effect s t := by
  unfold windowWriteOp at h
  split at h
  · rename_i u hr
    simp only [Host.Outcome.next.injEq] at h
    subst h
    obtain ⟨h1, h2, ht, h3⟩ := windowWrite_spec hr
    exact .accessWrite u h1 h2 ht h3
  · simp at h

theorem channelReadOp_effect {s t : State} {i : Nat} {off : Word} {n : Nat}
    (h : channelReadOp s i off n = .next t) : Effect s t := by
  unfold channelReadOp at h
  split at h
  · simp only [Host.Outcome.next.injEq] at h
    subst h
    exact .accessRead _ _ (chanRead_accessOnly s i off n) (chanRead_csOut_length s i off n)
      (chanRead_history s i off n) (chanRead_log s i off n)
  · simp at h

theorem channelWriteOp_effect {s t : State} {i : Nat} {off : Word} {n : Nat} {v : Word}
    (h : channelWriteOp s i off n v = .next t) : Effect s t := by
  unfold channelWriteOp at h
  split at h
  · simp only [Host.Outcome.next.injEq] at h
    subst h
    refine .accessWrite _ (chanWrite_accessOnly s i off n v) (chanWrite_csOut_length s i off n v)
      (chanWrite_history s i off n v) ?_
    rw [chanWrite_log]; split <;> simp
  · simp at h

theorem readModifyCtrl_effect (s : State) (i : Nat) (f : Word → Word) : Effect s (readModifyCtrl s i f) := by
  unfold readModifyCtrl wr32 rd32
  simp only [readCategory_cfg]
  exact .readWrite _ _

/-- What one operation can do: the inversion of `exec`. -/
theorem exec_effect {i : Instr} {s t : State} (h : exec i s = .next t) : Effect s t := by
  cases i
  case fRd3 => exact channelReadOp_effect h
  case fRd4 => exact channelReadOp_effect h
  case fUrd => exact channelReadOp_effect h
  case fWr3 => exact channelWriteOp_effect h
  case fWr4 => exact channelWriteOp_effect h
  case fUwr => exact channelWriteOp_effect h
  case frd => exact windowReadOp_effect h
  case fwr => exact windowWriteOp_effect h
  case dmaq => exact .quantum t h
  case reset =>
    have h' := Host.Outcome.next.inj h
    subst h'; exact .reset
  case csLow =>
    have h' := Host.Outcome.next.inj h
    subst h'; exact readModifyCtrl_effect s _ _
  case csHigh =>
    have h' := Host.Outcome.next.inj h
    subst h'; exact readModifyCtrl_effect s _ _
  all_goals
    have h' := Host.Outcome.next.inj h
    subst h'
    first | exact .read _ | exact .write _ _

/-- What a property of states must survive to survive every operation. -/
structure Preserved (P : State → Prop) : Prop where
  note : ∀ s codes, .w1 ∉ codes → P s → P (s.note codes)
  answer : ∀ s v, P s → P (s.answer v)
  store : ∀ s cat k v, wordIndex s.cfg cat = some k → Stores s.cfg cat v → P s → P (s.setWord k v)
  seg : ∀ s i codes w v word, .w1 ∉ codes → i < s.cfg.maxSlaves → segDecide s.cfg s.win i v = ⟨codes, some (w, word)⟩ → P s →
    P (((s.note codes).setWin i w).setWord (idxSeg i) word)
  ctrl : ∀ s i v, i < s.cfg.numCs → P s → P (writeCtrl s i v)
  stop : ∀ s v, s.cfg.hasDma = true → dmaCtrlEn v = false → P s → P (dmaStop (s.setWord idxDmaCtrl v))
  start : ∀ s v, s.cfg.hasDma = true → dmaCtrlEn v = true → s.busy = false → P s →
    P (dmaStart (s.setWord idxDmaCtrl v))
  access : ∀ s t, AccessOnly s t → t.csOut.length = s.csOut.length → s.trace <+: t.trace →
    (t.log = s.log ∨ t.log = s.log ++ [.ge8]) → P s → P t
  cancel : ∀ s, P s → P { s with dma := none }
  quantum : ∀ s t s1 t1, s.transfer = some t → dmaCtrlEn (s.word idxDmaCtrl) = true →
    moveQuantum s t = some (s1, t1) → P s → P (endQuantum s1 t1)
  reset : ∀ s, P s → P (resetBlock s)

/-- A register write keeps what survives its parts. -/
theorem Preserved.write {P : State → Prop} (h : Preserved P) {s : State} (cat : Category) (v : Word) (hs : P s) :
    P (writeCategory s cat v) := by
  rcases writeCategory_cases s cat v with ⟨code, hn, h1⟩ | ⟨k, w, hk, hw, h1⟩ | ⟨i, -, hi, h1⟩ | ⟨i, -, hi, h1⟩ | ⟨-, hd, h1⟩ <;>
    rw [h1]
  · exact h.note _ _ (by simpa using hn.symm) hs
  · exact h.store _ _ _ _ hk hw hs
  · rcases writeSeg_cases s i v with ⟨codes, hn, h2⟩ | ⟨codes, w, word, hn, -, hd, h2⟩ <;> rw [h2]
    · exact h.note _ _ hn hs
    · exact h.seg _ _ _ _ _ _ hn hi hd hs
  · exact h.ctrl _ _ _ hi hs
  · rcases writeDmaCtrl_cases s v with ⟨he, h2⟩ | ⟨he, hb, h2⟩ | ⟨he, hb, h2⟩ <;> rw [h2]
    · exact h.stop _ _ hd he hs
    · exact h.note _ _ (by decide) hs
    · exact h.start _ _ hd he hb hs

/-- A register read keeps what survives its parts. -/
theorem Preserved.read {P : State → Prop} (h : Preserved P) {s : State} (cat : Category) (hs : P s) :
    P (readCategory s cat) := by
  obtain ⟨codes, v, hw, h1⟩ := readCategory_spec s cat
  rw [h1]; exact h.answer _ _ (h.note _ _ hw hs)

/-- An operation keeps what survives its parts. -/
theorem Preserved.exec {P : State → Prop} (h : Preserved P) {i : Instr} {s t : State} (he : exec i s = .next t)
    (hs : P s) : P t := by
  cases exec_effect he with
  | read cat => exact h.read cat hs
  | write cat v => exact h.write cat v hs
  | readWrite cat v => exact h.write cat v (h.read cat hs)
  | accessRead u v ha hl ht hg => exact h.answer _ _ (h.access s u ha hl ht (.inl hg) hs)
  | accessWrite _ ha hl ht hg => exact h.access s t ha hl ht hg hs
  | quantum _ hq =>
    rcases quantum_cases hq with ⟨-, rfl⟩ | ⟨x, hx, ⟨-, rfl⟩ | ⟨hen, s1, t1, hm, rfl⟩⟩
    · exact hs
    · exact h.cancel _ hs
    · exact h.quantum _ _ _ _ hx hen hm hs
  | reset => exact h.reset _ hs

-- One step

/-- What a step with a next state is: an operation, at the state without the operation in its list (R74; log 1). -/
theorem step_cases {s t : State} (h : step s = .next t) :
    s.cfg.Valid ∧ ∃ i rest, exec i { s with pending := rest } = .next t
      ∧ ((s.pending = [] ∧ rest = [] ∧ i = .dmaq) ∨ ∃ op, s.pending = op :: rest ∧ decode s.cfg op = .ok i) := by
  unfold step at h
  split at h
  · rename_i hv
    refine ⟨hv, ?_⟩
    unfold fetch at h
    rcases hp : s.pending with _ | ⟨op, rest⟩
    · simp only [hp] at h
      refine ⟨.dmaq, [], ?_, .inl ⟨rfl, rfl, rfl⟩⟩
      have : ({ s with pending := [] } : State) = s := by rw [← hp]
      rw [this]; exact h
    · simp only [hp] at h
      rcases hd : decode s.cfg op with why | i <;> simp only [hd, Except.map] at h
      · simp at h
      · exact ⟨i, rest, h, .inr ⟨op, rfl, hd⟩⟩
  · simp at h

-- The register ports

/-- What decodes as a register access has an offset that is a multiple of 4 (R71) and the row of that offset. -/
theorem decodeRegister_ok {op : RawOp} {u : Bool} {row : Except Reject Instr} {i : Instr}
    (h : decodeRegister op u row = .ok i) : op.addr.toNat % 4 = 0 ∧ row = .ok i := by
  unfold decodeRegister at h
  split at h
  · cases h
  · split at h
    · cases h
    · rename_i h4
      split at h
      · exact ⟨by simpa using h4, h⟩
      · cases h

/-- What a presented register read decodes to is the row of its offset (R91). -/
theorem decode_read_of {c : Config} {off : Word} {i : Instr} (h : decode c (rawRead off) = .ok i) :
    off.toNat % 4 = 0 ∧ readRow c off = .ok i := by
  unfold decode at h
  rw [RawOp.format_of_head (op := rawRead off) rfl (by decide)] at h
  exact decodeRegister_ok h

/-- What a presented register write decodes to is the row of its offset (R91). -/
theorem decode_write_of {c : Config} {off v : Word} {i : Instr} (h : decode c (rawWrite off v) = .ok i) :
    off.toNat % 4 = 0 ∧ writeRow c off v = .ok i := by
  unfold decode at h
  rw [RawOp.format_of_head (op := rawWrite off v) rfl (by decide)] at h
  exact decodeRegister_ok h

/-- A presented register read performs the register read at its offset (R130). -/
theorem exec_decoded_read {s : State} {off : Word} {i : Instr} (h : decode s.cfg (rawRead off) = .ok i) :
    exec i s = .next (rd32 s off.toNat) := by
  have hr := (decode_read_of h).2
  unfold rd32
  unfold readRow at hr
  split at hr <;> rename_i hc <;> rw [hc]
  all_goals try first | (cases hr; done) | (cases hr; rfl)
  split at hr
  · cases hr; rfl
  · split at hr <;> cases hr <;> rfl

/-- A presented register write performs the register write at its offset (R130). -/
theorem exec_decoded_write {s : State} {off v : Word} {i : Instr} (h : decode s.cfg (rawWrite off v) = .ok i) :
    exec i s = .next (wr32 s off.toNat v) := by
  have hr := (decode_write_of h).2
  unfold wr32
  unfold writeRow at hr
  split at hr <;> rename_i hc <;> rw [hc]
  all_goals try first | (cases hr; done) | (cases hr; rfl)
  split at hr
  · cases hr; rfl
  · split at hr
    · cases hr; rfl
    · split at hr
      · cases hr
        have hu : writeCategory s .dmaChecksum v = s.note [.u2] := by
          cases hd : s.cfg.hasDma <;> simp [writeCategory, wordIndex, hd]
        exact congrArg Host.Outcome.next hu
      · cases hr; rfl

end Sys2Proof.Machine
end

