-- ==== Sys2Proof/Laws/Memory.lean ====
section
/-! SUPPORT. Main memory: what is read after a write, and that every write keeps the canonical form. -/

namespace Sys2Proof.Machine

@[simp] theorem Memory.readByte_nil (a : Nat) : Memory.readByte [] a = Memory.unlisted := rfl

theorem Memory.readByte_cons (b : Nat) (v : Byte) (m : Memory) (a : Nat) :
    Memory.readByte ((b, v) :: m) a = if b = a then v else Memory.readByte m a := rfl

/-- Above every listed address nothing is listed. -/
theorem Memory.readByte_of_lt {low a : Nat} {m : Memory} (h : Memory.wfAbove (some low) m = true) (ha : a ≤ low) :
    Memory.readByte m a = Memory.unlisted := by
  induction m generalizing low with
  | nil => rfl
  | cons c m ih =>
    obtain ⟨b, v⟩ := c
    simp only [Memory.wfAbove, Bool.and_eq_true, decide_eq_true_eq] at h
    rw [Memory.readByte_cons, if_neg (by omega)]
    exact ih h.2 (by omega)

/-- The canonical form above a lower bound. -/
theorem Memory.wfAbove_mono {low : Option Nat} {b : Nat} {m : Memory} (h : Memory.wfAbove (some b) m = true)
    (hb : ∀ l, low = some l → l ≤ b) : Memory.wfAbove low m = true := by
  cases m with
  | nil => rfl
  | cons c m =>
    obtain ⟨a, v⟩ := c
    simp only [Memory.wfAbove, Bool.and_eq_true, decide_eq_true_eq] at h ⊢
    cases low with
    | none => simpa using ⟨⟨h.1.1.2, h.1.2⟩, h.2⟩
    | some l => exact ⟨⟨⟨by have := hb l rfl; simp; omega, h.1.1.2⟩, h.1.2⟩, h.2⟩

/-- A write keeps the canonical form above a lower bound. -/
theorem Memory.writeByte_wfAbove {low : Option Nat} {m : Memory} (h : Memory.wfAbove low m = true) (a : Nat) (v : Byte)
    (ha : a < Memory.addresses) (hl : ∀ l, low = some l → l < a) : Memory.wfAbove low (m.writeByte a v) = true := by
  induction m generalizing low with
  | nil =>
    by_cases hv : v = Memory.unlisted
    · simp [Memory.writeByte, hv, Memory.wfAbove]
    · cases low with
      | none => simp [Memory.writeByte, hv, Memory.wfAbove, ha]
      | some l => simp [Memory.writeByte, hv, Memory.wfAbove, ha, hl l rfl]
  | cons c m ih =>
    obtain ⟨b, u⟩ := c
    simp only [Memory.wfAbove, Bool.and_eq_true, decide_eq_true_eq] at h
    obtain ⟨⟨⟨h1, h2⟩, h3⟩, h4⟩ := h
    unfold Memory.writeByte
    split
    · rename_i hab
      split
      · simp only [Memory.wfAbove, Bool.and_eq_true, decide_eq_true_eq]; exact ⟨⟨⟨h1, h2⟩, h3⟩, h4⟩
      · rename_i hv
        simp only [Memory.wfAbove, Bool.and_eq_true, decide_eq_true_eq]
        refine ⟨⟨⟨?_, ha⟩, hv⟩, ⟨⟨hab, h2⟩, h3⟩, h4⟩
        cases low with
        | none => rfl
        | some l => simpa using hl l rfl
    · split
      · rename_i hab
        subst hab
        split
        · exact Memory.wfAbove_mono h4 (fun l hl' => Nat.le_of_lt (hl l hl'))
        · rename_i hv
          simp only [Memory.wfAbove, Bool.and_eq_true, decide_eq_true_eq]
          exact ⟨⟨⟨h1, h2⟩, hv⟩, h4⟩
      · rename_i h5 h6
        simp only [Memory.wfAbove, Bool.and_eq_true, decide_eq_true_eq]
        refine ⟨⟨⟨h1, h2⟩, h3⟩, ih h4 ?_⟩
        intro l hl'
        simp only [Option.some.injEq] at hl'
        omega

/-- A write keeps the canonical form. -/
theorem Memory.writeByte_wf {m : Memory} (h : m.wf = true) (a : Nat) (v : Byte) (ha : a < Memory.addresses) :
    (m.writeByte a v).wf = true :=
  Memory.writeByte_wfAbove h a v ha (by simp)

/-- Reading where a byte was written, in a canonical memory above a bound. -/
theorem Memory.readByte_writeByte_above {low : Option Nat} {m : Memory} (h : Memory.wfAbove low m = true) (a : Nat)
    (v : Byte) : (m.writeByte a v).readByte a = v := by
  induction m generalizing low with
  | nil =>
    unfold Memory.writeByte
    split
    · rename_i hv; simp [hv]
    · simp [Memory.readByte_cons]
  | cons c m ih =>
    obtain ⟨b, u⟩ := c
    simp only [Memory.wfAbove, Bool.and_eq_true, decide_eq_true_eq] at h
    obtain ⟨⟨⟨h1, h2⟩, h3⟩, h4⟩ := h
    unfold Memory.writeByte
    split
    · rename_i hab
      split
      · rename_i hv
        rw [Memory.readByte_cons, if_neg (by omega), Memory.readByte_of_lt h4 (by omega), hv]
      · rw [Memory.readByte_cons, if_pos rfl]
    · split
      · rename_i hab
        subst hab
        split
        · rename_i hv
          rw [Memory.readByte_of_lt h4 (Nat.le_refl _), hv]
        · rw [Memory.readByte_cons, if_pos rfl]
      · rw [Memory.readByte_cons, if_neg (by omega)]
        exact ih h4

/-- A byte written reads back. -/
theorem Memory.readByte_writeByte {m : Memory} (h : m.wf = true) (a : Nat) (v : Byte) :
    (m.writeByte a v).readByte a = v :=
  Memory.readByte_writeByte_above h a v

/-- A write changes no other byte, in any memory. -/
theorem Memory.readByte_writeByte_ne (m : Memory) (a b : Nat) (v : Byte) (hne : a ≠ b) :
    (m.writeByte a v).readByte b = m.readByte b := by
  induction m with
  | nil =>
    unfold Memory.writeByte
    split <;> simp [Memory.readByte_cons, hne]
  | cons c m ih =>
    obtain ⟨d, u⟩ := c
    unfold Memory.writeByte
    split
    · split
      · rfl
      · rw [Memory.readByte_cons, if_neg hne]
    · split
      · rename_i hd
        subst hd
        split
        · rw [Memory.readByte_cons, if_neg hne]
        · rw [Memory.readByte_cons, if_neg hne, Memory.readByte_cons, if_neg hne]
      · rw [Memory.readByte_cons, Memory.readByte_cons, ih]

/-- Every byte address of an access is an address of main memory. -/
theorem Memory.byteAddr_lt (a : Word) (k : Nat) : Memory.byteAddr a k < Memory.addresses := by
  have h : Memory.byteAddr a k < 2 ^ 32 := (a + BitVec.ofNat 32 k).isLt
  simpa [Memory.addresses] using h

/-- The four byte addresses of an access are distinct, also where they wrap. -/
theorem Memory.byteAddr_ne (a : Word) {j k : Nat} (hj : j < 4) (hk : k < 4) (hne : j ≠ k) :
    Memory.byteAddr a j ≠ Memory.byteAddr a k := by
  simp only [Memory.byteAddr, BitVec.toNat_add, BitVec.toNat_ofNat]
  omega

/-- A 4-byte write keeps the canonical form. -/
theorem Memory.write32_wf {m : Memory} (h : m.wf = true) (a v : Word) : (m.write32 a v).wf = true := by
  unfold Memory.write32
  exact Memory.writeByte_wf (Memory.writeByte_wf (Memory.writeByte_wf (Memory.writeByte_wf h _ _
    (Memory.byteAddr_lt a 0)) _ _ (Memory.byteAddr_lt a 1)) _ _ (Memory.byteAddr_lt a 2)) _ _ (Memory.byteAddr_lt a 3)

/-- A 4-byte write stores the value's bytes, least significant first (R70). -/
theorem Memory.readByte_write32 {m : Memory} (h : m.wf = true) (a v : Word) {k : Nat} (hk : k < 4) :
    (m.write32 a v).readByte (Memory.byteAddr a k) = v.byte k := by
  have w0 := Memory.writeByte_wf h _ (v.byte 0) (Memory.byteAddr_lt a 0)
  have w1 := Memory.writeByte_wf w0 _ (v.byte 1) (Memory.byteAddr_lt a 1)
  have w2 := Memory.writeByte_wf w1 _ (v.byte 2) (Memory.byteAddr_lt a 2)
  have ne := fun j (hj : j < 4) (hne : j ≠ k) => Memory.byteAddr_ne a hj hk hne
  unfold Memory.write32
  match k, hk with
  | 0, _ =>
    rw [Memory.readByte_writeByte_ne _ _ _ _ (ne 3 (by omega) (by omega)),
      Memory.readByte_writeByte_ne _ _ _ _ (ne 2 (by omega) (by omega)),
      Memory.readByte_writeByte_ne _ _ _ _ (ne 1 (by omega) (by omega)), Memory.readByte_writeByte h]
  | 1, _ =>
    rw [Memory.readByte_writeByte_ne _ _ _ _ (ne 3 (by omega) (by omega)),
      Memory.readByte_writeByte_ne _ _ _ _ (ne 2 (by omega) (by omega)), Memory.readByte_writeByte w0]
  | 2, _ =>
    rw [Memory.readByte_writeByte_ne _ _ _ _ (ne 3 (by omega) (by omega)), Memory.readByte_writeByte w1]
  | 3, _ => rw [Memory.readByte_writeByte w2]

/-- A 4-byte write changes no byte outside its four. -/
theorem Memory.readByte_write32_ne (m : Memory) (a v : Word) (b : Nat) (h : ∀ k < 4, Memory.byteAddr a k ≠ b) :
    (m.write32 a v).readByte b = m.readByte b := by
  unfold Memory.write32
  rw [Memory.readByte_writeByte_ne _ _ _ _ (h 3 (by omega)), Memory.readByte_writeByte_ne _ _ _ _ (h 2 (by omega)),
    Memory.readByte_writeByte_ne _ _ _ _ (h 1 (by omega)), Memory.readByte_writeByte_ne _ _ _ _ (h 0 (by omega))]

/-- Right after reset main memory has its canonical form. -/
theorem State.resetOf_dram_wf (c : Config) : (State.resetOf c).dram.wf = true := rfl

end Sys2Proof.Machine
end

