-- ==== Sys2Proof/Laws/Ops.lean ====
section
/-! SUPPORT. The results of the shared operations, word by word and event by event: a control write, the disable write, an
accepted start, the end of a quantum, a frame on the bus, the segment word, and the byte order. -/

namespace Sys2Proof.Machine

-- The bus history

theorem sentBytes_append (a b : List BusEvent) : sentBytes (a ++ b) = sentBytes a ++ sentBytes b := by
  induction a with
  | nil => rfl
  | cons e es ih => cases e <;> simp [sentBytes, ih]

theorem receivedBytes_append (a b : List BusEvent) : receivedBytes (a ++ b) = receivedBytes a ++ receivedBytes b := by
  induction a with
  | nil => rfl
  | cons e es ih => cases e <;> simp [receivedBytes, ih]

theorem csChanges_append (a b : List BusEvent) : csChanges (a ++ b) = csChanges a ++ csChanges b := by
  induction a with
  | nil => rfl
  | cons e es ih => cases e <;> simp [csChanges, ih]

/-- The bytes sent in a run of exchanges. -/
theorem sentBytes_zipWith (txs rxs : List Byte) (h : rxs.length = txs.length) :
    sentBytes (List.zipWith .xfer txs rxs) = txs := by
  induction txs generalizing rxs with
  | nil => rfl
  | cons tx txs ih =>
    cases rxs with
    | nil => simp at h
    | cons rx rxs => simp [sentBytes, ih rxs (by simpa using h)]

/-- The bytes received in a run of exchanges. -/
theorem receivedBytes_zipWith (txs rxs : List Byte) (h : rxs.length = txs.length) :
    receivedBytes (List.zipWith .xfer txs rxs) = rxs := by
  induction txs generalizing rxs with
  | nil => cases rxs with
    | nil => rfl
    | cons rx rxs => simp at h
  | cons tx txs ih =>
    cases rxs with
    | nil => simp at h
    | cons rx rxs => simp [receivedBytes, ih rxs (by simpa using h)]

/-- Exchanges change no chip select. -/
theorem csChanges_zipWith (txs rxs : List Byte) : csChanges (List.zipWith .xfer txs rxs) = [] := by
  induction txs generalizing rxs with
  | nil => rfl
  | cons tx txs ih =>
    cases rxs with
    | nil => rfl
    | cons rx rxs => simp [csChanges, ih rxs]

/-- Changes of level exchange no byte. -/
theorem sentBytes_csEdges (old new : List Level) : sentBytes (csEdges old new) = [] := by
  unfold csEdges
  induction List.range new.length with
  | nil => rfl
  | cons j js ih =>
    simp only [List.filterMap_cons]
    split
    · exact ih
    · rename_i b hb
      split at hb <;> simp only [Option.some.injEq, reduceCtorEq] at hb
      subst hb; exact ih

/-- Outputs that keep their levels record nothing. -/
theorem csEdges_self (levels : List Level) : csEdges levels levels = [] := by
  unfold csEdges
  induction List.range levels.length with
  | nil => rfl
  | cons j js _ => simp

/-- The opening bytes of a frame are those of R99. -/
theorem frameSetup_eq (s : State) (i : Nat) (off : Word) : s.frameSetup i off = openingBytes s i off := by
  have hm : s.commandByte i = if (s.ctrlWord i).field 1 0 = 0 then s.cfg.opRead else (s.ctrlWord i).byte 2 := by
    unfold State.commandByte State.mode ctrlMode
    split
    · rename_i h
      split
      · rfl
      · rename_i h0
        exfalso; revert h
        cases hf : (s.ctrlWord i).field 1 0 with
        | zero => exact absurd hf h0
        | succ n =>
          match n with
          | 0 => simp [Mode.ofBits]
          | 1 => simp [Mode.ofBits]
          | n + 2 => simp [Mode.ofBits]
    · rename_i h
      split
      · rename_i h0; simp [h0, Mode.ofBits] at h
      · rfl
  unfold State.frameSetup openingBytes
  simp only [hm, State.fourByte, ceFourByte, idxCeCtrl, State.ctrlWord, idxCtrl, addressBytes]
  by_cases h4 : (s.word (s.cfg.rCeCtrl / 4)).getLsbD i = true <;> simp only [h4] <;> simp

-- The control registers

/-- The words after a control write. -/
theorem writeCtrl_word (s : State) (i j : Nat) (v : Word) :
    (writeCtrl s i v).word j = (s.setWord (idxCtrl s.cfg i) v).word j := rfl

/-- The windows after a control write. -/
theorem writeCtrl_win (s : State) (i j : Nat) (v : Word) : (writeCtrl s i v).win j = s.win j := by
  simp [writeCtrl]

/-- The ROM-decode flags after a control write (R163). -/
theorem writeCtrl_romd (s : State) (i j : Nat) (v : Word) :
    (writeCtrl s i v).romd j = if i = j ∧ i < s.chan.length then decide (ctrlMode v ≠ .user) else s.romd j := by
  simp only [writeCtrl, State.romd_refreshCs, State.romd_setRomd]; rfl

/-- User mode is mode 3 (R162). -/
theorem ctrlMode_user (v : Word) : decide (ctrlMode v ≠ .user) = decide (v.field 1 0 ≠ 3) := by
  have hb : v.field 1 0 < 4 := (v.extractLsb' 0 2).isLt
  unfold ctrlMode
  revert hb; generalize v.field 1 0 = m; intro hb
  match m, hb with
  | 0, _ => rfl
  | 1, _ => rfl
  | 2, _ => rfl
  | 3, _ => rfl

/-- The levels after a control write (R164). -/
theorem writeCtrl_csLevel (s : State) (i j : Nat) (v : Word) (hj : j < s.cfg.numCs) :
    (writeCtrl s i v).csLevel j
      = if ((writeCtrl s i v).word (idxCtrl s.cfg j)).getLsbD 2 then .inactive else .active := by
  rw [writeCtrl_word]
  simp only [writeCtrl, State.csLevel, State.refreshCs_csOut, State.setRomd_cfg, State.setWord_cfg,
    List.getD_eq_getElem?_getD]
  simp [hj, State.ceLevel, ctrlCeStop]

/-- A control write exchanges no byte. -/
theorem writeCtrl_sentBytes (s : State) (i : Nat) (v : Word) : sentBytes (writeCtrl s i v).trace = sentBytes s.trace := by
  simp only [writeCtrl, State.refreshCs, State.driveAll_trace, sentBytes_append, sentBytes_csEdges]
  simp

/-- A control write leaves everything but the register file, the channels, the outputs and the bus history. -/
theorem writeCtrl_frame (s : State) (i : Nat) (v : Word) :
    writeCtrl s i v = { s with
      x := (writeCtrl s i v).x, chan := (writeCtrl s i v).chan, csOut := (writeCtrl s i v).csOut
      trace := (writeCtrl s i v).trace } := rfl

-- The DMA engine

/-- The words after the disable write's actions (R264). -/
theorem dmaStop_word (s : State) (k : Nat) (h : 37 ≤ s.x.length) :
    (dmaStop s).word k
      = if k = 33 ∨ k = 34 ∨ k = 35 ∨ k = 36 then 0#32
        else if k = 2 then clearDmaStatus (s.word 2) else s.word k := by
  have h1 : (dmaStop s).word k
      = ((s.setWord 2 (clearDmaStatus (s.word 2))).publish 0#32 0#32 0#32 0#32).word k := rfl
  rw [h1, State.word_publish _ _ _ _ _ _ (by simpa using h)]
  simp only [idxDmaFlashAddr, idxDmaDramAddr, idxDmaLen, idxDmaChecksum, State.word_setWord]
  by_cases h2 : k = 2
  · subst h2; simp; omega
  · by_cases a : k = 33 <;> by_cases b : k = 34 <;> by_cases c : k = 35 <;> by_cases d : k = 36 <;>
      simp [a, b, c, d, h2, Ne.symm h2]

/-- The words after a completion (R262). -/
theorem complete_word (s : State) (k : Nat) (h : 2 < s.x.length) :
    (complete s).word k = if k = 2 then setDmaStatus (s.word 2) else s.word k := by
  have h1 : (complete s).word k = (s.setWord 2 (setDmaStatus (s.word 2))).word k := rfl
  rw [h1, State.word_setWord]
  by_cases h2 : k = 2
  · subst h2; simp [h]
  · simp [h2, Ne.symm h2]

/-- The line after a completion (R262): `dma_en` is not touched by setting `dma_status`. -/
theorem complete_irq (s : State) (h : 2 < s.x.length) :
    (complete s).irq = if (s.word 2).getLsbD 3 then .high else s.irq := by
  have h1 : (complete s).irq
      = if intrDmaEn ((s.setWord 2 (setDmaStatus (s.word 2))).word 2) then .high else s.irq := rfl
  rw [h1, State.word_setWord_self _ _ _ h]
  simp [intrDmaEn, setDmaStatus, dmaStatusMask]

/-- The words after the end of a quantum (R259, R262). -/
theorem endQuantum_word (s : State) (t : DmaTransfer) (k : Nat) (h : 37 ≤ s.x.length) :
    (endQuantum s t).word k
      = if k = 33 then t.faddr else if k = 34 then t.daddr else if k = 35 then t.rem - 4#32 else if k = 36 then t.sum
        else if k = 2 ∧ t.rem - 4#32 = 0#32 then setDmaStatus (s.word 2) else s.word k := by
  have hp : ∀ j, (({ s with dma := some { t with rem := t.rem - 4#32 } } : State).publish t.faddr t.daddr
      (t.rem - 4#32) t.sum).word j
        = if j = 33 then t.faddr else if j = 34 then t.daddr else if j = 35 then t.rem - 4#32
          else if j = 36 then t.sum else s.word j := fun j => State.word_publish _ _ _ _ _ j h
  unfold endQuantum
  by_cases hr : t.rem - 4#32 = 0#32
  · simp only [hr, if_true, and_true] at hp ⊢
    rw [complete_word _ _ (by rw [State.publish_length]; exact (by omega : 2 < s.x.length)), hp, hp]
    by_cases h2 : k = 2
    · subst h2; simp
    · simp [h2]
  · simp only [hr, if_false, and_false]
    exact hp k

/-- The latch after the end of a quantum. -/
theorem endQuantum_dma (s : State) (t : DmaTransfer) :
    (endQuantum s t).dma = if t.rem - 4#32 = 0#32 then none else some { t with rem := t.rem - 4#32 } := by
  unfold endQuantum; split <;> simp_all

/-- The line after the end of a quantum (R305). -/
theorem endQuantum_irq (s : State) (t : DmaTransfer) (h : 37 ≤ s.x.length) :
    (endQuantum s t).irq = if t.rem - 4#32 = 0#32 ∧ (s.word 2).getLsbD 3 = true then .high else s.irq := by
  have hp := State.word_publish ({ s with dma := some { t with rem := t.rem - 4#32 } } : State) t.faddr t.daddr
    (t.rem - 4#32) t.sum 2 h
  unfold endQuantum
  by_cases hr : t.rem - 4#32 = 0#32
  · simp only [hr, if_true, true_and] at hp ⊢
    rw [complete_irq _ (by rw [State.publish_length]; exact (by omega : 2 < s.x.length)), hp]
    rfl
  · simp only [hr, if_false, false_and]; rfl

/-- The end of a quantum leaves everything but the register file, the line and the latch. -/
theorem endQuantum_frame (s : State) (t : DmaTransfer) :
    endQuantum s t = { s with
      x := (endQuantum s t).x, irq := (endQuantum s t).irq, dma := (endQuantum s t).dma } := by
  unfold endQuantum; dsimp only; split <;> rfl

-- Segment words

/-- The fields of a number as a word. -/
theorem fields_ofNat {n : Nat} (h : n < 2 ^ 32) (w : Word) (hw : w = BitVec.ofNat 32 n) :
    w.field 23 16 = n / 0x10000 % 256 ∧ w.field 31 24 = n / 0x1000000 % 256 ∧ w.field 15 0 = n % 65536 := by
  subst hw
  simp only [Word.field, BitVec.extractLsb'_toNat, BitVec.toNat_ofNat, Nat.shiftRight_eq_div_pow]
  omega

/-- The fields of a packed window (R183). -/
theorem segPack_fields {addr : Nat} {size : Int} (h1 : addr % 8388608 = 0) (h2 : addr ≤ 0xFF * 8388608)
    (h3 : 0 ≤ addr + size) (h4 : addr + size ≤ 0xFF * 8388608) :
    (segPack addr size).field 23 16 * 8388608 = addr
      ∧ (segPack addr size).field 31 24 = ((addr + size) / 8388608).toNat ∧ (segPack addr size).field 15 0 = 0 := by
  obtain ⟨e, he⟩ : ∃ e : Nat, ((addr + size) / 8388608 : Int) = e := ⟨((addr + size) / 8388608).toNat, by omega⟩
  have hs : addr / 8388608 ≤ 255 := by omega
  obtain ⟨f1, f2, f3⟩ := fields_ofNat (n := e % 256 * 0x1000000 + addr / 8388608 % 256 * 0x10000) (by omega)
    (segPack addr size) (by
      unfold segPack
      simp only [show segUnit = 8388608 from rfl]
      rw [show ((addr + size) / ((8388608 : Nat) : Int)).toNat = e by omega])
  rw [f1, f2, f3, show ((addr + size) / 8388608).toNat = e by omega]
  omega

/-- A packed window decodes to itself (R191). -/
theorem segUnpack_fields (w : Word) :
    segUnpack w = (w.field 23 16 * 8388608, (w.field 31 24 * 8388608 : Int) - (w.field 23 16 * 8388608 : Nat)) := rfl

/-- Replacing the start field changes no other field (D10). -/
theorem segWithStart_fields (v : Word) {n : Nat} (hn : n < 256) :
    (segWithStart v n).field 23 16 = n ∧ (segWithStart v n).field 31 24 = v.field 31 24
      ∧ (segWithStart v n).field 15 0 = v.field 15 0 := by
  unfold segWithStart Word.field
  rw [Nat.mod_eq_of_lt hn]
  refine ⟨?_, ?_, ?_⟩
  · have : ((v &&& 4278255615#32 ||| BitVec.ofNat 32 n <<< 16).extractLsb' 16 8).toNat = (BitVec.ofNat 8 n).toNat := by
      congr 1
      apply BitVec.eq_of_getLsbD_eq
      intro k hk
      simp only [BitVec.getLsbD_extractLsb', BitVec.getLsbD_or, BitVec.getLsbD_and, BitVec.getLsbD_shiftLeft,
        BitVec.getLsbD_ofNat, hk, decide_true, Bool.true_and]
      interval_cases k <;> simp <;> intros <;>
        exact absurd ‹Nat.testBit 4278255615 _ = true› (by decide)
    show ((v &&& 4278255615#32 ||| BitVec.ofNat 32 n <<< 16).extractLsb' 16 8).toNat = n
    rw [this]; simp; omega
  · congr 1
    apply BitVec.eq_of_getLsbD_eq
    intro k hk
    have hk : k < 8 := hk
    simp only [BitVec.getLsbD_extractLsb', BitVec.getLsbD_or, BitVec.getLsbD_and, BitVec.getLsbD_shiftLeft,
      BitVec.getLsbD_ofNat]
    have : Nat.testBit n (24 + k - 16) = false := Nat.testBit_lt_two_pow
      (Nat.lt_of_lt_of_le (by omega : n < 2 ^ 8) (Nat.pow_le_pow_right (by decide) (by omega)))
    rw [this]
    interval_cases k <;> simp <;> intros <;> decide
  · congr 1
    apply BitVec.eq_of_getLsbD_eq
    intro k hk
    have hk : k < 16 := hk
    simp only [BitVec.getLsbD_extractLsb', BitVec.getLsbD_or, BitVec.getLsbD_and, BitVec.getLsbD_shiftLeft,
      BitVec.getLsbD_ofNat]
    interval_cases k <;> simp <;> intros <;> decide

-- The decision of a segment write

/-- The end correction, once the start correction is known (R185). -/
theorem segFix_of_start {c : Config} {i addr : Nat} {raw word : Word} {size : Int}
    (h : segFixStart c i raw = (addr, size, word)) :
    segFix c i raw = if segFixesEnd c i addr size then
        (addr, (c.fixedEnd : Int) - addr, segPack addr ((c.fixedEnd : Int) - addr)) else (addr, size, word) := by
  unfold segFix; rw [h]

/-- What the corrections log, once the start correction is known (R184, R185). -/
theorem segFixLogs_of_start {c : Config} {i addr : Nat} {raw word : Word} {size : Int}
    (h : segFixStart c i raw = (addr, size, word)) :
    segFixLogs c i raw = (if segFixesStart c i (segUnpack raw).1 then [.ge3] else [])
      ++ (if segFixesEnd c i addr size then [.ge4] else []) := by
  unfold segFixLogs; rw [h]

/-- What a segment write decides, once the corrections are known (R186 to R190). -/
theorem segDecide_of_fix {c : Config} {wins : Nat → Window} {i addr : Nat} {raw word : Word} {size : Int}
    (h : segFix c i raw = (addr, size, word)) :
    segDecide c wins i raw = if segContained c addr size then
        { logs := segFixLogs c i raw ++ (if segMisaligned addr size then [.ge6] else [])
            ++ (if segOverlaps c wins i addr size then [.ge7] else [])
          stored := some (⟨addr, size.toNat⟩, word) }
      else { logs := segFixLogs c i raw ++ [.ge5], stored := none } := by
  unfold segDecide; rw [h]

-- Byte order

/-- An assembled value is below `2^(8n)` (R98). -/
theorem leWord_lt (bs : List Byte) : (leWord bs).toNat < 2 ^ (8 * bs.length) := by
  induction bs with
  | nil => simp [leWord]
  | cons b bs ih =>
    simp only [leWord, BitVec.toNat_or, BitVec.toNat_setWidth, BitVec.toNat_shiftLeft, List.length_cons]
    have hb := b.isLt
    have hp : 2 ^ (8 * (bs.length + 1)) = 2 ^ (8 * bs.length) * 256 := by rw [Nat.mul_add, Nat.pow_add]
    apply Nat.or_lt_two_pow
    · have : 2 ^ 8 ≤ 2 ^ (8 * (bs.length + 1)) := Nat.pow_le_pow_right (by decide) (by omega)
      omega
    · have h1 : (leWord bs).toNat <<< 8 = (leWord bs).toNat * 256 := by rw [Nat.shiftLeft_eq]
      rw [h1, hp]
      have := Nat.mod_le ((leWord bs).toNat * 256) (2 ^ 32)
      omega

/-- An assembled value of no bytes but zeros is 0 (R228). -/
theorem leWord_zeros (n : Nat) : leWord (List.replicate n 0#8) = 0#32 := by
  induction n with
  | zero => rfl
  | succ n ih => simp [leWord, List.replicate_succ, ih]

/-- The lowest byte of an assembled value. -/
theorem byte_zero_assembled (b : Byte) (w : Word) : (b.setWidth 32 ||| w <<< 8 : Word).extractLsb' 0 8 = b := by
  ext i hi
  simp only [BitVec.getElem_extractLsb', BitVec.getLsbD_or, BitVec.getLsbD_setWidth, BitVec.getLsbD_shiftLeft]
  simp [show i < 32 by omega, show i < 8 by omega]

/-- A higher byte of an assembled value. -/
theorem byte_succ_assembled (b : Byte) (w : Word) (k : Nat) (hk : k < 3) :
    (b.setWidth 32 ||| w <<< 8 : Word).extractLsb' (8 * (k + 1)) 8 = w.extractLsb' (8 * k) 8 := by
  ext i hi
  simp only [BitVec.getElem_extractLsb', BitVec.getLsbD_or, BitVec.getLsbD_setWidth, BitVec.getLsbD_shiftLeft]
  have h1 : 8 * (k + 1) + i < 32 := by omega
  have h2 : ¬ 8 * (k + 1) + i < 8 := by omega
  have h3 : 8 * (k + 1) + i - 8 = 8 * k + i := by omega
  simp [h1, h2, h3, BitVec.getLsbD_of_ge b (8 * (k + 1) + i) (by omega)]

/-- The bytes of an assembled value (R98). -/
theorem leWord_byte (bs : List Byte) (h : bs.length ≤ 4) (k : Nat) (hk : k < bs.length) :
    (leWord bs).byte k = bs[k] := by
  induction bs generalizing k with
  | nil => simp at hk
  | cons b bs ih =>
    cases k with
    | zero => exact byte_zero_assembled b (leWord bs)
    | succ k =>
      simp only [List.length_cons] at h hk
      have h1 := byte_succ_assembled b (leWord bs) k (by omega)
      have h2 := ih (by omega) k (by omega)
      simp only [Word.byte, List.getElem_cons_succ, leWord] at h2 ⊢
      rw [h1, h2]

end Sys2Proof.Machine
end

