-- ==== Sys2Proof/Laws/PerInstr.lean ====
section
/-! SUPPORT. One lemma per constructor of `Instr`: its encoding carries the number of its format (log 2). -/

namespace Sys2Proof

/-- The format number of an operation's row of the opcode table (R108; the numbers are log 2's). -/
def Instr.formatNumber : Instr → Nat
  | .rd32Conf => 0
  | .rd32CeCtrl => 0
  | .rd32IntrCtrl => 0
  | .rd32Ctrl0 => 0
  | .rd32Ctrl1 => 0
  | .rd32Ctrl2 => 0
  | .rd32Ctrl3 => 0
  | .rd32Ctrl4 => 0
  | .rd32Seg0 => 0
  | .rd32Seg1 => 0
  | .rd32Seg2 => 0
  | .rd32Seg3 => 0
  | .rd32Seg4 => 0
  | .rd32Misc1 => 0
  | .rd32Misc2 => 0
  | .rd32DmaCtrl => 0
  | .rd32DmaFlashAddr => 0
  | .rd32DmaDramAddr => 0
  | .rd32DmaLen => 0
  | .rd32DmaChecksum => 0
  | .rd32Timings => 0
  | .rd32Unimp _ => 0
  | .rd32Oor _ => 0
  | .wr32Conf _ => 1
  | .wr32CeCtrl _ => 1
  | .wr32IntrCtrl _ => 1
  | .wr32Ctrl0 _ => 1
  | .wr32Ctrl1 _ => 1
  | .wr32Ctrl2 _ => 1
  | .wr32Ctrl3 _ => 1
  | .wr32Ctrl4 _ => 1
  | .wr32Seg0 _ => 1
  | .wr32Seg1 _ => 1
  | .wr32Seg2 _ => 1
  | .wr32Seg3 _ => 1
  | .wr32Seg4 _ => 1
  | .wr32Misc1 _ => 1
  | .wr32Misc2 _ => 1
  | .wr32DmaCtrl _ => 1
  | .wr32DmaFlashAddr _ => 1
  | .wr32DmaDramAddr _ => 1
  | .wr32DmaLen _ => 1
  | .wr32DmaChecksum _ => 1
  | .wr32Timings _ => 1
  | .wr32Unimp _ _ => 1
  | .wr32Oor _ _ => 1
  | .ctrlRead _ _ => 2
  | .ctrlFastread _ _ => 2
  | .ctrlWrite _ _ => 2
  | .ctrlUser _ _ => 2
  | .dmaStop _ => 3
  | .dmaStartF2d _ => 3
  | .dmaStartD2f _ => 3
  | .dmaStartCksum _ => 3
  | .wConf _ => 4
  | .wCe _ => 4
  | .wIntr _ => 4
  | .wCtrl _ _ => 4
  | .wSeg _ _ => 4
  | .wDmactrl _ => 4
  | .wAddr _ _ => 4
  | .wLen _ => 4
  | .wSum _ => 4
  | .wRaw _ => 4
  | .fRd3 _ _ _ => 5
  | .fRd4 _ _ _ => 5
  | .fWr3 _ _ _ _ => 5
  | .fWr4 _ _ _ _ => 5
  | .fUrd _ _ _ => 5
  | .fUwr _ _ _ _ => 5
  | .frd _ _ => 6
  | .fwr _ _ _ => 6
  | .dmaq => 6
  | .reset => 6
  | .setctrl _ _ => 7
  | .setseg _ _ => 7
  | .dmaStart _ => 7
  | .csLow _ => 7
  | .csHigh _ => 7

namespace Laws

/-- The encoding of an operation carries its format's number, under every configuration. -/
def EncodeFormat.Statement (i : Instr) : Prop := ∀ c, (encode c i).format = i.formatNumber

theorem EncodeFormat.rd32Conf : EncodeFormat.Statement .rd32Conf :=
  fun _ => RawOp.format_of_head (f := 0) rfl (by decide)
theorem EncodeFormat.rd32CeCtrl : EncodeFormat.Statement .rd32CeCtrl :=
  fun _ => RawOp.format_of_head (f := 0) rfl (by decide)
theorem EncodeFormat.rd32IntrCtrl : EncodeFormat.Statement .rd32IntrCtrl :=
  fun _ => RawOp.format_of_head (f := 0) rfl (by decide)
theorem EncodeFormat.rd32Ctrl0 : EncodeFormat.Statement .rd32Ctrl0 :=
  fun _ => RawOp.format_of_head (f := 0) rfl (by decide)
theorem EncodeFormat.rd32Ctrl1 : EncodeFormat.Statement .rd32Ctrl1 :=
  fun _ => RawOp.format_of_head (f := 0) rfl (by decide)
theorem EncodeFormat.rd32Ctrl2 : EncodeFormat.Statement .rd32Ctrl2 :=
  fun _ => RawOp.format_of_head (f := 0) rfl (by decide)
theorem EncodeFormat.rd32Ctrl3 : EncodeFormat.Statement .rd32Ctrl3 :=
  fun _ => RawOp.format_of_head (f := 0) rfl (by decide)
theorem EncodeFormat.rd32Ctrl4 : EncodeFormat.Statement .rd32Ctrl4 :=
  fun _ => RawOp.format_of_head (f := 0) rfl (by decide)
theorem EncodeFormat.rd32Seg0 : EncodeFormat.Statement .rd32Seg0 :=
  fun _ => RawOp.format_of_head (f := 0) rfl (by decide)
theorem EncodeFormat.rd32Seg1 : EncodeFormat.Statement .rd32Seg1 :=
  fun _ => RawOp.format_of_head (f := 0) rfl (by decide)
theorem EncodeFormat.rd32Seg2 : EncodeFormat.Statement .rd32Seg2 :=
  fun _ => RawOp.format_of_head (f := 0) rfl (by decide)
theorem EncodeFormat.rd32Seg3 : EncodeFormat.Statement .rd32Seg3 :=
  fun _ => RawOp.format_of_head (f := 0) rfl (by decide)
theorem EncodeFormat.rd32Seg4 : EncodeFormat.Statement .rd32Seg4 :=
  fun _ => RawOp.format_of_head (f := 0) rfl (by decide)
theorem EncodeFormat.rd32Misc1 : EncodeFormat.Statement .rd32Misc1 :=
  fun _ => RawOp.format_of_head (f := 0) rfl (by decide)
theorem EncodeFormat.rd32Misc2 : EncodeFormat.Statement .rd32Misc2 :=
  fun _ => RawOp.format_of_head (f := 0) rfl (by decide)
theorem EncodeFormat.rd32DmaCtrl : EncodeFormat.Statement .rd32DmaCtrl :=
  fun _ => RawOp.format_of_head (f := 0) rfl (by decide)
theorem EncodeFormat.rd32DmaFlashAddr : EncodeFormat.Statement .rd32DmaFlashAddr :=
  fun _ => RawOp.format_of_head (f := 0) rfl (by decide)
theorem EncodeFormat.rd32DmaDramAddr : EncodeFormat.Statement .rd32DmaDramAddr :=
  fun _ => RawOp.format_of_head (f := 0) rfl (by decide)
theorem EncodeFormat.rd32DmaLen : EncodeFormat.Statement .rd32DmaLen :=
  fun _ => RawOp.format_of_head (f := 0) rfl (by decide)
theorem EncodeFormat.rd32DmaChecksum : EncodeFormat.Statement .rd32DmaChecksum :=
  fun _ => RawOp.format_of_head (f := 0) rfl (by decide)
theorem EncodeFormat.rd32Timings : EncodeFormat.Statement .rd32Timings :=
  fun _ => RawOp.format_of_head (f := 0) rfl (by decide)
theorem EncodeFormat.rd32Unimp a : EncodeFormat.Statement (.rd32Unimp a) :=
  fun _ => RawOp.format_of_head (f := 0) rfl (by decide)
theorem EncodeFormat.rd32Oor a : EncodeFormat.Statement (.rd32Oor a) :=
  fun _ => RawOp.format_of_head (f := 0) rfl (by decide)
theorem EncodeFormat.wr32Conf a : EncodeFormat.Statement (.wr32Conf a) :=
  fun _ => RawOp.format_of_head (f := 1) rfl (by decide)
theorem EncodeFormat.wr32CeCtrl a : EncodeFormat.Statement (.wr32CeCtrl a) :=
  fun _ => RawOp.format_of_head (f := 1) rfl (by decide)
theorem EncodeFormat.wr32IntrCtrl a : EncodeFormat.Statement (.wr32IntrCtrl a) :=
  fun _ => RawOp.format_of_head (f := 1) rfl (by decide)
theorem EncodeFormat.wr32Ctrl0 a : EncodeFormat.Statement (.wr32Ctrl0 a) :=
  fun _ => RawOp.format_of_head (f := 1) rfl (by decide)
theorem EncodeFormat.wr32Ctrl1 a : EncodeFormat.Statement (.wr32Ctrl1 a) :=
  fun _ => RawOp.format_of_head (f := 1) rfl (by decide)
theorem EncodeFormat.wr32Ctrl2 a : EncodeFormat.Statement (.wr32Ctrl2 a) :=
  fun _ => RawOp.format_of_head (f := 1) rfl (by decide)
theorem EncodeFormat.wr32Ctrl3 a : EncodeFormat.Statement (.wr32Ctrl3 a) :=
  fun _ => RawOp.format_of_head (f := 1) rfl (by decide)
theorem EncodeFormat.wr32Ctrl4 a : EncodeFormat.Statement (.wr32Ctrl4 a) :=
  fun _ => RawOp.format_of_head (f := 1) rfl (by decide)
theorem EncodeFormat.wr32Seg0 a : EncodeFormat.Statement (.wr32Seg0 a) :=
  fun _ => RawOp.format_of_head (f := 1) rfl (by decide)
theorem EncodeFormat.wr32Seg1 a : EncodeFormat.Statement (.wr32Seg1 a) :=
  fun _ => RawOp.format_of_head (f := 1) rfl (by decide)
theorem EncodeFormat.wr32Seg2 a : EncodeFormat.Statement (.wr32Seg2 a) :=
  fun _ => RawOp.format_of_head (f := 1) rfl (by decide)
theorem EncodeFormat.wr32Seg3 a : EncodeFormat.Statement (.wr32Seg3 a) :=
  fun _ => RawOp.format_of_head (f := 1) rfl (by decide)
theorem EncodeFormat.wr32Seg4 a : EncodeFormat.Statement (.wr32Seg4 a) :=
  fun _ => RawOp.format_of_head (f := 1) rfl (by decide)
theorem EncodeFormat.wr32Misc1 a : EncodeFormat.Statement (.wr32Misc1 a) :=
  fun _ => RawOp.format_of_head (f := 1) rfl (by decide)
theorem EncodeFormat.wr32Misc2 a : EncodeFormat.Statement (.wr32Misc2 a) :=
  fun _ => RawOp.format_of_head (f := 1) rfl (by decide)
theorem EncodeFormat.wr32DmaCtrl a : EncodeFormat.Statement (.wr32DmaCtrl a) :=
  fun _ => RawOp.format_of_head (f := 1) rfl (by decide)
theorem EncodeFormat.wr32DmaFlashAddr a : EncodeFormat.Statement (.wr32DmaFlashAddr a) :=
  fun _ => RawOp.format_of_head (f := 1) rfl (by decide)
theorem EncodeFormat.wr32DmaDramAddr a : EncodeFormat.Statement (.wr32DmaDramAddr a) :=
  fun _ => RawOp.format_of_head (f := 1) rfl (by decide)
theorem EncodeFormat.wr32DmaLen a : EncodeFormat.Statement (.wr32DmaLen a) :=
  fun _ => RawOp.format_of_head (f := 1) rfl (by decide)
theorem EncodeFormat.wr32DmaChecksum a : EncodeFormat.Statement (.wr32DmaChecksum a) :=
  fun _ => RawOp.format_of_head (f := 1) rfl (by decide)
theorem EncodeFormat.wr32Timings a : EncodeFormat.Statement (.wr32Timings a) :=
  fun _ => RawOp.format_of_head (f := 1) rfl (by decide)
theorem EncodeFormat.wr32Unimp a b : EncodeFormat.Statement (.wr32Unimp a b) :=
  fun _ => RawOp.format_of_head (f := 1) rfl (by decide)
theorem EncodeFormat.wr32Oor a b : EncodeFormat.Statement (.wr32Oor a b) :=
  fun _ => RawOp.format_of_head (f := 1) rfl (by decide)
theorem EncodeFormat.ctrlRead a b : EncodeFormat.Statement (.ctrlRead a b) :=
  fun _ => RawOp.format_of_head (f := 2) rfl (by decide)
theorem EncodeFormat.ctrlFastread a b : EncodeFormat.Statement (.ctrlFastread a b) :=
  fun _ => RawOp.format_of_head (f := 2) rfl (by decide)
theorem EncodeFormat.ctrlWrite a b : EncodeFormat.Statement (.ctrlWrite a b) :=
  fun _ => RawOp.format_of_head (f := 2) rfl (by decide)
theorem EncodeFormat.ctrlUser a b : EncodeFormat.Statement (.ctrlUser a b) :=
  fun _ => RawOp.format_of_head (f := 2) rfl (by decide)
theorem EncodeFormat.dmaStop a : EncodeFormat.Statement (.dmaStop a) :=
  fun _ => RawOp.format_of_head (f := 3) rfl (by decide)
theorem EncodeFormat.dmaStartF2d a : EncodeFormat.Statement (.dmaStartF2d a) :=
  fun _ => RawOp.format_of_head (f := 3) rfl (by decide)
theorem EncodeFormat.dmaStartD2f a : EncodeFormat.Statement (.dmaStartD2f a) :=
  fun _ => RawOp.format_of_head (f := 3) rfl (by decide)
theorem EncodeFormat.dmaStartCksum a : EncodeFormat.Statement (.dmaStartCksum a) :=
  fun _ => RawOp.format_of_head (f := 3) rfl (by decide)
theorem EncodeFormat.wConf a : EncodeFormat.Statement (.wConf a) :=
  fun _ => RawOp.format_of_head (f := 4) rfl (by decide)
theorem EncodeFormat.wCe a : EncodeFormat.Statement (.wCe a) :=
  fun _ => RawOp.format_of_head (f := 4) rfl (by decide)
theorem EncodeFormat.wIntr a : EncodeFormat.Statement (.wIntr a) :=
  fun _ => RawOp.format_of_head (f := 4) rfl (by decide)
theorem EncodeFormat.wCtrl a b : EncodeFormat.Statement (.wCtrl a b) :=
  fun _ => RawOp.format_of_head (f := 4) rfl (by decide)
theorem EncodeFormat.wSeg a b : EncodeFormat.Statement (.wSeg a b) :=
  fun _ => RawOp.format_of_head (f := 4) rfl (by decide)
theorem EncodeFormat.wDmactrl a : EncodeFormat.Statement (.wDmactrl a) :=
  fun _ => RawOp.format_of_head (f := 4) rfl (by decide)
theorem EncodeFormat.wAddr a b : EncodeFormat.Statement (.wAddr a b) :=
  fun _ => by cases a <;> exact RawOp.format_of_head (f := 4) rfl (by decide)
theorem EncodeFormat.wLen a : EncodeFormat.Statement (.wLen a) :=
  fun _ => RawOp.format_of_head (f := 4) rfl (by decide)
theorem EncodeFormat.wSum a : EncodeFormat.Statement (.wSum a) :=
  fun _ => RawOp.format_of_head (f := 4) rfl (by decide)
theorem EncodeFormat.wRaw a : EncodeFormat.Statement (.wRaw a) :=
  fun _ => RawOp.format_of_head (f := 4) rfl (by decide)
theorem EncodeFormat.fRd3 a b c : EncodeFormat.Statement (.fRd3 a b c) :=
  fun _ => RawOp.format_of_head (f := 5) rfl (by decide)
theorem EncodeFormat.fRd4 a b c : EncodeFormat.Statement (.fRd4 a b c) :=
  fun _ => RawOp.format_of_head (f := 5) rfl (by decide)
theorem EncodeFormat.fWr3 a b c d : EncodeFormat.Statement (.fWr3 a b c d) :=
  fun _ => RawOp.format_of_head (f := 5) rfl (by decide)
theorem EncodeFormat.fWr4 a b c d : EncodeFormat.Statement (.fWr4 a b c d) :=
  fun _ => RawOp.format_of_head (f := 5) rfl (by decide)
theorem EncodeFormat.fUrd a b c : EncodeFormat.Statement (.fUrd a b c) :=
  fun _ => RawOp.format_of_head (f := 5) rfl (by decide)
theorem EncodeFormat.fUwr a b c d : EncodeFormat.Statement (.fUwr a b c d) :=
  fun _ => RawOp.format_of_head (f := 5) rfl (by decide)
theorem EncodeFormat.frd a b : EncodeFormat.Statement (.frd a b) :=
  fun _ => RawOp.format_of_head (f := 6) rfl (by decide)
theorem EncodeFormat.fwr a b c : EncodeFormat.Statement (.fwr a b c) :=
  fun _ => RawOp.format_of_head (f := 6) rfl (by decide)
theorem EncodeFormat.dmaq : EncodeFormat.Statement .dmaq :=
  fun _ => RawOp.format_of_head (f := 6) rfl (by decide)
theorem EncodeFormat.reset : EncodeFormat.Statement .reset :=
  fun _ => RawOp.format_of_head (f := 6) rfl (by decide)
theorem EncodeFormat.setctrl a b : EncodeFormat.Statement (.setctrl a b) :=
  fun _ => RawOp.format_of_head (f := 7) rfl (by decide)
theorem EncodeFormat.setseg a b : EncodeFormat.Statement (.setseg a b) :=
  fun _ => RawOp.format_of_head (f := 7) rfl (by decide)
theorem EncodeFormat.dmaStart a : EncodeFormat.Statement (.dmaStart a) :=
  fun _ => RawOp.format_of_head (f := 7) rfl (by decide)
theorem EncodeFormat.csLow a : EncodeFormat.Statement (.csLow a) :=
  fun _ => RawOp.format_of_head (f := 7) rfl (by decide)
theorem EncodeFormat.csHigh a : EncodeFormat.Statement (.csHigh a) :=
  fun _ => RawOp.format_of_head (f := 7) rfl (by decide)

end Laws

end Sys2Proof
end

