-- ==== Sys2Proof/Tests/Slice0.lean ====
section
/-! SUPPORT. The model's own tests: the well-formedness smoke test, words written out from the spec's encodings, vectors
of `95_test_vectors.md` and of the rules' own examples, and one witness for each statement that has hypotheses. The
source of each expected value is named beside it. -/

namespace Sys2Proof.Machine.Tests

-- Small states

/-- The state after an operation, where it has one. -/
def after (i : Instr) (s : State) : State :=
  match exec i s with
  | .next t => t
  | _ => s

/-- Has the operation a next state? -/
def runs (i : Instr) (s : State) : Bool :=
  match exec i s with
  | .next _ => true
  | _ => false

/-- The reset state with these words stored. -/
def withWords (ws : List (Nat × Word)) (s : State) : State := ws.foldl (fun t w => t.setWord w.1 w.2) s

/-- `CFG-A` after `WR32 0x10, 0x00000003` (R168): slave 0 in User mode, selected; replies queued. -/
def userMode : State := { after (.wr32Ctrl0 0x00000003#32) State.reset with spiReplies := [0xEF#8, 0x40#8] }

/-- `CFG-A` with `we[0]` set and slave 0 in Write mode with `cmd = 0x02`, deselected (R167, R226); replies queued. -/
def writeMode : State :=
  { withWords [(0, 0x00010000#32), (4, 0x00020006#32)] State.reset with spiReplies := List.replicate 12 0x00#8 }

/-- `CFG-A` with a transfer of 4 bytes in progress, flash 0x20000100 to main memory 0x40001000 (V-S4's addresses), of
this direction and mode. -/
def running (wdir cksum : Bool) : State :=
  { withWords [(32, 0x00000001#32), (33, 0x20000100#32), (34, 0x40001000#32), (2, 0x00000008#32)] State.reset with
    dma := some { wdir := wdir, cksum := cksum, faddr := 0x20000100#32, daddr := 0x40001000#32, rem := 4#32, sum := 0#32 }
    flashImage := [⟨0, 0x100, 0x00#8⟩, ⟨0, 0x101, 0x01#8⟩, ⟨0, 0x102, 0x02#8⟩, ⟨0, 0x103, 0x03#8⟩] }

-- Well-formedness: each check refuses an ill-formed operation

theorem test_wf_slave_index : Instr.wf Config.cfgA (.wCtrl 5 0#32) = false := by decide
theorem test_wf_size : Instr.wf Config.cfgA (.frd 0x20000000#32 0) = false
    ∧ Instr.wf Config.cfgA (.frd 0x20000000#32 5) = false := by decide
theorem test_wf_data : Instr.wf Config.cfgA (.fwr 0x20000000#32 1 0x100#32) = false := by decide
theorem test_wf_unimp_read : Instr.wf Config.cfgA (.rd32Unimp 0x10#32) = false
    ∧ Instr.wf Config.cfgA (.rd32Unimp 0x50#32) = false := by decide
theorem test_wf_unimp_write : Instr.wf (Config.ofVariant .legacy) (.wr32Unimp 0x90#32 0#32) = false := by decide
theorem test_wf_out_of_range : Instr.wf Config.cfgA (.rd32Oor 0xFC#32) = false
    ∧ Instr.wf Config.cfgA (.wr32Oor 0x0C#32 0#32) = false := by decide
theorem test_wf_checksum : Instr.wf { Config.cfgB with rTimings := 0x90 } (.wr32DmaChecksum 0#32) = false := by decide
theorem test_wf_absent_registers : Instr.wf Config.cfgB .rd32Ctrl2 = false ∧ Instr.wf Config.cfgB .rd32Seg2 = false
    ∧ Instr.wf Config.cfgB .rd32DmaCtrl = false := by decide
theorem test_wf_control_mode : Instr.wf Config.cfgA (.ctrlRead 0 0x3#32) = false
    ∧ Instr.wf Config.cfgA (.ctrlUser 0 0x4#32) = false := by decide
theorem test_wf_dma_words : Instr.wf Config.cfgA (.dmaStop 1#32) = false ∧ Instr.wf Config.cfgA (.dmaStartF2d 3#32) = false
    ∧ Instr.wf Config.cfgA (.dmaStartD2f 1#32) = false ∧ Instr.wf Config.cfgA (.dmaStartCksum 3#32) = false
    ∧ Instr.wf Config.cfgA (.dmaStart 2#32) = false := by decide

-- Decoding: every constructor, from words written out by hand (R22, R90 to R94, R99, R102; the head is log 2's)

theorem test_decode_reads :
    [0x00#32, 0x04#32, 0x08#32, 0x10#32, 0x14#32, 0x18#32, 0x1C#32, 0x20#32, 0x30#32, 0x34#32, 0x38#32, 0x3C#32,
        0x40#32, 0x50#32, 0x54#32, 0x80#32, 0x84#32, 0x88#32, 0x8C#32, 0x90#32, 0x94#32, 0x0C#32, 0x100#32].map
      (fun off => decode Config.cfgA ⟨off, 0x00000000#32, 0x00040000#32⟩)
    = [.rd32Conf, .rd32CeCtrl, .rd32IntrCtrl, .rd32Ctrl0, .rd32Ctrl1, .rd32Ctrl2, .rd32Ctrl3, .rd32Ctrl4, .rd32Seg0,
        .rd32Seg1, .rd32Seg2, .rd32Seg3, .rd32Seg4, .rd32Misc1, .rd32Misc2, .rd32DmaCtrl, .rd32DmaFlashAddr,
        .rd32DmaDramAddr, .rd32DmaLen, .rd32DmaChecksum, .rd32Timings, .rd32Unimp 0x0C#32, .rd32Oor 0x100#32].map
      Except.ok := by decide

theorem test_decode_writes :
    [0x00#32, 0x04#32, 0x08#32, 0x10#32, 0x14#32, 0x18#32, 0x1C#32, 0x20#32, 0x30#32, 0x34#32, 0x38#32, 0x3C#32,
        0x40#32, 0x50#32, 0x54#32, 0x80#32, 0x84#32, 0x88#32, 0x8C#32, 0x90#32, 0x94#32, 0x0C#32, 0x100#32].map
      (fun off => decode Config.cfgA ⟨off, 0x12345678#32, 0x00040001#32⟩)
    = ([.wr32Conf, .wr32CeCtrl, .wr32IntrCtrl, .wr32Ctrl0, .wr32Ctrl1, .wr32Ctrl2, .wr32Ctrl3, .wr32Ctrl4, .wr32Seg0,
        .wr32Seg1, .wr32Seg2, .wr32Seg3, .wr32Seg4, .wr32Misc1, .wr32Misc2, .wr32DmaCtrl, .wr32DmaFlashAddr,
        .wr32DmaDramAddr, .wr32DmaLen, .wr32DmaChecksum, .wr32Timings, .wr32Unimp 0x0C#32,
        .wr32Oor 0x100#32].map (fun op : Word → Instr => op 0x12345678#32)).map Except.ok := by decide

theorem test_decode_control_words :
    [0x00000004#32, 0x000B0005#32, 0x00020006#32, 0x00000003#32].map
      (fun w => decode Config.cfgA ⟨0#32, w, 0x01000002#32⟩)
    = [.ctrlRead 1 0x00000004#32, .ctrlFastread 1 0x000B0005#32, .ctrlWrite 1 0x00020006#32,
        .ctrlUser 1 0x00000003#32].map Except.ok := by decide

theorem test_decode_dma_words :
    [0x00000000#32, 0x00000001#32, 0x00000003#32, 0x00000005#32, 0x00000007#32, 0x00000FFE#32].map
      (fun w => decode Config.cfgA ⟨0#32, w, 0x00000003#32⟩)
    = [.dmaStop 0x00000000#32, .dmaStartF2d 0x00000001#32, .dmaStartD2f 0x00000003#32, .dmaStartCksum 0x00000005#32,
        .dmaStartCksum 0x00000007#32, .dmaStop 0x00000FFE#32].map Except.ok := by decide

theorem test_decode_register_words :
    [0x00000004#32, 0x00000104#32, 0x00000204#32, 0x03000304#32, 0x04000404#32, 0x00000504#32, 0x00000604#32,
        0x01000604#32, 0x00000704#32, 0x00000804#32, 0x00000904#32].map
      (fun h => decode Config.cfgA ⟨0#32, 0x00010000#32, h⟩)
    = [.wConf 0x00010000#32, .wCe 0x00010000#32, .wIntr 0x00010000#32, .wCtrl 3 0x00010000#32, .wSeg 4 0x00010000#32,
        .wDmactrl 0x00010000#32, .wAddr .flash 0x00010000#32, .wAddr .dram 0x00010000#32, .wLen 0x00010000#32,
        .wSum 0x00010000#32, .wRaw 0x00010000#32].map Except.ok := by decide

theorem test_decode_frames :
    [decode Config.cfgA ⟨0x00000010#32, 0#32, 0x00040005#32⟩, decode Config.cfgA ⟨0x01ABCDEF#32, 0#32, 0x02010105#32⟩,
        decode Config.cfgA ⟨0x00001234#32, 0xDDCCBBAA#32, 0x00040205#32⟩,
        decode Config.cfgA ⟨0x01ABCDEF#32, 0x0000BEEF#32, 0x00020305#32⟩,
        decode Config.cfgA ⟨0#32, 0#32, 0x00020405#32⟩, decode Config.cfgA ⟨0#32, 0x9F#32, 0x04010505#32⟩]
    = [.fRd3 0 0x00000010#32 4, .fRd4 2 0x01ABCDEF#32 1, .fWr3 0 0x00001234#32 4 0xDDCCBBAA#32,
        .fWr4 0 0x01ABCDEF#32 2 0x0000BEEF#32, .fUrd 0 0#32 2, .fUwr 4 0#32 1 0x9F#32].map Except.ok := by decide

theorem test_decode_ports_and_pseudo :
    [decode Config.cfgA ⟨0x20000000#32, 0#32, 0x00020006#32⟩, decode Config.cfgA ⟨0x20001234#32, 0xAA#32, 0x00010106#32⟩,
        decode Config.cfgA ⟨0#32, 0#32, 0x00000206#32⟩, decode Config.cfgA ⟨0#32, 0#32, 0x00000306#32⟩,
        decode Config.cfgA ⟨0#32, 0x3#32, 0x01000007#32⟩, decode Config.cfgA ⟨0#32, 0x4C480000#32, 0x01000107#32⟩,
        decode Config.cfgA ⟨0#32, 0x5#32, 0x00000207#32⟩, decode Config.cfgA ⟨0#32, 0#32, 0x02000307#32⟩,
        decode Config.cfgA ⟨0#32, 0#32, 0x02000407#32⟩]
    = [.frd 0x20000000#32 2, .fwr 0x20001234#32 1 0xAA#32, .dmaq, .reset, .setctrl 1 0x3#32, .setseg 1 0x4C480000#32,
        .dmaStart 0x5#32, .csLow 2, .csHigh 2].map Except.ok := by decide

/-- Each reason to reject (R65, R71; I7, I8). -/
theorem test_decode_rejects :
    [decode Config.cfgA ⟨0#32, 0#32, 0x00000008#32⟩, decode Config.cfgA ⟨0#32, 0#32, 0x00000A04#32⟩,
        decode Config.cfgA ⟨0x10#32, 0#32, 0x00010000#32⟩, decode Config.cfgA ⟨0x11#32, 0#32, 0x00040000#32⟩,
        decode Config.cfgA ⟨0x20000000#32, 0#32, 0x00050006#32⟩, decode Config.cfgA ⟨0x20000000#32, 0x100#32, 0x00010106#32⟩,
        decode Config.cfgA ⟨0#32, 0#32, 0x05000304#32⟩, decode Config.cfgA ⟨0x10#32, 1#32, 0x00040000#32⟩,
        decode Config.cfgA ⟨0#32, 2#32, 0x00000207#32⟩]
    = [.unknownFormat, .unknownRow, .registerSize, .registerAlignment, .windowSize, .dataTooWide, .slaveIndex, .unusedBits,
        .startWithoutEnable].map Except.error := by decide

/-- An offset that a smaller variant lacks is unimplemented there (R133). -/
theorem test_decode_absent : decode Config.cfgB (rawRead 0x80#32) = .ok (.rd32Unimp 0x80#32)
    ∧ decode Config.cfgB (rawRead 0x38#32) = .ok (.rd32Unimp 0x38#32) := by decide

/-- Two rows of the opcode table, as the host presents them. -/
theorem test_decode_table_words : decodeTableWord 32 0x10 = some .rd32Ctrl0
    ∧ decodeTableWord 2 3 = some (.ctrlUser 0 3#32) := by decide

-- Reset (R47; CFG-A's and CFG-B's reset values, 95_test_vectors.md section 1)

theorem test_reset_segments : [12, 13, 14, 15, 16].map State.reset.word
    = [0x48400000#32, 0x4C480000#32, 0x504C0000#32, 0x54500000#32, 0x58540000#32] := by decide
theorem test_reset_cfg_b : [12, 13, 4, 5, 0].map (State.resetOf Config.cfgB).word
    = [0x64600000#32, 0x70640000#32, 4#32, 4#32, 0#32] := by decide
theorem test_reset_deselects : (after .reset userMode).csOut = List.replicate 5 .inactive
    ∧ (after .reset userMode).romd 0 = true ∧ (after .reset userMode).word 4 = 4#32 := by decide

-- Registers (the examples of R132 to R138, R141)

theorem test_read_ctrl0 : (after .rd32Ctrl0 State.reset).reply = some 0x00000004#32 := by decide
theorem test_read_out_of_range : (after (.rd32Oor 0x100#32) State.reset).reply = some 0#32
    ∧ (after (.rd32Oor 0x100#32) State.reset).log = [.ge1] := by decide
theorem test_read_without_engine : (after .rd32DmaCtrl (State.resetOf (Config.ofVariant .legacy))).log = [.u1] := by decide
theorem test_write_conf : (after (.wr32Conf 0x00010000#32) State.reset).word 0 = 0x00010000#32 := by decide
theorem test_write_timings : (after (.wr32Timings 0xDEADBEEF#32) State.reset).word 37 = 0xDEADBEEF#32 := by decide
theorem test_write_misc : (after (.wr32Misc1 0xFFFFFFFF#32) State.reset).word 20 = 0#32
    ∧ (after (.wr32Misc1 0xFFFFFFFF#32) State.reset).log = [.u2] := by decide
theorem test_write_checksum : (after (.wr32DmaChecksum 7#32) State.reset).word 36 = 0#32
    ∧ (after (.wr32DmaChecksum 7#32) State.reset).log = [.u2] := by decide

-- Control registers and chip selects (R161, R168, R102)

theorem test_user_mode : userMode.word 4 = 3#32 ∧ userMode.romd 0 = false ∧ userMode.csLevel 0 = .active := by decide
theorem test_cs_high : (after (.csHigh 0) userMode).word 4 = 7#32 ∧ (after (.csHigh 0) userMode).csLevel 0 = .inactive := by
  decide
theorem test_cs_low : (after (.csLow 1) State.reset).word 5 = 0#32 ∧ (after (.csLow 1) State.reset).csLevel 1 = .active := by
  decide

-- Segments (V-S2, R193, the three readings of D10)

theorem test_seg0_corrected : (after (.wr32Seg0 0x4C420000#32) State.reset).word 12 = 0x4A400000#32
    ∧ (after (.wr32Seg0 0x4C420000#32) State.reset).win 0 = ⟨0x20000000, 0x05000000⟩
    ∧ (after (.wr32Seg0 0x4C420000#32) State.reset).log = [.ge3, .ge6, .ge7] := by decide +kernel
theorem test_seg0_end_reading :
    (after (.wr32Seg0 0x4C420000#32) (State.resetOf { Config.cfgA with seg0Keeps := .endField })).word 12
      = 0x4C400000#32 := by decide
theorem test_seg1_discarded : (after (.wr32Seg1 0x68600000#32) State.reset).word 13 = 0x4C480000#32
    ∧ (after (.wr32Seg1 0x40480000#32) State.reset).log = [.ge5] := by decide
theorem test_seg1_low_bits : (after (.setseg 1 0x4C48FFFF#32) State.reset).word 13 = 0x4C48FFFF#32 := by decide

-- Frames (the examples of R221, R222, R225, R226, R227)

theorem test_framed_write : (after (.fwr 0x20001234#32 4 0xDDCCBBAA#32) writeMode).trace
    = [.cs 0 .active, .xfer 0x02#8 0#8, .xfer 0x00#8 0#8, .xfer 0x12#8 0#8, .xfer 0x34#8 0#8, .xfer 0xAA#8 0#8,
        .xfer 0xBB#8 0#8, .xfer 0xCC#8 0#8, .xfer 0xDD#8 0#8, .cs 0 .inactive] := by decide
theorem test_framed_write_4_byte : sentBytes (after (.fwr 0x21ABCDEF#32 2 0xBEEF#32) (writeMode.setWord 1 1#32)).trace
    = [0xB7#8, 0x02#8, 0x01#8, 0xAB#8, 0xCD#8, 0xEF#8, 0xEF#8, 0xBE#8] := by decide
theorem test_framed_read : (after (.fRd3 0 0x000010#32 4)
      { State.reset with spiReplies := [0#8, 0#8, 0#8, 0#8, 0x11#8, 0x22#8, 0x33#8, 0x44#8] }).reply
    = some 0x44332211#32 := by decide
theorem test_user_read : (after (.frd 0x20000000#32 2) userMode).reply = some 0x40EF#32
    ∧ (after (.frd 0x20000000#32 2) userMode).trace = userMode.trace ++ [.xfer 0#8 0xEF#8, .xfer 0#8 0x40#8] := by decide
theorem test_user_write : sentBytes (after (.fwr 0x20000000#32 1 0x9F#32) (userMode.setWord 0 0x00010000#32)).trace
    = [0x9F#8] := by decide
theorem test_write_refused : (after (.fwr 0x20000000#32 1 0x9F#32) userMode).trace = userMode.trace
    ∧ (after (.fwr 0x20000000#32 1 0x9F#32) userMode).log = [.ge8] := by decide

-- DMA (V-S4, V-S5, V-S6, R250 to R255, R261 to R264)

theorem test_dma_operands : (after (.wr32DmaFlashAddr 0xFFFFFFFF#32) State.reset).word 33 = 0x2FFFFFFC#32
    ∧ (after (.wr32DmaDramAddr 0x00100000#32) State.reset).word 34 = 0x40100000#32
    ∧ (after (.wr32DmaLen 0xFFFFFFFF#32) State.reset).word 35 = 0x01FFFFFC#32 := by decide
theorem test_dma_copy : (after .dmaq (running false false)).dram.read32 0x40001000#32 = 0x03020100#32
    ∧ (after .dmaq (running false false)).word 33 = 0x20000104#32 := by decide
theorem test_dma_completion : (after .dmaq (running false false)).irq = .high
    ∧ (after .dmaq (running false false)).word 2 = 0x00000808#32 ∧ (after .dmaq (running false false)).dma = none := by
  decide
theorem test_dma_checksum : (after .dmaq (running false true)).word 36 = 0x03020100#32
    ∧ (after .dmaq (running false true)).word 34 = 0x40001000#32 := by decide
theorem test_dma_to_flash_refused : (after .dmaq (running true false)).log = [.ge8]
    ∧ (after .dmaq (running true false)).word 35 = 0#32 := by decide
theorem test_dma_stop : (after (.dmaStop 0#32) (after .dmaq (running false false))).word 2 = 0x00000008#32
    ∧ (after (.dmaStop 0#32) (after .dmaq (running false false))).irq = .low
    ∧ (after (.dmaStop 0#32) (after .dmaq (running false false))).word 33 = 0#32 := by decide
theorem test_dma_busy : (after (.wr32DmaCtrl 7#32) (running false false)).word 32 = 1#32
    ∧ (after (.wr32DmaCtrl 7#32) (running false false)).log = [.ge9] := by decide
theorem test_dma_start : ((after (.dmaStart 5#32) State.reset).dma.map fun t => (t.cksum, t.wdir, t.rem))
    = some (true, false, 4#32) := by decide

-- Witnesses: a concrete state and operands that meet the hypotheses of each statement, clause by clause

/-- The reset states of the witnesses: `CFG-A`, `CFG-B` and the AST2500 3-slave variant. -/
theorem witness_shape : State.reset.Shape ∧ (State.resetOf Config.cfgB).Shape
    ∧ (State.resetOf (Config.ofVariant .ast2500Fmc)).Shape := by
  unfold State.Shape; exact ⟨by decide, by decide, by decide⟩

/-- All six variants have valid default configurations. -/
theorem witness_variants_valid : ∀ v : Variant, (Config.ofVariant v).Valid := by
  intro v; cases v <;> decide

/-- The state after reset meets the parts of the invariant. -/
theorem witness_invariant : State.reset.WindowsMatch ∧ State.reset.RomdMatches ∧ State.reset.WindowsInside
    ∧ State.reset.UnnamedZero ∧ State.reset.QuietWithoutDma ∧ State.reset.MemoryWf := by
  refine ⟨?_, ?_, ?_, ?_, ?_, rfl⟩
  · unfold State.WindowsMatch; decide
  · unfold State.RomdMatches; decide
  · unfold State.WindowsInside; decide
  · unfold State.UnnamedZero; decide
  · unfold State.QuietWithoutDma; decide

/-- The running transfer meets the parts of the invariant, so it meets the hypotheses of the runs. -/
theorem witness_running_invariant : (running false false).Shape ∧ (running false false).WindowsMatch
    ∧ (running false false).RomdMatches ∧ (running false false).WindowsInside ∧ (running false false).UnnamedZero
    ∧ (running false false).QuietWithoutDma ∧ (running false false).MemoryWf := by
  refine ⟨?_, ?_, ?_, ?_, ?_, ?_, rfl⟩
  · unfold State.Shape; decide
  · unfold State.WindowsMatch; decide
  · unfold State.RomdMatches; decide
  · unfold State.WindowsInside; decide
  · unfold State.UnnamedZero; decide
  · unfold State.QuietWithoutDma; decide

theorem witness_LengthsSound : State.reset.LengthsSound ∧ (running false false).LengthsSound := by
  unfold State.LengthsSound
  refine ⟨fun _ => ⟨by decide, fun t ht => by cases ht⟩, fun _ => ⟨by decide, fun t ht => ?_⟩⟩
  have h : some _ = some t := ht
  simp only [Option.some.injEq] at h
  subst h; decide

theorem witness_ResetMeetsTheInvariants : Config.cfgA.Valid ∧ Config.cfgB.Valid := by decide
theorem witness_DecodeOfEncode : (Config.cfgA.Valid ∧ Config.cfgA.OffsetsFit)
    ∧ Instr.wf Config.cfgA (.fWr4 4 0xFFFFFFFF#32 4 0xFFFFFFFF#32) = true := by decide
/-- R7 bounds NREGS below only. -/
theorem test_nregs_unbounded : ({ Config.cfgA with nregs := 0x40000001 } : Config).Valid := by decide
theorem witness_EncodeOfDecode : Config.cfgA.Valid ∧ decode Config.cfgA ⟨0x10#32, 0#32, 0x00040000#32⟩ = .ok .rd32Ctrl0 := by
  decide
theorem witness_StepRunsTheDecodedOperation : State.reset.cfg.Valid
    ∧ ({ State.reset with pending := [rawRead 0x10#32] } : State).pending = [rawRead 0x10#32]
    ∧ decode State.reset.cfg (rawRead 0x10#32) = .ok .rd32Ctrl0 := by decide
theorem witness_StepOtherwise : (State.reset.cfg.Valid ∧ State.reset.pending = [])
    ∧ decode State.reset.cfg ⟨0x11#32, 0#32, 0x00040000#32⟩ = .error .registerAlignment
    ∧ ¬ ({ Config.cfgA with dmaLenMask := 0x01FFFFFF#32 } : Config).Valid := by decide
theorem witness_OnlyTheNamedStops : exec (.fRd3 5 0#32 1) State.reset = .refused .noSuchChannel
    ∧ exec (.frd 0x2BFFFFFE#32 4) State.reset = .refused .straddlesWindow := ⟨rfl, rfl⟩
theorem witness_StopsByName : State.reset.channelsAt 0x2BFFFFFE = [4]
    ∧ (State.reset.win 4).addr + (State.reset.win 4).size < 0x2BFFFFFE + 4
    ∧ ({ running false false with dma := some ⟨false, false, 0x2BFFFFFE#32, 0#32, 4#32, 0#32⟩ } : State).transfer.isSome = true
    ∧ ((running false false).word 32).getLsbD 0 = true ∧ State.reset.cfg.maxSlaves ≤ 5 := by decide
theorem witness_ResetIsIdempotentAndComplete : State.reset.cfg = (running true true).cfg := by decide
theorem witness_ClampOnlyAtConstruction : (State.construct Config.cfgB 3).log = [.w1]
    ∧ (State.construct Config.cfgB 2).log = [] ∧ runs .rd32Conf State.reset = true := by decide
theorem witness_StoredRegistersAreRead : State.reset.cfg.Valid ∧ Instr.wf State.reset.cfg .rd32Ctrl4 = true
    ∧ Instr.wf State.reset.cfg .rd32Seg4 = true ∧ Instr.wf State.reset.cfg .rd32DmaChecksum = true := by decide
/-- The two clauses of the unimplemented reads and the clauses of the ignored writes, each on an instance where it
applies. -/
theorem witness_UnimplementedReads : Instr.wf (Config.ofVariant .ast2500Fmc) .rd32Ctrl3 = false
    ∧ Instr.wf (Config.ofVariant .ast2500Fmc) .rd32Seg3 = false ∧ Instr.wf Config.cfgB .rd32DmaCtrl = false := by decide
theorem witness_UnimplementedWrites : Instr.wf (Config.ofVariant .ast2500Fmc) (.wr32Ctrl3 0#32) = false
    ∧ Instr.wf Config.cfgB (.wr32DmaCtrl 0#32) = false ∧ (Config.ofVariant .ast2500Fmc).numCs ≤ 3
    ∧ (Config.ofVariant .ast2500Fmc).maxSlaves ≤ 3 ∧ Config.cfgB.hasDma = false := by decide
/-- The three clauses of a register read or write by offset, at the boundaries 0xFC, 0x100 and the last named word. -/
theorem witness_EveryRegisterReadCompletes : (0x100#32 : Word).toNat % 4 = 0 ∧ Config.cfgA.nregs ≤ (0x100#32 : Word).toNat / 4
    ∧ (0xFC#32 : Word).toNat / 4 < Config.cfgA.nregs ∧ (0xFC#32 : Word).toNat ∉ recognisedOffsets Config.cfgA
    ∧ (0x94#32 : Word).toNat ∈ recognisedOffsets Config.cfgA := by decide
theorem witness_EveryRegisterWriteCompletes : Config.cfgA.Valid ∧ (0x90#32 : Word).toNat % 4 = 0 ∧ Config.cfgA.hasDma = true
    ∧ (0x90#32 : Word).toNat / 4 < Config.cfgA.nregs ∧ (0x0C#32 : Word).toNat ∉ recognisedOffsets Config.cfgA := by decide
theorem witness_RegisterWritesStayInside : decode Config.cfgA (rawWrite 0x80#32 0#32) = .ok (.wr32DmaCtrl 0#32)
    ∧ runs (.wr32DmaCtrl 0#32) State.reset = true ∧ (after .dmaq (running false false)).irq = .high
    ∧ (after (.wr32DmaCtrl 0#32) (after .dmaq (running false false))).irq = .low
    ∧ (after (.wr32Ctrl4 0#32) State.reset).csOut ≠ State.reset.csOut := by decide
theorem witness_SegmentRoundTrip : (0x2A000000 : Nat) % 8388608 = 0 ∧ (0x02000000 : Int) % 8388608 = 0
    ∧ (0x2A000000 : Nat) ≤ 0xFF * 8388608 ∧ (0 : Int) ≤ (0x2A000000 : Nat) + 0x02000000
    ∧ ((0x2A000000 : Nat) : Int) + 0x02000000 ≤ 0xFF * 8388608 := by decide
theorem witness_SegmentWriteOfTheSameWord : State.reset.cfg.Valid ∧ 4 < State.reset.cfg.maxSlaves
    ∧ State.reset.word 16 = 0x58540000#32 := by decide
/-- The branches of a segment write: accepted as written, accepted after each correction, and discarded. -/
theorem witness_SegmentWrite : 0x50480000#32 ≠ State.reset.word 13 ∧ State.reset.cfg.seg0Keeps = .size
    ∧ (after (.wr32Seg1 0x50480000#32) State.reset).log = [.ge7]
    ∧ (after (.wr32Seg1 0x50480000#32) State.reset).word 13 = 0x50480000#32
    ∧ (after (.wSeg 1 0x68640000#32) (State.resetOf Config.cfgB)).word 13 = 0x70640000#32
    ∧ (after (.wSeg 1 0x68640000#32) (State.resetOf Config.cfgB)).log = [.ge4, .ge6] := by decide +kernel
/-- The premise under the other reading: another segment, and SEG(0) with the base as start. -/
theorem witness_SegmentWrite_keepsEnd : (1 : Nat) ≠ 0 ∧ Word.field 0x44400000#32 23 16 * 8388608 = Config.cfgA.flashBase
    ∧ 0x44400000#32 ≠ State.reset.word 12 := by decide +kernel
/-- The other reading of the start correction in CFG-A, and a one-slave variant whose one window has a fixed end. -/
def keepsEnd : State := State.resetOf { Config.cfgA with seg0Keeps := .endField }
def oneSlaveFixed : State :=
  State.resetOf { Config.ofVariant .spi with seg0Keeps := .endField, fixedLastEnd := true }
/-- Every branch: accepted with the end kept, discarded, and with a fixed end corrected too. -/
theorem witness_SegmentZeroKeepsItsEnd : keepsEnd.Shape ∧ oneSlaveFixed.Shape ∧ 0x4C420000#32 ≠ keepsEnd.word 12
    ∧ Word.field 0x4C420000#32 23 16 * 8388608 ≠ Config.cfgA.flashBase
    ∧ (after (.wr32Seg0 0x4C420000#32) keepsEnd).word 12 = 0x4C400000#32
    ∧ (after (.wr32Seg0 0x4C420000#32) keepsEnd).log = [.ge3, .ge6, .ge7]
    ∧ (after (.wr32Seg0 0x20420000#32) keepsEnd).log = [.ge3, .ge5]
    ∧ (after (.wr32Seg0 0x6C620000#32) oneSlaveFixed).word 12 = 0x68600000#32
    ∧ (after (.wr32Seg0 0x6C620000#32) oneSlaveFixed).log = [.ge3, .ge4] :=
  ⟨by unfold State.Shape; decide, by unfold State.Shape; decide, by decide +kernel, by decide +kernel, by decide +kernel,
    by decide +kernel, by decide +kernel, by decide +kernel, by decide +kernel⟩
theorem witness_ControlWrite : 4 < State.reset.cfg.numCs ∧ 0 < (State.resetOf Config.cfgB).cfg.numCs := by decide
theorem witness_PseudoOperationsExpand :
    decode Config.cfgA (rawWrite (offsetWord (Config.cfgA.rCtrl0 + 4 * 4)) 3#32) = .ok (.wr32Ctrl4 3#32)
    ∧ decode Config.cfgA (rawWrite (offsetWord (0x30 + 4 * 4)) 3#32) = .ok (.wr32Seg4 3#32)
    ∧ decode Config.cfgA (rawWrite 0x80#32 1#32) = .ok (.wr32DmaCtrl 1#32)
    ∧ decode Config.cfgA (rawWrite 0x80#32 0#32) = .ok (.wr32DmaCtrl 0#32) ∧ Config.cfgA.hasDma = true
    ∧ decode Config.cfgA (rawRead (offsetWord (Config.cfgA.rCtrl0 + 4 * 4))) = .ok .rd32Ctrl4
    ∧ (after .rd32Ctrl4 State.reset).reply = some 4#32
    ∧ decode Config.cfgA (rawWrite (offsetWord (Config.cfgA.rCtrl0 + 4 * 4)) 0#32) = .ok (.wr32Ctrl4 0#32)
    ∧ decode Config.cfgA (rawWrite (offsetWord (Config.cfgA.rCtrl0 + 4 * 4)) 4#32) = .ok (.wr32Ctrl4 4#32) := by decide
/-- Both clauses of CS.LOW and CS.HIGH: the last slave with a control register, and the first without. -/
theorem witness_ChipSelectPulses : (State.resetOf { Config.cfgA with numCs := 1 }).Shape ∧ 0 < 1 ∧ 1 ≤ 1
    ∧ 1 < Config.cfgA.maxSlaves
    ∧ (after (.csLow 1) (State.resetOf { Config.cfgA with numCs := 1 })).log = [.u1, .u2] :=
  ⟨by unfold State.Shape; decide, by decide, by decide, by decide, by decide⟩
theorem witness_DmaOperandWrites : State.reset.cfg.hasDma = true := by decide
theorem witness_DisableWrite : State.reset.cfg.hasDma = true ∧ (0xFFFFFFFE#32 : Word).getLsbD 0 = false := by decide
theorem witness_StartWhileBusyIsRejected : (running false false).cfg.hasDma = true ∧ (7#32 : Word).getLsbD 0 = true ∧ ((running false false).word 32).getLsbD 0 = true
    ∧ ((running false false).word 2).getLsbD 11 = false ∧ (running false false).cfg.Valid := by decide
/-- Both ways in which a start is accepted: idle, and done. -/
theorem witness_StartForms : (State.reset.word 32).getLsbD 0 = false
    ∧ ((after .dmaq (running false false)).word 32).getLsbD 0 = true
    ∧ ((after .dmaq (running false false)).word 2).getLsbD 11 = true := by decide
theorem witness_RomDecodeRead : DecodedBy State.reset 0x2BFFFFFC 4 4 ∧ State.reset.romd 4 = true
    ∧ State.reset.cfg.storageAttached 4 = true :=
  ⟨by unfold DecodedBy; decide, by decide, by decide⟩
theorem witness_UserRead : 0 < userMode.cfg.maxSlaves ∧ userMode.mode 0 = .user ∧ DecodedBy userMode 0x23FFFFFF 1 0
    ∧ userMode.romd 0 = false :=
  ⟨by decide, by decide, by unfold DecodedBy; decide, by decide⟩
/-- User mode with the write-enable bit set, and with the switch of D18 off. -/
theorem witness_UserWrite : (userMode.setWord 0 0x00010000#32).mode 0 = .user
    ∧ enabledToWrite (userMode.setWord 0 0x00010000#32) 0 = true
    ∧ DecodedBy (userMode.setWord 0 0x00010000#32) 0x20000000 4 0
    ∧ ({ Config.cfgA with weGatesUser := false } : Config).weGatesUser = false :=
  ⟨by decide, by decide, by unfold DecodedBy; decide, rfl⟩
/-- A framed read of a channel, with the chip select inactive and with it already active. -/
theorem witness_FramedRead : State.reset.Shape ∧ 4 < State.reset.cfg.maxSlaves ∧ State.reset.mode 4 ≠ .user
    ∧ State.reset.csLevel 4 = .inactive ∧ (after (.wr32Ctrl4 0#32) State.reset).mode 4 ≠ .user
    ∧ (after (.wr32Ctrl4 0#32) State.reset).csLevel 4 = .active :=
  ⟨witness_shape.1, by decide, by decide, by decide, by decide, by decide⟩
/-- A framed access to a slave without a chip-select output. -/
theorem witness_FramedRead_no_output : (State.resetOf { Config.cfgA with numCs := 1 }).Shape
    ∧ 4 < Config.cfgA.maxSlaves ∧ (State.resetOf { Config.cfgA with numCs := 1 }).mode 4 ≠ .user :=
  ⟨by unfold State.Shape; decide, by decide, by decide⟩
/-- The reset state with every ROM-decode flag clear: a framed read through the window. -/
def notRomDecoded : State := { State.reset with chan := State.reset.chan.map (fun ch => { ch with romd := false }) }
theorem witness_FramedRead_window : notRomDecoded.Shape ∧ notRomDecoded.mode 0 ≠ .user
    ∧ DecodedBy notRomDecoded 0x20000010 4 0 ∧ notRomDecoded.romd 0 = false :=
  ⟨by unfold State.Shape; decide, by decide, by unfold DecodedBy; decide, by decide⟩
theorem witness_FramedWrite : writeMode.Shape ∧ 0 < writeMode.cfg.maxSlaves ∧ writeMode.mode 0 ≠ .user
    ∧ enabledToWrite writeMode 0 = true ∧ DecodedBy writeMode 0x20001234 4 0 :=
  ⟨by unfold State.Shape; decide, by decide, by decide, by decide, by unfold DecodedBy; decide⟩
theorem witness_WriteWithoutEnableIsRefused : enabledToWrite userMode 0 = false ∧ userMode.cfg.weGatesUser = true
    ∧ DecodedBy userMode 0x20000000 1 0 ∧ State.reset.mode 4 ≠ .user ∧ enabledToWrite State.reset 4 = false :=
  ⟨by decide, by decide, by unfold DecodedBy; decide, by decide, by decide⟩
/-- `CFG-A` without storage. -/
def bare : State := State.resetOf { Config.cfgA with storage := List.replicate 5 false }
theorem witness_NoStorageReadsZero : bare.Shape ∧ 4 < bare.cfg.maxSlaves ∧ bare.cfg.storageAttached 4 = false
    ∧ ∀ j, j ≠ 4 → bare.csLevel j = .inactive := by
  refine ⟨by unfold State.Shape; decide, by decide, by decide, fun j _ => ?_⟩
  match j with
  | 0 | 1 | 2 | 3 | 4 => rfl
  | _ + 5 => rfl
/-- CFG-A without storage on slave 1: slave 0 in User mode and deselected, slave 1 selected (R81). -/
def bareSelected : State :=
  { after (.wr32Ctrl1 0#32) (after (.wr32Ctrl0 0x00000007#32)
      (State.resetOf { Config.cfgA with storage := [true, false, true, true, true] })) with spiReplies := [0xEF#8] }
/-- A User-mode read through the window of a channel with storage, while the one selected slave has none (R81). -/
theorem witness_NoStorageReadsZero_selected : bareSelected.mode 0 = .user ∧ bareSelected.romd 0 = false
    ∧ bareSelected.csLevel 1 = .active ∧ bareSelected.cfg.storageAttached 1 = false
    ∧ DecodedBy bareSelected 0x20000000 1 0 ∧ bareSelected.selected = [1] :=
  ⟨by decide, by decide, by decide, by decide, by unfold DecodedBy; decide, by decide⟩
/-- R81: that read answers 0 and consumes no reply. -/
theorem test_selected_without_storage : (after (.frd 0x20000000#32 1) bareSelected).reply = some 0#32
    ∧ (after (.frd 0x20000000#32 1) bareSelected).spiReplies = [0xEF#8] := by decide
/-- R345: with two slaves selected the reply is the bus's, also for a channel without storage. -/
theorem test_contention : (after (.fUrd 0 0#32 1) (after (.csLow 2) bareSelected)).reply = some 0xEF#32 := by decide
theorem witness_HoleAccess : State.reset.channelsAt 0x2C000000 = [] ∧ State.reset.channelsAt 0 = [] := by decide
theorem witness_OverlapAccess : 2 ≤ ((after (.wr32Seg1 0x50480000#32) State.reset).channelsAt 0x26000000).length
    ∧ NoStraddle (after (.wr32Seg1 0x50480000#32) State.reset) 0x26000000 4 := by
  unfold NoStraddle; decide +kernel
theorem witness_AccessesWriteNoRegister : runs (.fwr 0x20001234#32 1 0xAA#32) writeMode = true
    ∧ runs (.frd 0x20000000#32 2) userMode = true := by decide
theorem witness_LittleEndianRoundTrip : (0xFFFFFFFF#32 : Word).toNat < 2 ^ (8 * 4) ∧ (0#32 : Word).toNat < 2 ^ (8 * 0) := by
  decide
theorem witness_QuantumFlashToMemory : ∃ x, (running false false).Shape ∧ (running false false).MemoryWf
    ∧ (running false false).transfer = some x ∧ ((running false false).word 32).getLsbD 0 = true ∧ x.cksum = false
    ∧ x.wdir = false ∧ NoStraddle (running false false) x.faddr.toNat 4 :=
  ⟨_, witness_running_invariant.1, rfl, rfl, by decide, rfl, rfl, by unfold NoStraddle; decide⟩
theorem witness_QuantumMemoryToFlash : ∃ x, (running true false).Shape ∧ (running true false).transfer = some x
    ∧ ((running true false).word 32).getLsbD 0 = true ∧ x.cksum = false ∧ x.wdir = true
    ∧ NoStraddle (running true false) x.faddr.toNat 4 :=
  ⟨_, by unfold State.Shape; decide, rfl, by decide, rfl, rfl, by unfold NoStraddle; decide⟩
theorem witness_QuantumChecksum : ∃ x, (running true true).Shape ∧ (running true true).transfer = some x
    ∧ ((running true true).word 32).getLsbD 0 = true ∧ x.cksum = true ∧ NoStraddle (running true true) x.faddr.toNat 4 :=
  ⟨_, by unfold State.Shape; decide, rfl, by decide, rfl, by unfold NoStraddle; decide⟩
theorem witness_Completion : ∃ x, (running false false).Shape ∧ (running false false).transfer = some x
    ∧ ((running false false).word 32).getLsbD 0 = true ∧ x.rem = 4#32
    ∧ NoStraddle (running false false) x.faddr.toNat 4 :=
  ⟨_, witness_running_invariant.1, rfl, by decide, rfl, by unfold NoStraddle; decide⟩
/-- At the boundary `4q = rem`, and so with `0 < q`; `q = 0` meets the other clause. -/
theorem witness_TransferRunsToCompletion : ∃ x, (running false false).Inv ∧ (running false false).transfer = some x
    ∧ ((running false false).word 32).getLsbD 0 = true ∧ x.faddr.toNat % 4 = 0 ∧ 4 * 1 = x.rem.toNat
    ∧ 4 * 0 < x.rem.toNat :=
  have h := witness_running_invariant
  ⟨_, ⟨h.1, h.2.1, h.2.2.1, h.2.2.2.1, h.2.2.2.2.1, witness_LengthsSound.2, h.2.2.2.2.2.1, h.2.2.2.2.2.2⟩, rfl,
    by decide, by decide, by decide, by decide⟩
theorem witness_QuantumWithoutEnable : ((running false false).setWord 32 0#32).transfer.isSome = true
    ∧ (((running false false).setWord 32 0#32).word 32).getLsbD 0 = false ∧ State.reset.dma = none
    ∧ (State.resetOf Config.cfgB).cfg.hasDma = false := by decide
/-- Both clauses: the line rises at a completion, and falls at the disable write and at reset. -/
theorem witness_InterruptLineChangesOnlyAtItsEvents : runs .dmaq (running false false) = true ∧ (running false false).irq = .low
    ∧ (after .dmaq (running false false)).irq = .high
    ∧ (after (.dmaStop 0#32) (after .dmaq (running false false))).irq = .low
    ∧ (after .reset (after .dmaq (running false false))).irq = .low ∧ Instr.wf Config.cfgA (.dmaStop 0#32) = true := by
  decide
/-- The reset state with a control write presented (R90, R102). -/
def presented : State := { State.reset with pending := [rawWrite 0x10#32 3#32] }

/-- The eight statements about what every step keeps: a state that meets every premise, and its step. -/
theorem witness_InvariantStatements : presented.Shape ∧ presented.WindowsMatch ∧ presented.RomdMatches
    ∧ presented.WindowsInside ∧ presented.UnnamedZero ∧ presented.LengthsSound ∧ presented.QuietWithoutDma
    ∧ presented.MemoryWf ∧ ∃ t, step presented = .next t ∧ t.romd 0 = false :=
  ⟨witness_shape.1, witness_invariant.1, witness_invariant.2.1, witness_invariant.2.2.1, witness_invariant.2.2.2.1,
    witness_LengthsSound.1, witness_invariant.2.2.2.2.1, rfl, _, rfl, rfl⟩

/-- The premise of `QuietWithoutTheEngine` on a variant without the engine, and its step. -/
theorem witness_QuietWithoutTheEngine : (State.resetOf Config.cfgB).QuietWithoutDma
    ∧ (State.resetOf Config.cfgB).cfg.hasDma = false ∧ ∃ t, step (State.resetOf Config.cfgB) = .next t :=
  ⟨fun _ => ⟨rfl, rfl⟩, rfl, _, rfl⟩

end Sys2Proof.Machine.Tests
end

namespace Sys2Proof.Machine

-- A property that every operation keeps, kept by every step

/-- A step keeps what survives every operation, where taking an operation from the list does not disturb it (R74). -/
theorem Preserved.step_keeps {P : State → Prop} (h : Preserved P)
    (hpending : ∀ s rest, P s → P { s with pending := rest }) {s t : State} (hs : P s) (hstep : step s = .next t) :
    P t := by
  obtain ⟨-, i, rest, he, -⟩ := step_cases hstep
  exact h.exec he (hpending s rest hs)

-- The sizes of the state (R20, R21)

/-- The shape of a state speaks of its configuration and of three sizes only. -/
theorem State.Shape.of_eq {s t : State} (h : s.Shape) (hcfg : t.cfg = s.cfg) (hx : t.x.length = s.x.length)
    (hchan : t.chan.length = s.chan.length) (hcs : t.csOut.length = s.csOut.length) : t.Shape := by
  unfold State.Shape
  rw [hcfg, hx, hchan, hcs]
  exact h

theorem State.Shape.valid {s : State} (h : s.Shape) : s.cfg.Valid := h.1

theorem State.Shape.x_length {s : State} (h : s.Shape) : s.x.length = s.cfg.nregs := by
  obtain ⟨-, hx, -, -⟩ := h
  exact hx

theorem State.Shape.csOut_length {s : State} (h : s.Shape) : s.csOut.length = s.cfg.numCs := by
  obtain ⟨-, -, -, hcs⟩ := h
  exact hcs

theorem State.Shape.facts {s : State} (h : s.Shape) : Config.Facts s.cfg := Config.Valid.facts h.valid

/-- The register file holds every DMA register's word (R7(a)). -/
theorem State.Shape.x_length_ge {s : State} (h : s.Shape) : 38 ≤ s.x.length := by
  rw [h.x_length]
  exact h.facts.nregs_ge

theorem endQuantum_x_length (s : State) (t : DmaTransfer) : (endQuantum s t).x.length = s.x.length := by
  unfold endQuantum
  dsimp only
  split <;> simp [complete]

/-- A control write leaves one level per output (R164). -/
theorem writeCtrl_shape {s : State} (i : Nat) (v : Word) (h : s.Shape) : (writeCtrl s i v).Shape :=
  h.of_eq rfl (by simp [writeCtrl]) (by simp [writeCtrl]) (by simp [writeCtrl, h.csOut_length])

/-- Reset builds every table at its size (R332). -/
theorem resetBlock_shape {s : State} (h : s.Shape) : (resetBlock s).Shape :=
  ⟨h.valid, by simp [resetRegs], by simp, by simp⟩

/-- What a quantum leaves is of the shape it found. -/
theorem endQuantum_shape {s s1 : State} {t t1 : DmaTransfer} (hm : moveQuantum s t = some (s1, t1)) (h : s.Shape) :
    (endQuantum s1 t1).Shape := by
  obtain ⟨s0, ha, hcs, -, -, hs1, -⟩ := moveQuantum_spec hm
  have h0 : s0.Shape := h.of_eq ha.cfg (by rw [ha.x]) (by rw [ha.chan]) hcs
  have h1 : s1.Shape := by
    rcases hs1 with rfl | ⟨-, -, w, rfl⟩ <;> exact h0
  rw [endQuantum_frame]
  exact h1.of_eq rfl (endQuantum_x_length s1 t1) rfl rfl

/-- Every operation keeps the sizes of the state (R20, R21). -/
theorem shape_preserved : Preserved State.Shape where
  note _ _ _ h := h
  answer _ _ h := h
  store s _ k v _ _ h := h.of_eq rfl (s.setWord_length k v) rfl rfl
  seg _ _ _ _ _ _ _ _ _ h := h.of_eq rfl (by simp) (by simp [State.note]) rfl
  ctrl _ i v _ h := writeCtrl_shape i v h
  stop _ _ _ _ h := h.of_eq rfl (by simp [dmaStop]) rfl rfl
  start s v _ _ _ h := h.of_eq rfl (s.setWord_length idxDmaCtrl v) rfl rfl
  access _ _ ha hl _ _ h := h.of_eq ha.cfg (by rw [ha.x]) (by rw [ha.chan]) hl
  cancel _ h := h
  quantum _ _ _ _ _ _ hm h := endQuantum_shape hm h
  reset _ h := resetBlock_shape h

-- Sound lengths, word by word (R9, R32, R40)

/-- A length field that is a multiple of 4 and leaves room for 4 more (R9, R32). -/
def LengthFits (w : Word) : Prop := w &&& 3#32 = 0#32 ∧ w.toNat ≤ 0xFFFFFFF8

/-- A remaining length that reaches exactly 0 in steps of 4, and has not yet (R40). -/
def RemainingFits (w : Word) : Prop := w &&& 3#32 = 0#32 ∧ w ≠ 0#32

theorem State.lengthsSound_iff (s : State) :
    s.LengthsSound ↔ (s.cfg.hasDma = true →
      LengthFits (s.word idxDmaLen) ∧ ∀ t, s.dma = some t → RemainingFits t.rem) := Iff.rfl

/-- The low two bits of a word are clear exactly where it is a multiple of 4. -/
theorem and_three_eq_zero_iff (w : Word) : w &&& 3#32 = 0#32 ↔ w.toNat % 4 = 0 := by
  have hmod : (w &&& 3#32).toNat = w.toNat % 4 := by
    simpa using Nat.and_two_pow_sub_one_eq_mod w.toNat 2
  rw [← BitVec.toNat_inj, hmod]
  rfl

theorem lengthFits_zero : LengthFits 0#32 := by
  unfold LengthFits
  decide

/-- What a write of the length register stores fits, by the constraint on its mask (R9, R253). -/
theorem lengthFits_dmaLenOperand {c : Config} (h : c.MasksOk) (v : Word) : LengthFits (dmaLenOperand c v) := by
  obtain ⟨hlow, hmax⟩ := h
  constructor
  · calc v &&& c.dmaLenMask &&& 3#32 = v &&& (c.dmaLenMask &&& 3#32) := BitVec.and_assoc v _ _
      _ = v &&& 0#32 := congrArg (v &&& ·) hlow
      _ = 0#32 := BitVec.and_zero
  · rw [dmaLenOperand, BitVec.toNat_and]
    exact Nat.and_le_right.trans hmax

/-- A start counts 4 bytes more than a length that fits; the sum does not wrap to 0 (R9, R40, R255). -/
theorem LengthFits.remainingFits_add_four {w : Word} (h : LengthFits w) : RemainingFits (w + 4#32) := by
  obtain ⟨hlow, hmax⟩ := h
  rw [and_three_eq_zero_iff] at hlow
  have hsum : (w + 4#32).toNat = w.toNat + 4 := by bv_omega
  constructor
  · rw [and_three_eq_zero_iff, hsum]
    omega
  · intro hzero
    rw [hzero] at hsum
    exact absurd hsum (by simp)

/-- A quantum of 4 bytes leaves a remaining length that fits the length register (R40, R259). -/
theorem RemainingFits.lengthFits_sub_four {w : Word} (h : RemainingFits w) : LengthFits (w - 4#32) := by
  obtain ⟨hlow, hne⟩ := h
  rw [and_three_eq_zero_iff] at hlow
  have hpos : w.toNat ≠ 0 := fun hz => hne (BitVec.eq_of_toNat_eq hz)
  have hdiff : (w - 4#32).toNat = w.toNat - 4 := by bv_omega
  refine ⟨?_, ?_⟩
  · rw [and_three_eq_zero_iff, hdiff]
    omega
  · rw [hdiff]
    omega

-- Sound lengths, operation by operation

/-- Soundness of the lengths speaks of the length register and the latch only. -/
theorem State.LengthsSound.of_eq {s t : State} (h : s.LengthsSound) (hcfg : t.cfg = s.cfg)
    (hlen : s.cfg.hasDma = true → t.word idxDmaLen = s.word idxDmaLen) (hdma : t.dma = s.dma) : t.LengthsSound := by
  rw [State.lengthsSound_iff] at h ⊢
  rw [hcfg, hdma]
  intro hd
  rw [hlen hd]
  exact h hd

/-- The length register is sound in a state without a transfer where its word fits. -/
theorem State.lengthsSound_of_idle {s : State} (hdma : s.dma = none)
    (hlen : s.cfg.hasDma = true → LengthFits (s.word idxDmaLen)) : s.LengthsSound := by
  rw [State.lengthsSound_iff]
  exact fun hd => ⟨hlen hd, fun t ht => by simp [hdma] at ht⟩

theorem wordIndex_dmaLen {c : Config} (hd : c.hasDma = true) : wordIndex c .dmaLen = some idxDmaLen := by
  simp [wordIndex, hd]

/-- Only the length register's category has the length register's word (R21, R22). -/
theorem wordIndex_ne_idxDmaLen {c : Config} (hf : Config.Facts c) (hd : c.hasDma = true) {cat : Category} {k : Nat}
    (hk : wordIndex c cat = some k) (hcat : cat ≠ .dmaLen) : k ≠ idxDmaLen := by
  rintro rfl
  exact hcat (wordIndex_inj hf hk (wordIndex_dmaLen hd))

/-- A store into another register leaves the length register. -/
theorem word_dmaLen_setWord_of_ne {s : State} (hf : Config.Facts s.cfg) (hd : s.cfg.hasDma = true) {cat : Category}
    {k : Nat} (v : Word) (hk : wordIndex s.cfg cat = some k) (hcat : cat ≠ .dmaLen) :
    (s.setWord k v).word idxDmaLen = s.word idxDmaLen :=
  s.word_setWord_ne k idxDmaLen v (wordIndex_ne_idxDmaLen hf hd hk hcat)

/-- A store: into the length register what its mask lets through, else nothing that matters here (R253). -/
theorem setWord_lengthsSound {s : State} {cat : Category} {k : Nat} {v : Word} (hk : wordIndex s.cfg cat = some k)
    (hv : Stores s.cfg cat v) (hs : s.Shape) (h : s.LengthsSound) : (s.setWord k v).LengthsSound := by
  by_cases hcat : cat = .dmaLen
  · subst hcat
    rw [State.lengthsSound_iff] at h ⊢
    intro hd
    obtain ⟨-, -, -, hmasks⟩ := hs.valid
    obtain ⟨w, rfl⟩ := hv
    obtain rfl : idxDmaLen = k := Option.some.inj ((wordIndex_dmaLen hd).symm.trans hk)
    have hlt : idxDmaLen < s.x.length := Nat.lt_of_lt_of_le (by decide) hs.x_length_ge
    refine ⟨?_, (h hd).2⟩
    rw [s.word_setWord_self _ _ hlt]
    exact lengthFits_dmaLenOperand hmasks w
  · exact h.of_eq rfl (fun hd => word_dmaLen_setWord_of_ne hs.facts hd v hk hcat) rfl

/-- A segment write stores its word below the DMA registers (R22, R190). -/
theorem setSegment_lengthsSound {s : State} {i : Nat} (codes : List LogCode) (w : Window) (word : Word)
    (hi : i < s.cfg.maxSlaves) (h : s.LengthsSound) :
    (((s.note codes).setWin i w).setWord (idxSeg i) word).LengthsSound := by
  have hne : idxSeg i ≠ idxDmaLen := by
    have := maxSlaves_le s.cfg
    unfold idxSeg idxDmaLen
    omega
  exact h.of_eq rfl (fun _ => State.word_setWord_ne _ _ _ word hne) rfl

/-- The write of DMA_CTRL's word leaves the length register (R22). -/
theorem setDmaCtrl_lengthsSound {s : State} (v : Word) (h : s.LengthsSound) : (s.setWord idxDmaCtrl v).LengthsSound :=
  h.of_eq rfl (fun _ => s.word_setWord_ne _ _ v (by decide)) rfl

/-- A control write stores its word outside the DMA registers (R7(e), R161). -/
theorem writeCtrl_lengthsSound {s : State} {i : Nat} (v : Word) (hi : i < s.cfg.numCs) (hs : s.Shape)
    (h : s.LengthsSound) : (writeCtrl s i v).LengthsSound := by
  have hk : wordIndex s.cfg (.ctrl i) = some (idxCtrl s.cfg i) := by simp [wordIndex, hi]
  refine h.of_eq rfl (fun hd => ?_) rfl
  rw [writeCtrl_word]
  exact word_dmaLen_setWord_of_ne hs.facts hd v hk (by simp)

/-- The disable write ends the transfer and clears the length register (R264). -/
theorem dmaStop_lengthsSound {s : State} (hs : s.Shape) : (dmaStop s).LengthsSound := by
  refine State.lengthsSound_of_idle (dmaStop_dma s) fun _ => ?_
  have hx := hs.x_length_ge
  rw [dmaStop_word s idxDmaLen (by omega)]
  exact lengthFits_zero

/-- An accepted start latches the length and 4 more (R255). -/
theorem dmaStart_lengthsSound {s : State} (h : s.LengthsSound) : (dmaStart s).LengthsSound := by
  rw [State.lengthsSound_iff] at h ⊢
  intro hd
  obtain ⟨hlen, -⟩ := h hd
  refine ⟨hlen, fun t ht => ?_⟩
  obtain rfl : s.latched = t := by simpa using ht
  exact hlen.remainingFits_add_four

/-- An access reaches neither the length register nor the latch (R210). -/
theorem AccessOnly.lengthsSound {s t : State} (ha : AccessOnly s t) (h : s.LengthsSound) : t.LengthsSound :=
  h.of_eq ha.cfg (fun _ => ha.word idxDmaLen) ha.dma

/-- Without a transfer only the length register counts. -/
theorem cancel_lengthsSound {s : State} (h : s.LengthsSound) : State.LengthsSound { s with dma := none } :=
  State.lengthsSound_of_idle rfl fun hd => (h hd).1

/-- The end of a quantum publishes what is left, and keeps the latch only where that is not 0 (R259, R262). -/
theorem endQuantum_lengthsSound {s : State} {t : DmaTransfer} (hx : 37 ≤ s.x.length) (ht : RemainingFits t.rem) :
    (endQuantum s t).LengthsSound := by
  have hleft : LengthFits (t.rem - 4#32) := ht.lengthFits_sub_four
  rw [State.lengthsSound_iff]
  refine fun _ => ⟨?_, fun u hu => ?_⟩
  · rw [endQuantum_word s t idxDmaLen hx]
    exact hleft
  · rw [endQuantum_dma] at hu
    split at hu
    · simp at hu
    · rename_i hne
      obtain rfl := Option.some.inj hu
      exact ⟨hleft.1, hne⟩

/-- A quantum of a sound transfer (R258, R259). -/
theorem quantum_lengthsSound {s s1 : State} {t t1 : DmaTransfer} (htr : s.transfer = some t)
    (hm : moveQuantum s t = some (s1, t1)) (hs : s.Shape) (h : s.LengthsSound) : (endQuantum s1 t1).LengthsSound := by
  obtain ⟨hd, hdma⟩ := State.transfer_eq_some.mp htr
  obtain ⟨-, hrem⟩ := s.lengthsSound_iff.mp h hd
  obtain ⟨s0, ha, -, -, -, hs1, hrem1, -⟩ := moveQuantum_spec hm
  have hx1 : s1.x = s.x := by
    rcases hs1 with rfl | ⟨-, -, w, rfl⟩ <;> exact ha.x
  have hx := hs.x_length_ge
  refine endQuantum_lengthsSound (by rw [hx1]; omega) ?_
  rw [hrem1]
  exact hrem t hdma

/-- The words after reset (R332). -/
theorem resetBlock_word (s : State) {k : Nat} (hk : k < s.cfg.nregs) : (resetBlock s).word k = resetWord s.cfg k := by
  simp [State.word, resetRegs, hk]

/-- The length register is 0 after reset (R47). -/
theorem resetWord_dmaLen {c : Config} (hf : Config.Facts c) (hd : c.hasDma = true) :
    resetWord c idxDmaLen = 0#32 := by
  have hctrl : ¬ (c.rCtrl0 / 4 ≤ idxDmaLen ∧ idxDmaLen < c.rCtrl0 / 4 + c.numCs) := by
    rintro ⟨hlo, hhi⟩
    have hk : wordIndex c (.ctrl (idxDmaLen - c.rCtrl0 / 4)) = some (idxCtrl c (idxDmaLen - c.rCtrl0 / 4)) := by
      rw [wordIndex, if_pos (by omega)]
    exact wordIndex_ne_idxDmaLen hf hd hk (by simp) (by unfold idxCtrl; omega)
  have hseg : ¬ (12 ≤ idxDmaLen ∧ idxDmaLen < 12 + c.maxSlaves) := by
    have := maxSlaves_le c
    unfold idxDmaLen
    omega
  rw [resetWord, if_neg hctrl, if_neg hseg]

/-- Reset leaves no transfer and a length of 0 (R47, R332). -/
theorem resetBlock_lengthsSound {s : State} (hs : s.Shape) : (resetBlock s).LengthsSound := by
  refine State.lengthsSound_of_idle (resetBlock_dma s) fun hd => ?_
  have hn := hs.facts.nregs_ge
  rw [resetBlock_word s (by unfold idxDmaLen; omega), resetWord_dmaLen hs.facts hd]
  exact lengthFits_zero

/-- Every operation keeps the lengths sound in a state of the shape (R9, R32, R40). -/
theorem lengthsSound_preserved : Preserved fun s => s.Shape ∧ s.LengthsSound where
  note s codes hc := fun ⟨hs, h⟩ => ⟨shape_preserved.note s codes hc hs, h⟩
  answer s v := fun ⟨hs, h⟩ => ⟨shape_preserved.answer s v hs, h⟩
  store s cat k v hk hv := fun ⟨hs, h⟩ => ⟨shape_preserved.store s cat k v hk hv hs, setWord_lengthsSound hk hv hs h⟩
  seg s i codes w v word hc hi hdec := fun ⟨hs, h⟩ =>
    ⟨shape_preserved.seg s i codes w v word hc hi hdec hs, setSegment_lengthsSound codes w word hi h⟩
  ctrl s i v hi := fun ⟨hs, h⟩ => ⟨shape_preserved.ctrl s i v hi hs, writeCtrl_lengthsSound v hi hs h⟩
  stop s v hd he := fun ⟨hs, _⟩ =>
    ⟨shape_preserved.stop s v hd he hs,
      dmaStop_lengthsSound (hs.of_eq rfl (s.setWord_length idxDmaCtrl v) rfl rfl)⟩
  start s v hd he hb := fun ⟨hs, h⟩ =>
    ⟨shape_preserved.start s v hd he hb hs,
      dmaStart_lengthsSound (setDmaCtrl_lengthsSound v h)⟩
  access s t ha hl ht hg := fun ⟨hs, h⟩ => ⟨shape_preserved.access s t ha hl ht hg hs, ha.lengthsSound h⟩
  cancel s := fun ⟨hs, h⟩ => ⟨shape_preserved.cancel s hs, cancel_lengthsSound h⟩
  quantum s t s1 t1 htr hen hm := fun ⟨hs, h⟩ =>
    ⟨shape_preserved.quantum s t s1 t1 htr hen hm hs, quantum_lengthsSound htr hm hs h⟩
  reset s := fun ⟨hs, _⟩ => ⟨shape_preserved.reset s hs, resetBlock_lengthsSound hs⟩

/-- Settles O58: every operation keeps the shape together with the sound lengths, and so does every step. -/
theorem lengthsStaySound : Obligations.LengthsStaySound := by
  intro s t hs hl hstep
  obtain ⟨-, h⟩ := lengthsSound_preserved.step_keeps (fun _ _ hp => hp) ⟨hs, hl⟩ hstep
  exact h

end Sys2Proof.Machine

namespace Sys2Proof.Machine

theorem State.Shape.chan_length {s : State} (h : s.Shape) : s.chan.length = s.cfg.maxSlaves := by
  obtain ⟨-, -, hchan, -⟩ := h
  exact hchan

-- The words of the segment and control registers (R22)

theorem wordIndex_seg {c : Config} {i : Nat} (hi : i < c.maxSlaves) : wordIndex c (.seg i) = some (idxSeg i) := by
  simp [wordIndex, hi]

theorem wordIndex_ctrl {c : Config} {i : Nat} (hi : i < c.numCs) : wordIndex c (.ctrl i) = some (idxCtrl c i) := by
  simp [wordIndex, hi]

/-- A control register and a segment register have different words (R7(e)). -/
theorem idxCtrl_ne_idxSeg {c : Config} (hf : Config.Facts c) {i j : Nat} (hi : i < c.numCs) (hj : j < c.maxSlaves) :
    idxCtrl c i ≠ idxSeg j := by
  intro he
  have hctrl := wordIndex_ctrl hi
  rw [he] at hctrl
  exact absurd (wordIndex_inj hf hctrl (wordIndex_seg hj)) (by simp)

@[simp] theorem writeCtrl_cfg (s : State) (i : Nat) (v : Word) : (writeCtrl s i v).cfg = s.cfg := rfl

-- The state after reset, word by word and channel by channel (R47, R332)

/-- A control register's word after reset has `ce_stop` set and the rest clear (R47). -/
theorem resetBlock_word_ctrl {s : State} (hs : s.Shape) {i : Nat} (hi : i < s.cfg.numCs) :
    (resetBlock s).word (idxCtrl s.cfg i) = 0x00000004#32 := by
  rw [resetBlock_word s (wordIndex_lt hs.facts (wordIndex_ctrl hi)), resetWord, if_pos (by unfold idxCtrl; omega)]

/-- A segment register's word after reset packs the channel's default window (R47). -/
theorem resetBlock_word_seg {s : State} (hs : s.Shape) {i : Nat} (hi : i < s.cfg.maxSlaves) :
    (resetBlock s).word (idxSeg i) = segPack (s.cfg.defaultSeg i).addr (s.cfg.defaultSeg i).size := by
  have hctrl : ¬ (s.cfg.rCtrl0 / 4 ≤ idxSeg i ∧ idxSeg i < s.cfg.rCtrl0 / 4 + s.cfg.numCs) := fun ⟨hlo, hhi⟩ =>
    idxCtrl_ne_idxSeg hs.facts (i := idxSeg i - s.cfg.rCtrl0 / 4) (by omega) hi (by unfold idxCtrl; omega)
  rw [resetBlock_word s (wordIndex_lt hs.facts (wordIndex_seg hi)), resetWord, if_neg hctrl,
    if_pos (by unfold idxSeg; omega), idxSeg, Nat.add_sub_cancel_left]

/-- Every other word is 0 after reset, and so is what lies beyond the register file (R47). -/
theorem resetBlock_word_other (s : State) {k : Nat} (hctrl : ∀ i < s.cfg.numCs, k ≠ idxCtrl s.cfg i)
    (hseg : ∀ i < s.cfg.maxSlaves, k ≠ idxSeg i) : (resetBlock s).word k = 0#32 := by
  by_cases hk : k < s.cfg.nregs
  · have hc : ¬ (s.cfg.rCtrl0 / 4 ≤ k ∧ k < s.cfg.rCtrl0 / 4 + s.cfg.numCs) := fun ⟨hlo, hhi⟩ =>
      hctrl (k - s.cfg.rCtrl0 / 4) (by omega) (by unfold idxCtrl; omega)
    have hg : ¬ (12 ≤ k ∧ k < 12 + s.cfg.maxSlaves) := fun ⟨hlo, hhi⟩ =>
      hseg (k - 12) (by omega) (by unfold idxSeg; omega)
    rw [resetBlock_word s hk, resetWord, if_neg hc, if_neg hg]
  · simp [State.word, resetRegs, hk]

/-- A channel's window is its default one after reset (R47). -/
theorem resetBlock_win (s : State) {i : Nat} (hi : i < s.cfg.maxSlaves) :
    (resetBlock s).win i = s.cfg.defaultSeg i := by
  simp [State.win, hi]

/-- Every channel is ROM-decoded after reset (R333). -/
theorem resetBlock_romd (s : State) (i : Nat) : (resetBlock s).romd i = true := by
  by_cases hi : i < s.cfg.maxSlaves <;> simp [State.romd, hi]

/-- What reset appends to the bus history are the changes of level (R332). -/
theorem resetBlock_trace (s : State) :
    (resetBlock s).trace = s.trace ++ csEdges s.csOut (List.replicate s.cfg.numCs .inactive) := rfl

/-- Reset exchanges no byte (R334). -/
theorem resetBlock_sentBytes (s : State) : sentBytes (resetBlock s).trace = sentBytes s.trace := by
  rw [resetBlock_trace, sentBytes_append, sentBytes_csEdges, List.append_nil]

/-- Reset leaves everything but the register file, the channels, the outputs, the latch and the bus history (R334). -/
theorem resetBlock_frame (s : State) :
    resetBlock s = { s with
      x := (resetBlock s).x, chan := (resetBlock s).chan, csOut := (resetBlock s).csOut, irq := (resetBlock s).irq
      dma := (resetBlock s).dma, trace := (resetBlock s).trace } := rfl

/-- Settles O8: the state after RESET is `resetBlock`'s. -/
theorem resetTabulated : Obligations.ResetTabulated := by
  intro s hs
  have hkept := resetBlock_shape hs
  refine ⟨resetBlock s, rfl, fun i hi => resetBlock_word_ctrl hs hi, fun i hi => ?_,
    fun k hctrl hseg => resetBlock_word_other s hctrl hseg, resetBlock_csOut s, resetBlock_irq s, resetBlock_dma s,
    resetBlock_sentBytes s, ?_, ?_, fun a => ?_, resetBlock_frame s⟩
  · exact ⟨resetBlock_word_seg hs hi, resetBlock_win s hi, resetBlock_romd s i⟩
  · rw [hkept.x_length, hs.x_length, resetBlock_cfg]
  · rw [hkept.chan_length, hs.chan_length, resetBlock_cfg]
  · rw [resetBlock_dram]

-- What an operation does to the registers and the channels

/-- The words of the registers that neither a segment nor a control write stores into: what they hold moves no window
and selects no mode (R22). -/
def PlainWord (c : Config) (k : Nat) : Prop :=
  ∃ cat, wordIndex c cat = some k ∧ (∀ i, cat ≠ .seg i) ∧ ∀ i, cat ≠ .ctrl i

/-- `t` has the configuration and the channels of `s`, and of its words at most plain ones differ. -/
structure PlainChange (s t : State) : Prop where
  cfg : t.cfg = s.cfg
  chan : t.chan = s.chan
  word : ∀ k, ¬ PlainWord s.cfg k → t.word k = s.word k

theorem PlainChange.of_eq {s t : State} (hcfg : t.cfg = s.cfg) (hx : t.x = s.x) (hchan : t.chan = s.chan) :
    PlainChange s t :=
  ⟨hcfg, hchan, fun k _ => by simp only [State.word, hx]⟩

theorem PlainChange.win {s t : State} (h : PlainChange s t) (i : Nat) : t.win i = s.win i := by
  simp only [State.win, h.chan]

theorem PlainChange.romd {s t : State} (h : PlainChange s t) (i : Nat) : t.romd i = s.romd i := by
  simp only [State.romd, h.chan]

/-- A segment register's word is not plain. -/
theorem not_plainWord_idxSeg {c : Config} (hf : Config.Facts c) {i : Nat} (hi : i < c.maxSlaves) :
    ¬ PlainWord c (idxSeg i) := by
  rintro ⟨cat, hk, hseg, -⟩
  exact hseg i (wordIndex_inj hf hk (wordIndex_seg hi))

/-- A control register's word is not plain. -/
theorem not_plainWord_idxCtrl {c : Config} (hf : Config.Facts c) {i : Nat} (hi : i < c.numCs) :
    ¬ PlainWord c (idxCtrl c i) := by
  rintro ⟨cat, hk, -, hctrl⟩
  exact hctrl i (wordIndex_inj hf hk (wordIndex_ctrl hi))

/-- What a register stores into with no other effect is a plain word. -/
theorem Stores.plainWord {c : Config} {cat : Category} {k : Nat} {v : Word} (hv : Stores c cat v)
    (hk : wordIndex c cat = some k) : PlainWord c k := by
  refine ⟨cat, hk, ?_, ?_⟩ <;>
  · rintro i rfl
    exact hv

/-- The words that the engine writes: `INTR_CTRL` and the DMA registers (R252, R259, R262, R264). -/
def engineWords : List Nat := [2, 32, 33, 34, 35, 36]

/-- Where the variant has the engine, its words are plain. -/
theorem plainWord_of_mem_engineWords {c : Config} (hd : c.hasDma = true) {k : Nat} (hk : k ∈ engineWords) :
    PlainWord c k := by
  have hreg : ∀ cat ∈ [Category.intrCtrl, .dmaCtrl, .dmaFlashAddr, .dmaDramAddr, .dmaLen, .dmaChecksum],
      wordIndex c cat = some k → PlainWord c k := by
    intro cat hcat hw
    refine ⟨cat, hw, ?_, ?_⟩ <;>
    · rintro i rfl
      simp at hcat
  simp only [engineWords, List.mem_cons, List.not_mem_nil, or_false] at hk
  rcases hk with rfl | rfl | rfl | rfl | rfl | rfl
  · exact hreg .intrCtrl (by simp) rfl
  · exact hreg .dmaCtrl (by simp) (by simp [wordIndex, hd, idxDmaCtrl])
  · exact hreg .dmaFlashAddr (by simp) (by simp [wordIndex, hd, idxDmaFlashAddr])
  · exact hreg .dmaDramAddr (by simp) (by simp [wordIndex, hd, idxDmaDramAddr])
  · exact hreg .dmaLen (by simp) (by simp [wordIndex, hd, idxDmaLen])
  · exact hreg .dmaChecksum (by simp) (by simp [wordIndex, hd, idxDmaChecksum])

/-- The engine's operations change plain words only. -/
theorem PlainChange.of_engine {s t : State} (hd : s.cfg.hasDma = true) (hcfg : t.cfg = s.cfg) (hchan : t.chan = s.chan)
    (hword : SameWordsBut s t engineWords) : PlainChange s t :=
  ⟨hcfg, hchan, fun k hk => hword k fun hmem => hk (plainWord_of_mem_engineWords hd hmem)⟩

/-- The disable write reaches the engine's words only (R264). -/
theorem dmaStop_sameWords {s : State} (hs : s.Shape) (v : Word) :
    SameWordsBut s (dmaStop (s.setWord idxDmaCtrl v)) engineWords := by
  intro k hk
  simp only [engineWords, List.mem_cons, List.not_mem_nil, or_false, not_or] at hk
  obtain ⟨h2, h32, h33, h34, h35, h36⟩ := hk
  have hx := hs.x_length_ge
  rw [dmaStop_word _ k (by rw [State.setWord_length]; omega)]
  simp only [h2, h33, h34, h35, h36, or_self, if_false]
  exact s.word_setWord_ne _ _ v (Ne.symm h32)

/-- An accepted start writes the word of `DMA_CTRL` only (R255). -/
theorem dmaStart_sameWords (s : State) (v : Word) :
    SameWordsBut s (dmaStart (s.setWord idxDmaCtrl v)) engineWords := by
  intro k hk
  have hne : idxDmaCtrl ≠ k := fun h => hk (h ▸ by decide)
  exact s.word_setWord_ne _ _ v hne

/-- The end of a quantum reaches the engine's words only (R259, R262). -/
theorem endQuantum_sameWords {s : State} (t : DmaTransfer) (hx : 37 ≤ s.x.length) :
    SameWordsBut s (endQuantum s t) engineWords := by
  intro k hk
  simp only [engineWords, List.mem_cons, List.not_mem_nil, or_false, not_or] at hk
  obtain ⟨h2, -, h33, h34, h35, h36⟩ := hk
  rw [endQuantum_word s t k hx]
  simp only [h2, h33, h34, h35, h36, false_and, if_false]

/-- The move of a quantum leaves the registers and the channels (R210, R260, R261, R263). -/
theorem moveQuantum_registers {s s1 : State} {t t1 : DmaTransfer} (hm : moveQuantum s t = some (s1, t1)) :
    s1.cfg = s.cfg ∧ s1.x = s.x ∧ s1.chan = s.chan := by
  obtain ⟨s0, ha, -, -, -, hs1, -⟩ := moveQuantum_spec hm
  rcases hs1 with rfl | ⟨-, -, w, rfl⟩ <;> exact ⟨ha.cfg, ha.x, ha.chan⟩

/-- A quantum changes the engine's words only. -/
theorem quantum_plainChange {s s1 : State} {t t1 : DmaTransfer} (hs : s.Shape) (htr : s.transfer = some t)
    (hm : moveQuantum s t = some (s1, t1)) : PlainChange s (endQuantum s1 t1) := by
  obtain ⟨hd, -⟩ := State.transfer_eq_some.mp htr
  obtain ⟨hcfg, hx, hchan⟩ := moveQuantum_registers hm
  have hlen := hs.x_length_ge
  have hwords := endQuantum_sameWords t1 (s := s1) (by rw [hx]; omega)
  have hframe := endQuantum_frame s1 t1
  refine .of_engine hd (by rw [hframe, hcfg]) (by rw [hframe, hchan]) fun k hk => ?_
  rw [hwords k hk, State.word, State.word, hx]

/-- What a property of the registers and the channels must survive, in a state of the shape, to survive every
operation: a change of plain words, the two writes that move a window or select a mode, and reset. -/
structure RegisterInvariant (P : State → Prop) : Prop where
  plain : ∀ s t, s.Shape → PlainChange s t → P s → P t
  seg : ∀ s i codes w v word, s.Shape → i < s.cfg.maxSlaves →
    segDecide s.cfg s.win i v = ⟨codes, some (w, word)⟩ → P s → P ((s.setWin i w).setWord (idxSeg i) word)
  ctrl : ∀ s i v, s.Shape → i < s.cfg.numCs → P s → P (writeCtrl s i v)
  reset : ∀ s, s.Shape → P (resetBlock s)

/-- With the shape, such a property survives every operation. -/
theorem RegisterInvariant.preserved {P : State → Prop} (h : RegisterInvariant P) :
    Preserved fun s => s.Shape ∧ P s where
  note s codes hc := fun ⟨hs, hp⟩ => ⟨shape_preserved.note s codes hc hs, h.plain _ _ hs (.of_eq rfl rfl rfl) hp⟩
  answer s v := fun ⟨hs, hp⟩ => ⟨shape_preserved.answer s v hs, h.plain _ _ hs (.of_eq rfl rfl rfl) hp⟩
  store s cat k v hk hv := fun ⟨hs, hp⟩ => by
    have hword : ∀ j, ¬ PlainWord s.cfg j → (s.setWord k v).word j = s.word j := fun j hj =>
      s.word_setWord_ne k j v fun he => hj (he ▸ hv.plainWord hk)
    exact ⟨shape_preserved.store s cat k v hk hv hs, h.plain _ _ hs ⟨rfl, rfl, hword⟩ hp⟩
  seg s i codes w v word hc hi hdec := fun ⟨hs, hp⟩ => by
    have hlogged : P (s.note codes) := h.plain _ _ hs (.of_eq rfl rfl rfl) hp
    exact ⟨shape_preserved.seg s i codes w v word hc hi hdec hs,
      h.seg (s.note codes) i codes w v word (shape_preserved.note s codes hc hs) hi hdec hlogged⟩
  ctrl s i v hi := fun ⟨hs, hp⟩ => ⟨shape_preserved.ctrl s i v hi hs, h.ctrl s i v hs hi hp⟩
  stop s v hd he := fun ⟨hs, hp⟩ =>
    ⟨shape_preserved.stop s v hd he hs, h.plain _ _ hs (.of_engine hd rfl rfl (dmaStop_sameWords hs v)) hp⟩
  start s v hd he hb := fun ⟨hs, hp⟩ =>
    ⟨shape_preserved.start s v hd he hb hs, h.plain _ _ hs (.of_engine hd rfl rfl (dmaStart_sameWords s v)) hp⟩
  access s t ha hl ht hg := fun ⟨hs, hp⟩ =>
    ⟨shape_preserved.access s t ha hl ht hg hs, h.plain _ _ hs (.of_eq ha.cfg ha.x ha.chan) hp⟩
  cancel s := fun ⟨hs, hp⟩ => ⟨shape_preserved.cancel s hs, h.plain _ _ hs (.of_eq rfl rfl rfl) hp⟩
  quantum s t s1 t1 htr hen hm := fun ⟨hs, hp⟩ =>
    ⟨shape_preserved.quantum s t s1 t1 htr hen hm hs, h.plain _ _ hs (quantum_plainChange hs htr hm) hp⟩
  reset s := fun ⟨hs, _⟩ => ⟨shape_preserved.reset s hs, h.reset s hs⟩

/-- Such a property survives every step, where it does not speak of the presented operations. -/
theorem RegisterInvariant.step_keeps {P : State → Prop} (h : RegisterInvariant P) {s t : State} (hs : s.Shape)
    (hp : P s) (hstep : step s = .next t) : P t := by
  refine And.right (h.preserved.step_keeps (fun u rest hu => ?_) ⟨hs, hp⟩ hstep)
  obtain ⟨hshape, hkept⟩ := hu
  exact ⟨hshape, h.plain _ _ hshape (.of_eq rfl rfl rfl) hkept⟩

/-- Settles O53: the shape survives every operation. -/
theorem shapeIsKept : Obligations.ShapeIsKept := by
  intro s t hs hstep
  exact shape_preserved.step_keeps (fun _ _ h => h) hs hstep

-- Segment words and their windows (R37, R190)

theorem segUnit_eq : segUnit = 8388608 := rfl

/-- A window in units of 8 MB that ends below 2^31 decodes from its packed word (R182, R183, R191). -/
theorem segUnpack_segPack {addr : Nat} {size : Int} (haddr : addr % segUnit = 0) (hsize : size % segUnit = 0)
    (hnonneg : 0 ≤ size) (htop : addr + size ≤ 0xFF * segUnit) : segUnpack (segPack addr size) = (addr, size) := by
  simp only [segUnit_eq] at haddr hsize htop
  obtain ⟨hstart, hend, -⟩ := segPack_fields (addr := addr) (size := size) haddr (by omega) (by omega) (by omega)
  rw [segUnpack_fields, hend, hstart, Prod.mk.injEq]
  omega

/-- What a segment word encodes is in units of 8 MB (R180, R182). -/
theorem segUnpack_units (w : Word) : (segUnpack w).1 % segUnit = 0 ∧ (segUnpack w).2 % segUnit = 0 := by
  simp only [segUnpack_fields, segUnit_eq]
  omega

/-- The distance of two addresses in units of 8 MB is in units of 8 MB, backwards too. -/
theorem sub_units {a b : Nat} (ha : a % segUnit = 0) (hb : b % segUnit = 0) : ((a : Int) - b) % segUnit = 0 := by
  rw [segUnit_eq] at *
  omega

/-- A word with its start field replaced encodes the window from there to its old end (D10). -/
theorem segUnpack_segWithStart (w : Word) {addr : Nat} (haddr : addr % segUnit = 0) (htop : addr < 256 * segUnit) :
    segUnpack (segWithStart w (addr / segUnit)) = (addr, (segUnpack w).1 + (segUnpack w).2 - addr) := by
  simp only [segUnit_eq] at haddr htop ⊢
  obtain ⟨hstart, hend, -⟩ := segWithStart_fields w (n := addr / 8388608) (by omega)
  rw [segUnpack_fields, segUnpack_fields, hend, hstart, Prod.mk.injEq]
  omega

/-- The constraints on the windows, number by number (R7(b), (c), (d), (f)). -/
theorem windows_of_valid {c : Config} (h : c.Valid) :
    c.flashBase % segUnit = 0 ∧ c.flashSize % segUnit = 0 ∧ c.flashBase + c.flashSize ≤ 0xFF * segUnit
      ∧ (∀ i < c.maxSlaves, c.SegOk (c.defaultSeg i)) ∧ (c.defaultSeg 0).addr = c.flashBase := by
  obtain ⟨-, ⟨-, -, hlen⟩, ⟨hbase, hsize, htop, hsegs, hzero⟩, -⟩ := h
  refine ⟨hbase, hsize, htop, fun i hi => ?_, hzero⟩
  have hi' : i < c.defaultSegs.length := by rw [hlen]; exact hi
  have hmem : c.defaultSeg i ∈ c.defaultSegs := by
    rw [Config.defaultSeg, List.getD_eq_getElem _ _ hi']
    exact List.getElem_mem hi'
  exact hsegs _ hmem

/-- The fixed end is in units of 8 MB (R7(c), R185). -/
theorem fixedEnd_units {c : Config} (h : c.Valid) : c.fixedEnd % segUnit = 0 := by
  obtain ⟨-, -, -, hsegs, -⟩ := windows_of_valid h
  have hpos := maxSlaves_pos c
  obtain ⟨haddr, hsize, -, -⟩ := hsegs (c.maxSlaves - 1) (by omega)
  rw [segUnit_eq] at *
  unfold Config.fixedEnd
  omega

/-- The window starts in units of 8 MB, and where it lies inside the flash window `word` encodes it. -/
structure EncodesIfContained (c : Config) (addr : Nat) (size : Int) (word : Word) : Prop where
  addr_units : addr % segUnit = 0
  encodes : segContained c addr size → segUnpack word = (addr, size)

/-- The packed word encodes its window: a contained one ends where its end field can say so (R7(d), R183). -/
theorem encodesIfContained_segPack {c : Config} (h : c.Valid) {addr : Nat} {size : Int} (haddr : addr % segUnit = 0)
    (hsize : size % segUnit = 0) : EncodesIfContained c addr size (segPack addr size) := by
  obtain ⟨-, -, htop, -, -⟩ := windows_of_valid h
  refine ⟨haddr, ?_⟩
  rintro ⟨hnonneg, -, hinside⟩
  exact segUnpack_segPack haddr hsize hnonneg (by omega)

/-- The start correction, case by case (R184; D10 for its two readings). -/
theorem segFixStart_eq (c : Config) (i : Nat) (raw : Word) :
    segFixStart c i raw = if segFixesStart c i (segUnpack raw).1 then
        match c.seg0Keeps with
        | .size => (c.flashBase, (segUnpack raw).2, segPack c.flashBase (segUnpack raw).2)
        | .endField => (c.flashBase, (segUnpack raw).1 + (segUnpack raw).2 - c.flashBase,
            segWithStart raw (c.flashBase / segUnit))
      else ((segUnpack raw).1, (segUnpack raw).2, raw) := rfl

/-- What the start correction leaves is encoded by its word, in either reading (R184, R190, D10). -/
theorem segFixStart_encodes {c : Config} (h : c.Valid) {i addr : Nat} {raw word : Word} {size : Int}
    (hr : segFixStart c i raw = (addr, size, word)) : EncodesIfContained c addr size word := by
  obtain ⟨hbase, -, htop, -, -⟩ := windows_of_valid h
  obtain ⟨hraw, hrawSize⟩ := segUnpack_units raw
  rw [segFixStart_eq] at hr
  split at hr
  · split at hr <;> simp only [Prod.mk.injEq] at hr <;> obtain ⟨rfl, rfl, rfl⟩ := hr
    · exact encodesIfContained_segPack h hbase hrawSize
    · have hbelow : c.flashBase < 256 * segUnit := by
        rw [segUnit_eq] at htop ⊢
        omega
      exact ⟨hbase, fun _ => segUnpack_segWithStart raw hbase hbelow⟩
  · simp only [Prod.mk.injEq] at hr
    obtain ⟨rfl, rfl, rfl⟩ := hr
    exact ⟨hraw, fun _ => rfl⟩

/-- What both corrections leave is encoded by its word (R184, R185, R190). -/
theorem segFix_encodes {c : Config} (h : c.Valid) {i addr : Nat} {raw word : Word} {size : Int}
    (hr : segFix c i raw = (addr, size, word)) : EncodesIfContained c addr size word := by
  rcases hstart : segFixStart c i raw with ⟨addr0, size0, word0⟩
  have h0 := segFixStart_encodes h hstart
  rw [segFix_of_start hstart] at hr
  split at hr <;> simp only [Prod.mk.injEq] at hr <;> obtain ⟨rfl, rfl, rfl⟩ := hr
  · exact encodesIfContained_segPack h h0.addr_units (sub_units (fixedEnd_units h) h0.addr_units)
  · exact h0

/-- The window that a segment write keeps is the one that the stored word encodes (R37, R190). -/
theorem segDecide_encodes {c : Config} (h : c.Valid) {wins : Nat → Window} {i : Nat} {raw word : Word} {w : Window}
    {codes : List LogCode} (hdec : segDecide c wins i raw = ⟨codes, some (w, word)⟩) :
    segUnpack word = (w.addr, (w.size : Int)) := by
  rcases hr : segFix c i raw with ⟨addr, size, stored⟩
  rw [segDecide_of_fix hr] at hdec
  split at hdec
  · rename_i hin
    simp only [SegOutcome.mk.injEq, Option.some.injEq, Prod.mk.injEq] at hdec
    obtain ⟨-, rfl, rfl⟩ := hdec
    have hnonneg : 0 ≤ size := hin.1
    rw [(segFix_encodes h hr).encodes hin, Int.toNat_of_nonneg hnonneg]
  · simp at hdec

/-- A segment write leaves every word but its own (R190). -/
theorem setSegment_words (s : State) (i : Nat) (w : Window) (word : Word) {k : Nat} (hk : idxSeg i ≠ k) :
    ((s.setWin i w).setWord (idxSeg i) word).word k = s.word k :=
  State.word_setWord_ne _ _ _ _ hk

/-- The windows match where every operation that writes a segment's word or its window writes both (R37). -/
theorem windowsMatch_invariant : RegisterInvariant State.WindowsMatch where
  plain s t hs hc h := by
    intro i hi
    rw [hc.cfg] at hi
    rw [hc.win, hc.word _ (not_plainWord_idxSeg hs.facts hi)]
    exact h i hi
  seg s i codes w v word hs hi hdec h := by
    intro j hj
    have hx := wordIndex_lt hs.facts (wordIndex_seg hi)
    rw [State.win_setWord, State.win_setWin]
    by_cases hij : i = j
    · subst hij
      rw [State.word_setWord_self _ _ _ (by rw [State.setWin_x, hs.x_length]; exact hx),
        if_pos ⟨rfl, by rw [hs.chan_length]; exact hi⟩]
      exact segDecide_encodes hs.valid hdec
    · rw [setSegment_words s i w word (by unfold idxSeg; omega), if_neg (fun hc => hij hc.1)]
      exact h j hj
  ctrl s i v hs hi h := by
    intro j hj
    have hne : idxCtrl s.cfg i ≠ idxSeg j := idxCtrl_ne_idxSeg hs.facts hi hj
    rw [writeCtrl_win, writeCtrl_word, State.word_setWord_ne _ _ _ _ hne]
    exact h j hj
  reset s hs := by
    intro i hi
    obtain ⟨-, -, htop, hsegs, -⟩ := windows_of_valid hs.valid
    obtain ⟨haddr, hsize, -, hend⟩ := hsegs i hi
    rw [resetBlock_word_seg hs hi, resetBlock_win s hi]
    exact segUnpack_segPack haddr (by omega) (by omega) (by omega)

/-- Settles O54: the segment words and the windows are written together. -/
theorem windowsMatchIsKept : Obligations.WindowsMatchIsKept := by
  intro s t hs hw hstep
  exact windowsMatch_invariant.step_keeps hs hw hstep

-- ROM-decode flags and modes (R38, R163)

/-- The flags match where every operation that writes a control word or a flag writes both (R38, R163). -/
theorem romdMatches_invariant : RegisterInvariant State.RomdMatches where
  plain s t hs hc h := by
    intro i hi
    rw [hc.cfg] at hi ⊢
    rw [hc.romd, h i hi]
    split
    · rename_i hcs
      rw [hc.word _ (not_plainWord_idxCtrl hs.facts hcs)]
    · rfl
  seg s i codes w v word hs hi hdec h := by
    intro j hj
    rw [State.romd_setWord, State.romd_setWin, State.setWord_cfg, State.setWin_cfg, h j hj]
    split
    · rename_i hcs
      rw [setSegment_words s i w word (idxCtrl_ne_idxSeg hs.facts hcs hi).symm]
    · rfl
  ctrl s i v hs hi h := by
    intro j hj
    have hx := wordIndex_lt hs.facts (wordIndex_ctrl hi)
    have hmax := hs.facts.numCs_le
    rw [writeCtrl_cfg] at hj ⊢
    rw [writeCtrl_romd, writeCtrl_word]
    by_cases hij : i = j
    · subst hij
      rw [if_pos ⟨rfl, by rw [hs.chan_length]; exact hj⟩, if_pos hi,
        State.word_setWord_self _ _ _ (by rw [hs.x_length]; exact hx)]
      exact ctrlMode_user v
    · rw [if_neg (fun hc => hij hc.1), State.word_setWord_ne _ _ _ _ (by unfold idxCtrl; omega)]
      exact h j hj
  reset s hs := by
    intro i hi
    rw [resetBlock_romd, resetBlock_cfg]
    split
    · rename_i hcs
      rw [resetBlock_word_ctrl hs hcs]
      decide
    · rfl

/-- Settles O55: the control words and the flags are written together. -/
theorem romdMatchesIsKept : Obligations.RomdMatchesIsKept := by
  intro s t hs hr hstep
  exact romdMatches_invariant.step_keeps hs hr hstep

-- The words outside the categories (R21, R35)

/-- The byte offsets of a configuration's registers are the recognised ones (R22, R91). -/
theorem mem_recognisedOffsets_of_offset {c : Config} {cat : Category} {off : Nat} (h : cat.offset c = some off) :
    off ∈ recognisedOffsets c := by
  unfold recognisedOffsets Config.dmaOffsets
  cases cat <;> simp only [Category.offset, Option.ite_none_right_eq_some, Option.some.injEq, reduceCtorEq] at h
  case seg i =>
    obtain ⟨hi, rfl⟩ := h
    simp [hi]
  case ctrl i =>
    obtain ⟨hi, rfl⟩ := h
    simp [hi]
  all_goals simp [← h]

/-- A word outside the categories belongs to no register (R21). -/
theorem wordIndex_ne_of_unnamed {c : Config} (hf : Config.Facts c) {k : Nat} (hk : 4 * k ∉ recognisedOffsets c)
    (cat : Category) : wordIndex c cat ≠ some k := by
  intro hw
  rw [wordIndex_eq_offset hf, Option.map_eq_some_iff] at hw
  obtain ⟨off, hoff, hdiv⟩ := hw
  obtain ⟨hmod, -⟩ := offset_bounds hf hoff
  have hmem := mem_recognisedOffsets_of_offset hoff
  rw [show off = 4 * k by omega] at hmem
  exact hk hmem

/-- The words outside the categories stay 0 where every store goes to a register's word (R21). -/
theorem unnamedZero_invariant : RegisterInvariant State.UnnamedZero where
  plain s t hs hc h := by
    intro k hk hno
    rw [hc.cfg] at hk hno
    have hplain : ¬ PlainWord s.cfg k := fun ⟨cat, hw, _, _⟩ => wordIndex_ne_of_unnamed hs.facts hno cat hw
    rw [hc.word k hplain]
    exact h k hk hno
  seg s i codes w v word hs hi hdec h := by
    intro k hk hno
    rw [setSegment_words s i w word fun he => wordIndex_ne_of_unnamed hs.facts hno _ (he ▸ wordIndex_seg hi)]
    exact h k hk hno
  ctrl s i v hs hi h := by
    intro k hk hno
    rw [writeCtrl_word,
      State.word_setWord_ne _ _ _ _ fun he => wordIndex_ne_of_unnamed hs.facts hno _ (he ▸ wordIndex_ctrl hi)]
    exact h k hk hno
  reset s hs := by
    intro k _ hno
    refine resetBlock_word_other s (fun i hi he => ?_) (fun i hi he => ?_)
    · exact wordIndex_ne_of_unnamed hs.facts hno _ (he ▸ wordIndex_ctrl hi)
    · exact wordIndex_ne_of_unnamed hs.facts hno _ (he ▸ wordIndex_seg hi)

/-- Settles O57: no operation stores into a word outside the categories. -/
theorem unnamedWordsStayZero : Obligations.UnnamedWordsStayZero := by
  intro s t hs hz hstep
  exact unnamedZero_invariant.step_keeps hs hz hstep

-- The state after reset of a configuration (R47, R331)

/-- Reset builds the state after reset again. -/
theorem resetBlock_resetOf (c : Config) : resetBlock (State.resetOf c) = State.resetOf c := by
  rw [resetBlock_frame, resetBlock_trace, State.resetOf, csEdges_self]
  rfl

theorem resetOf_shape {c : Config} (h : c.Valid) : (State.resetOf c).Shape :=
  ⟨h, by simp [State.resetOf, resetRegs], by simp [State.resetOf], by simp [State.resetOf]⟩

/-- What reset establishes holds right after construction. -/
theorem resetOf_of_resetBlock {P : State → Prop} {c : Config} (hreset : ∀ s, s.Shape → P (resetBlock s))
    (h : c.Valid) : P (State.resetOf c) :=
  resetBlock_resetOf c ▸ hreset _ (resetOf_shape h)

/-- The default windows lie inside the flash window (R7, R192). -/
theorem resetBlock_windowsInside {s : State} (hs : s.Shape) : (resetBlock s).WindowsInside := by
  obtain ⟨-, -, -, hsegs, hzero⟩ := windows_of_valid hs.valid
  have hpos := maxSlaves_pos s.cfg
  unfold State.WindowsInside
  rw [resetBlock_cfg]
  refine ⟨fun i hi => ?_, ?_, fun _ => ?_⟩
  · rw [resetBlock_win s hi]
    exact hsegs i hi
  · rw [resetBlock_win s (by omega)]
    exact hzero
  · rw [resetBlock_win s (by omega)]
    rfl

/-- The state after reset meets every invariant under a valid configuration (R47). -/
theorem resetOf_inv {c : Config} (h : c.Valid) : (State.resetOf c).Inv :=
  ⟨resetOf_shape h, resetOf_of_resetBlock windowsMatch_invariant.reset h,
    resetOf_of_resetBlock romdMatches_invariant.reset h, resetOf_of_resetBlock (fun _ => resetBlock_windowsInside) h,
    resetOf_of_resetBlock unnamedZero_invariant.reset h, resetOf_of_resetBlock (fun _ => resetBlock_lengthsSound) h,
    fun _ => ⟨rfl, rfl⟩, State.resetOf_dram_wf c⟩

/-- The default configurations meet the constraints (R7 to R9; log 6). -/
theorem ofVariant_valid (v : Variant) : (Config.ofVariant v).Valid := by
  cases v <;> decide

/-- Settles O10: what reset establishes under every valid configuration, at the reference ones. -/
theorem resetMeetsTheInvariants : Obligations.ResetMeetsTheInvariants :=
  ⟨fun _ h => resetOf_inv h, resetOf_inv (ofVariant_valid .fmc),
    fun v => ⟨ofVariant_valid v, resetOf_inv (ofVariant_valid v)⟩⟩

-- What no operation changes (R20, R15, R81)

/-- `t` has the configuration and the inputs of `s`, and continues its log and its bus history. -/
structure Continues (s t : State) : Prop where
  cfg : t.cfg = s.cfg
  pending : t.pending = s.pending
  flashImage : t.flashImage = s.flashImage
  log : s.log <+: t.log
  trace : s.trace <+: t.trace

theorem Continues.refl (s : State) : Continues s s := ⟨rfl, rfl, rfl, List.prefix_rfl, List.prefix_rfl⟩

theorem Continues.trans {s t u : State} (h : Continues s t) (h' : Continues t u) : Continues s u :=
  ⟨h'.cfg.trans h.cfg, h'.pending.trans h.pending, h'.flashImage.trans h.flashImage, h.log.trans h'.log,
    h.trace.trans h'.trace⟩

/-- What neither logs nor exchanges anything. -/
theorem Continues.of_eq {s t : State} (hcfg : t.cfg = s.cfg) (hpending : t.pending = s.pending)
    (hflash : t.flashImage = s.flashImage) (hlog : t.log = s.log) (htrace : t.trace = s.trace) : Continues s t :=
  ⟨hcfg, hpending, hflash, by rw [hlog], by rw [htrace]⟩

/-- Logging continues the log (R15). -/
theorem note_continues (s : State) (codes : List LogCode) : Continues s (s.note codes) :=
  ⟨rfl, rfl, rfl, ⟨codes, rfl⟩, List.prefix_rfl⟩

/-- Driving the outputs appends the changes of level to the history (R164, R332). -/
theorem driveAll_continues (s : State) (levels : List Level) : Continues s (s.driveAll levels) :=
  ⟨rfl, rfl, rfl, List.prefix_rfl, ⟨_, rfl⟩⟩

/-- An access appends at most the refused write's event (R210, R225). -/
theorem AccessOnly.continues {s t : State} (ha : AccessOnly s t) (ht : s.trace <+: t.trace)
    (hg : t.log = s.log ∨ t.log = s.log ++ [.ge8]) : Continues s t := by
  refine ⟨ha.cfg, ha.pending, ha.flashImage, ?_, ht⟩
  rcases hg with hlog | hlog <;> rw [hlog]
  exact ⟨_, rfl⟩

/-- A quantum continues what its access does (R259). -/
theorem quantum_continues {s s1 : State} {t t1 : DmaTransfer} (hm : moveQuantum s t = some (s1, t1)) :
    Continues s (endQuantum s1 t1) := by
  obtain ⟨s0, ha, -, ht, hg, hs1, -⟩ := moveQuantum_spec hm
  have h0 := ha.continues ht hg
  have h1 : Continues s0 s1 := by
    rcases hs1 with rfl | ⟨-, -, w, rfl⟩
    · exact .refl s1
    · exact .of_eq rfl rfl rfl rfl rfl
  rw [endQuantum_frame]
  exact (h0.trans h1).trans (.of_eq rfl rfl rfl rfl rfl)

/-- Every operation continues the state it is performed in. -/
theorem continues_preserved (s : State) : Preserved (Continues s) where
  note u codes _ h := h.trans (note_continues u codes)
  answer _ _ h := h.trans (.of_eq rfl rfl rfl rfl rfl)
  store _ _ _ _ _ _ h := h.trans (.of_eq rfl rfl rfl rfl rfl)
  seg u _ codes _ _ _ _ _ _ h := (h.trans (note_continues u codes)).trans (.of_eq rfl rfl rfl rfl rfl)
  ctrl u i v _ h := by
    have hstored : Continues u ((u.setWord (idxCtrl u.cfg i) v).setRomd i (decide (ctrlMode v ≠ .user))) :=
      .of_eq rfl rfl rfl rfl rfl
    exact (h.trans hstored).trans (driveAll_continues _ _)
  stop _ _ _ _ h := h.trans (.of_eq rfl rfl rfl rfl rfl)
  start _ _ _ _ _ h := h.trans (.of_eq rfl rfl rfl rfl rfl)
  access _ _ ha _ ht hg h := h.trans (ha.continues ht hg)
  cancel _ h := h.trans (.of_eq rfl rfl rfl rfl rfl)
  quantum _ _ _ _ _ _ hm h := h.trans (quantum_continues hm)
  reset u h := (h.trans (driveAll_continues u _)).trans (.of_eq rfl rfl rfl rfl rfl)

/-- Settles O52: every operation continues the state it is performed in. -/
theorem configurationIsFixed : Obligations.ConfigurationIsFixed := by
  intro i s t he
  have h : Continues s t := (continues_preserved s).exec he (.refl s)
  exact ⟨h.cfg, h.pending, h.flashImage, h.log, h.trace⟩

-- The decoder on written-out words

/-- Settles O3: the decoder is run on each word. -/
theorem specWordsDecode : Obligations.SpecWordsDecode := by
  unfold Obligations.SpecWordsDecode
  refine ⟨?_, ?_, ?_, ?_, ?_, ?_, ?_, ?_⟩ <;> decide

end Sys2Proof.Machine

namespace Sys2Proof.Machine

-- Main memory (R60)

/-- An access to the flash window leaves main memory (R210). -/
theorem AccessOnly.memoryWf {s t : State} (ha : AccessOnly s t) (h : s.MemoryWf) : t.MemoryWf := by
  unfold State.MemoryWf at h ⊢
  rw [ha.dram]
  exact h

/-- The move of a quantum writes at most the four bytes at the destination cursor (R260). -/
theorem moveQuantum_memoryWf {s s1 : State} {t t1 : DmaTransfer} (hm : moveQuantum s t = some (s1, t1))
    (h : s.MemoryWf) : s1.MemoryWf := by
  obtain ⟨s0, ha, -, -, -, hs1, -⟩ := moveQuantum_spec hm
  have h0 : s0.MemoryWf := ha.memoryWf h
  rcases hs1 with rfl | ⟨-, -, w, rfl⟩
  · exact h0
  · exact Memory.write32_wf h0 t.daddr w

/-- The end of a quantum publishes registers only (R259). -/
theorem endQuantum_memoryWf {s : State} (t : DmaTransfer) (h : s.MemoryWf) : (endQuantum s t).MemoryWf := by
  rw [endQuantum_frame]
  exact h

/-- Every operation keeps main memory canonical: only the move of a quantum writes it (R60). -/
theorem memoryWf_preserved : Preserved State.MemoryWf where
  note _ _ _ h := h
  answer _ _ h := h
  store _ _ _ _ _ _ h := h
  seg _ _ _ _ _ _ _ _ _ h := h
  ctrl _ _ _ _ h := h
  stop _ _ _ _ h := h
  start _ _ _ _ _ h := h
  access _ _ ha _ _ _ h := ha.memoryWf h
  cancel _ h := h
  quantum _ _ _ t1 _ _ hm h := endQuantum_memoryWf t1 (moveQuantum_memoryWf hm h)
  reset _ h := h

/-- Settles O60: every operation keeps main memory canonical, and so does every step. -/
theorem memoryStaysCanonical : Obligations.MemoryStaysCanonical := by
  intro s t hs hstep
  exact memoryWf_preserved.step_keeps (fun _ _ h => h) hs hstep

-- Which channel takes an access (R63, R69)

/-- No channel takes an access in a hole (R69(b)). -/
theorem chanOf_of_hole {s : State} {a : Nat} (h : s.channelsAt a = []) : chanOf s a = (s, none) := by
  unfold chanOf
  rw [h]

/-- The one containing channel takes an access (R63). -/
theorem chanOf_of_single {s : State} {a i : Nat} (h : s.channelsAt a = [i]) : chanOf s a = (s, some i) := by
  unfold chanOf
  rw [h]

/-- One of several containing channels takes an access, and the pick draws a free value (R69(a), log 11). -/
theorem chanOf_of_overlap {s : State} {a : Nat} (h : 2 ≤ (s.channelsAt a).length) :
    ∃ i ∈ s.channelsAt a, chanOf s a = ({ s with draws := s.draws + 1 }, some i) := by
  have hdrawn : (chanOf s a).1 = { s with draws := s.draws + 1 } := by
    unfold chanOf
    split
    · rename_i hnil
      simp [hnil] at h
    · rename_i i hone
      simp [hone] at h
    · rfl
  rcases hpick : (chanOf s a).2 with _ | i
  · simp [(chanOf_none s a).mp hpick] at h
  · exact ⟨i, chanOf_mem hpick, Prod.ext hdrawn hpick⟩

-- A window access, once its channel is known (R65 to R67)

/-- A read in a hole answers a free value (R69(b), log 10). -/
theorem windowRead_of_hole {s : State} {a n : Nat} (h : s.channelsAt a = []) :
    windowRead s a n = some ({ s with draws := s.draws + 1 }, lowBytes n (Config.freeHoleRead s.draws s.trace a)) := by
  unfold windowRead
  rw [chanOf_of_hole h]

/-- A read that its channel's window holds is served by that channel (R66). -/
theorem windowRead_of_inside {s t : State} {a n i : Nat} (hc : chanOf s a = (t, some i))
    (hin : a + n ≤ (t.win i).addr + (t.win i).size) :
    windowRead s a n = some (if t.romd i then romRead t i (a - (t.win i).addr) n
      else chanRead t i (windowOffset t a i) n) := by
  unfold windowRead
  rw [hc]
  exact if_pos (decide_eq_true hin)

/-- In ROM-decode mode it is served as plain memory (R66). -/
theorem windowRead_of_rom {s t : State} {a n i : Nat} (hc : chanOf s a = (t, some i))
    (hin : a + n ≤ (t.win i).addr + (t.win i).size) (hromd : t.romd i = true) :
    windowRead s a n = some (romRead t i (a - (t.win i).addr) n) := by
  rw [windowRead_of_inside hc hin, if_pos hromd]

/-- Otherwise it goes through the channel (R66, R220). -/
theorem windowRead_of_not_rom {s t : State} {a n i : Nat} (hc : chanOf s a = (t, some i))
    (hin : a + n ≤ (t.win i).addr + (t.win i).size) (hromd : t.romd i = false) :
    windowRead s a n = some (chanRead t i (windowOffset t a i) n) := by
  rw [windowRead_of_inside hc hin, if_neg (Bool.eq_false_iff.mp hromd)]

/-- A read across the end of its channel's window has no behaviour (R65, log 12). -/
theorem windowRead_of_straddle {s t : State} {a n i : Nat} (hc : chanOf s a = (t, some i))
    (hout : (t.win i).addr + (t.win i).size < a + n) : windowRead s a n = none := by
  unfold windowRead
  rw [hc]
  exact if_neg fun hin => absurd (of_decide_eq_true hin) (Nat.not_le.mpr hout)

/-- A write in a hole is dropped (R69(b), log 10). -/
theorem windowWrite_of_hole {s : State} {a n : Nat} (v : Word) (h : s.channelsAt a = []) :
    windowWrite s a n v = some s := by
  unfold windowWrite
  rw [chanOf_of_hole h]

/-- A write that its channel's window holds is that channel's (R67). -/
theorem windowWrite_of_inside {s t : State} {a n i : Nat} (v : Word) (hc : chanOf s a = (t, some i))
    (hin : a + n ≤ (t.win i).addr + (t.win i).size) :
    windowWrite s a n v = some (chanWrite t i (windowOffset t a i) n v) := by
  unfold windowWrite
  rw [hc]
  exact if_pos (decide_eq_true hin)

/-- A write across the end of its channel's window has no behaviour (R65, log 12). -/
theorem windowWrite_of_straddle {s t : State} {a n i : Nat} (v : Word) (hc : chanOf s a = (t, some i))
    (hout : (t.win i).addr + (t.win i).size < a + n) : windowWrite s a n v = none := by
  unfold windowWrite
  rw [hc]
  exact if_neg fun hin => absurd (of_decide_eq_true hin) (Nat.not_le.mpr hout)

-- The window port (R13, R66, R67)

/-- `FRD` returns what the window read answers. -/
theorem exec_frd_of_some {s : State} {a : Word} {n : Nat} {r : State × Word} (h : windowRead s a.toNat n = some r) :
    exec (.frd a n) s = .next (r.1.answer r.2) := by
  change windowReadOp s a.toNat n = _
  rw [windowReadOp, h]

/-- `FRD` without behaviour is refused by name (log 12). -/
theorem exec_frd_of_none {s : State} {a : Word} {n : Nat} (h : windowRead s a.toNat n = none) :
    exec (.frd a n) s = .refused .straddlesWindow := by
  change windowReadOp s a.toNat n = _
  rw [windowReadOp, h]

/-- `FWR` leaves what the window write leaves. -/
theorem exec_fwr_of_some {s t : State} {a v : Word} {n : Nat} (h : windowWrite s a.toNat n v = some t) :
    exec (.fwr a n v) s = .next t := by
  change windowWriteOp s a.toNat n v = _
  rw [windowWriteOp, h]

/-- `FWR` without behaviour is refused by name (log 12). -/
theorem exec_fwr_of_none {s : State} {a v : Word} {n : Nat} (h : windowWrite s a.toNat n v = none) :
    exec (.fwr a n v) s = .refused .straddlesWindow := by
  change windowWriteOp s a.toNat n v = _
  rw [windowWriteOp, h]

-- A read served as plain memory (R66, R68, R70)

/-- The value is assembled from the bytes of the flash image; without storage it is 0. -/
theorem romRead_value (s : State) (i off n : Nat) :
    (romRead s i off n).2 = if s.cfg.storageAttached i then
      leWord ((List.range n).map fun k => romByte s i (off + k)) else 0#32 := by
  unfold romRead
  split <;> rfl

/-- It draws at most a free value, and does nothing else. -/
theorem romRead_frame (s : State) (i off n : Nat) :
    (romRead s i off n).1 = { s with draws := (romRead s i off n).1.draws } := by
  unfold romRead
  split <;> rfl

/-- Byte `k` of the value is the image's at `k` beyond the offset (R70). -/
theorem romRead_byte (s : State) (i off : Nat) {n k : Nat} (hn : n ≤ 4) (hk : k < n) :
    (romRead s i off n).2.byte k = if s.cfg.storageAttached i then romByte s i (off + k) else 0#8 := by
  rw [romRead_value]
  split
  · rw [leWord_byte _ (by simpa using hn) k (by simpa using hk)]
    simp
  · simp [Word.byte]

/-- The value has `8n` bits. -/
theorem romRead_lt (s : State) (i off n : Nat) : (romRead s i off n).2.toNat < 2 ^ (8 * n) := by
  rw [romRead_value]
  split
  · simpa using leWord_lt ((List.range n).map fun k => romByte s i (off + k))
  · simp

/-- Settles O34: the one containing channel, in ROM-decode mode, serves the read as plain memory. -/
theorem romDecodeRead : Obligations.RomDecodeRead := by
  intro s a n i hn hdec hromd
  obtain ⟨hat, hin⟩ := hdec
  have hread := windowRead_of_rom (chanOf_of_single hat) hin hromd
  refine ⟨_, _, exec_frd_of_some hread, rfl, fun k hk => romRead_byte s i _ hn hk, romRead_lt s i _ n, ?_⟩
  rw [romRead_frame]
  rfl

-- Holes and overlaps (R69)

/-- The low `n` bytes of a word make a value of `8n` bits. -/
theorem lowBytes_lt (n : Nat) (v : Word) : (lowBytes n v).toNat < 2 ^ (8 * n) := by
  simpa [lowBytes, leBytes] using leWord_lt (leBytes n v)

/-- Settles O41: no channel takes the access. -/
theorem holeAccess : Obligations.HoleAccess := by
  intro s a n _ hhole
  exact ⟨⟨_, lowBytes_lt n _, exec_frd_of_some (windowRead_of_hole hhole)⟩,
    fun v => exec_fwr_of_some (windowWrite_of_hole v hhole)⟩

/-- Settles O42: the picked channel takes the access, and its window holds all of it. -/
theorem overlapAccess : Obligations.OverlapAccess := by
  intro s a n hover hno
  obtain ⟨i, hi, hpick⟩ := chanOf_of_overlap hover
  refine ⟨fun v => ⟨i, hi, exec_fwr_of_some (windowWrite_of_inside v hpick (hno i hi))⟩, i, hi, ?_⟩
  split
  · rename_i hromd
    exact exec_frd_of_some (windowRead_of_rom hpick (hno i hi) hromd)
  · rename_i hromd
    exact exec_frd_of_some (windowRead_of_not_rom hpick (hno i hi) (Bool.eq_false_iff.mpr hromd))

-- One step (R74)

/-- A step performs what is fetched. -/
theorem step_of_fetch_ok {s t : State} {i : Instr} (hv : s.cfg.Valid) (hf : fetch s = .ok (i, t)) :
    step s = exec i t := by
  rw [step, if_pos hv, hf]

/-- A step refuses by name the bits that are no operation (log 13). -/
theorem step_of_fetch_error {s : State} {why : Reject} (hv : s.cfg.Valid) (hf : fetch s = .error why) :
    step s = .refused (.badOperation why) := by
  rw [step, if_pos hv, hf]

/-- With nothing presented the DMA agent is next (log 3). -/
theorem fetch_of_idle {s : State} (hp : s.pending = []) : fetch s = .ok (.dmaq, s) := by
  rw [fetch, hp]

/-- The head of the list is decoded and taken from it (R74). -/
theorem fetch_of_presented {s : State} {op : RawOp} {rest : List RawOp} (hp : s.pending = op :: rest) :
    fetch s = (decode s.cfg op).map fun i => (i, { s with pending := rest }) := by
  rw [fetch, hp]

/-- Settles O4: what is fetched is the decoded head of the list. -/
theorem stepRunsTheDecodedOperation : Obligations.StepRunsTheDecodedOperation := by
  intro s op rest i hv hp hd
  refine step_of_fetch_ok hv ?_
  rw [fetch_of_presented hp, hd]
  rfl

/-- Settles O5: the other outcomes of a fetch, and an invalid configuration. -/
theorem stepOtherwise : Obligations.StepOtherwise := by
  refine fun s => ⟨fun hv hp => ?_, fun op rest why hv hp hd => ?_, fun hv => ?_⟩
  · exact step_of_fetch_ok hv (fetch_of_idle hp)
  · refine step_of_fetch_error hv ?_
    rw [fetch_of_presented hp, hd]
    rfl
  · rw [step, if_neg hv]

-- Stops by name (R65, R36; log 12, log 30)

/-- A quantum whose flash-side access straddles a window's end moves nothing, in each of its modes (R260, R261,
R263). -/
theorem moveQuantum_of_straddle {s : State} {t : DmaTransfer} {i : Nat} (hat : s.channelsAt t.faddr.toNat = [i])
    (hout : (s.win i).addr + (s.win i).size < t.faddr.toNat + 4) : moveQuantum s t = none := by
  have hread := windowRead_of_straddle (chanOf_of_single hat) hout
  have hwrite := fun v => windowWrite_of_straddle v (chanOf_of_single hat) hout
  unfold moveQuantum
  split
  · rw [hread]
    rfl
  · split
    · rw [hwrite]
      rfl
    · rw [hread]
      rfl

/-- An enabled quantum that moves nothing is refused by name (R258, R259). -/
theorem quantum_of_no_move {s : State} {t : DmaTransfer} (htr : s.transfer = some t)
    (hen : dmaCtrlEn (s.word idxDmaCtrl) = true) (hm : moveQuantum s t = none) :
    quantum s = .refused .straddlesWindow := by
  unfold quantum
  simp [htr, hen, hm]

/-- A frame read of an absent channel is refused by name (R36, log 30). -/
theorem channelReadOp_of_absent {s : State} {i : Nat} (off : Word) (n : Nat) (hi : s.cfg.maxSlaves ≤ i) :
    channelReadOp s i off n = .refused .noSuchChannel :=
  if_neg (Nat.not_lt.mpr hi)

/-- A frame write of an absent channel is refused by name (R36, log 30). -/
theorem channelWriteOp_of_absent {s : State} {i : Nat} (off : Word) (n : Nat) (v : Word) (hi : s.cfg.maxSlaves ≤ i) :
    channelWriteOp s i off n v = .refused .noSuchChannel :=
  if_neg (Nat.not_lt.mpr hi)

/-- Settles O7: the access ports, the quantum and the frame rows, each at its stop. -/
theorem stopsByName : Obligations.StopsByName := by
  refine fun s i => ⟨fun a n hat hout => ⟨?_, fun v => ?_⟩, fun t htr hen hat hout => ?_,
    fun hi off n v op hop => ?_⟩
  · exact exec_frd_of_none (windowRead_of_straddle (chanOf_of_single hat) hout)
  · exact exec_fwr_of_none (windowWrite_of_straddle v (chanOf_of_single hat) hout)
  · exact quantum_of_no_move htr hen (moveQuantum_of_straddle hat hout)
  · have hread := channelReadOp_of_absent off n hi
    have hwrite := channelWriteOp_of_absent off n v hi
    simp only [List.mem_cons, List.not_mem_nil, or_false] at hop
    rcases hop with rfl | rfl | rfl | rfl | rfl | rfl
    · exact hread
    · exact hread
    · exact hread
    · exact hwrite
    · exact hwrite
    · exact hwrite

end Sys2Proof.Machine

namespace Sys2Proof.Machine

-- Byte order (R98)

/-- The bytes of a longer value are its lowest byte and then the bytes of the value without it. -/
theorem leBytes_succ (n : Nat) (v : Word) : leBytes (n + 1) v = v.byte 0 :: leBytes n (v >>> 8) := by
  have hbyte : ∀ k, v.byte (k + 1) = Word.byte (v >>> 8) k := by
    intro k
    ext j hj
    simp only [Word.byte, BitVec.getElem_extractLsb', BitVec.getLsbD_ushiftRight]
    congr 1
    omega
  simp [leBytes, List.range_succ_eq_map, hbyte, Function.comp_def]

/-- A word is its lowest byte and the word above it. -/
theorem lowest_byte_or_shift (v : Word) : ((v.byte 0).setWidth 32 ||| (v >>> 8) <<< 8 : Word) = v := by
  ext j hj
  by_cases hlow : j < 8 <;> simp [hlow, hj]
  rw [show 8 + (j - 8) = j by omega, BitVec.getLsbD_eq_getElem hj]

/-- A value of `n` bytes is assembled from its bytes. -/
theorem leWord_leBytes (n : Nat) (v : Word) (hv : v.toNat < 2 ^ (8 * n)) : leWord (leBytes n v) = v := by
  induction n generalizing v with
  | zero =>
    have hzero : v = 0#32 := BitVec.eq_of_toNat_eq (by simpa using hv)
    rw [hzero]
    rfl
  | succ n ih =>
    have hrest : (v >>> 8 : Word).toNat < 2 ^ (8 * n) := by
      rw [BitVec.toNat_ushiftRight, Nat.shiftRight_eq_div_pow]
      rw [Nat.mul_succ, Nat.pow_add, Nat.mul_comm] at hv
      exact Nat.div_lt_of_lt_mul hv
    rw [leBytes_succ, leWord, ih _ hrest]
    exact lowest_byte_or_shift v

/-- Settles O44: the first half by induction on the number of bytes, the second byte by byte. -/
theorem littleEndianRoundTrip : Obligations.LittleEndianRoundTrip := by
  refine ⟨fun n v _ hv => leWord_leBytes n v hv, fun bs hlen => ?_⟩
  apply List.ext_getElem
  · simp [leBytes]
  · intro k hk hk'
    simpa [leBytes] using leWord_byte bs hlen k hk'

end Sys2Proof.Machine

namespace Sys2Proof.Machine

-- Rows that store a word and do nothing else (R135 to R137, R250, R251, R253)

/-- What writing one word of the register file leaves: that word, and everything else as before (R21). -/
theorem setWord_stores {s : State} {k : Nat} (v : Word) (hk : k < s.x.length) :
    (s.setWord k v).word k = v ∧ SameWordsBut s (s.setWord k v) [k] ∧ SameMemory s (s.setWord k v)
      ∧ s.setWord k v = { s with x := (s.setWord k v).x } :=
  ⟨s.word_setWord_self k v hk, fun j hj => s.word_setWord_ne k j v (by simpa [eq_comm] using hj), fun _ => rfl, rfl⟩

/-- A register's word lies in the register file of a state of the shape (R7(a)). -/
theorem State.Shape.wordIndex_lt_length {s : State} (h : s.Shape) {cat : Category} {k : Nat}
    (hk : wordIndex s.cfg cat = some k) : k < s.x.length := by
  rw [h.x_length]
  exact wordIndex_lt h.facts hk

/-- A row that writes a register's word stores it and changes nothing else. -/
theorem State.Shape.row_stores {s : State} (h : s.Shape) {op : Instr} {k : Nat} {w : Word} (cat : Category)
    (hk : wordIndex s.cfg cat = some k) (he : exec op s = .next (s.setWord k w)) :
    ∃ t, exec op s = .next t ∧ t.word k = w ∧ SameWordsBut s t [k] ∧ SameMemory s t ∧ t = { s with x := t.x } :=
  ⟨_, he, setWord_stores w (h.wordIndex_lt_length hk)⟩

/-- Settles O18: each row is the write of one category, which stores into that category's word. -/
theorem wordRowWrites : Obligations.WordRowWrites := by
  intro s v hs p hp
  simp only [List.mem_append, List.mem_cons, List.not_mem_nil, or_false] at hp
  rcases hp with (rfl | rfl | rfl) | hp
  · exact hs.row_stores .conf rfl rfl
  · exact hs.row_stores .ceCtrl rfl rfl
  · exact hs.row_stores .timings rfl rfl
  · split at hp
    case isFalse => simp at hp
    rename_i hd
    have hflash : wordIndex s.cfg .dmaFlashAddr = some 33 := if_pos hd
    have hdram : wordIndex s.cfg .dmaDramAddr = some 34 := if_pos hd
    have hlen : wordIndex s.cfg .dmaLen = some 35 := if_pos hd
    simp only [List.mem_cons, List.not_mem_nil, or_false] at hp
    rcases hp with rfl | rfl | rfl
    · exact hs.row_stores .dmaFlashAddr hflash (by simp [exec, execWAddr, writeCategory, hflash, dmaFlashOperand])
    · exact hs.row_stores .dmaDramAddr hdram (by simp [exec, execWAddr, writeCategory, hdram, dmaDramOperand])
    · exact hs.row_stores .dmaLen hlen (by simp [exec, execWLen, writeCategory, hlen, dmaLenOperand])

end Sys2Proof.Machine

namespace Sys2Proof.Machine

-- The pseudo-operations (R102)

theorem rd32_cfg (s : State) (off : Nat) : (rd32 s off).cfg = s.cfg := readCategory_cfg s _

/-- A byte offset of 32 bits is presented as itself. -/
theorem offsetWord_toNat {o : Nat} (h : o < 0x100000000) : (offsetWord o).toNat = o := by
  simpa [offsetWord] using h

/-- What a write presented at a byte offset of 32 bits performs (R130). -/
theorem exec_presented_write {s : State} {o : Nat} {v : Word} {op : Instr}
    (h : decode s.cfg (rawWrite (offsetWord o) v) = .ok op) (ho : o < 0x100000000) :
    exec op s = .next (wr32 s o v) := by
  rw [exec_decoded_write h, offsetWord_toNat ho]

/-- What a read presented at a byte offset of 32 bits performs (R130). -/
theorem exec_presented_read {s : State} {o : Nat} {op : Instr}
    (h : decode s.cfg (rawRead (offsetWord o)) = .ok op) (ho : o < 0x100000000) :
    exec op s = .next (rd32 s o) := by
  rw [exec_decoded_read h, offsetWord_toNat ho]

/-- The read and the write of CS.LOW and CS.HIGH, performed one after the other (R102). -/
theorem readModifyCtrl_eq_write {s t : State} {i : Nat} {v : Word} {rd op : Instr} (f : Word → Word)
    (hrd : decode s.cfg (rawRead (offsetWord (s.cfg.rCtrl0 + 4 * i))) = .ok rd)
    (ho : s.cfg.rCtrl0 + 4 * i < 0x100000000) (ht : exec rd s = .next t) (hv : t.reply = some v)
    (hop : decode s.cfg (rawWrite (offsetWord (s.cfg.rCtrl0 + 4 * i)) (f v)) = .ok op) :
    .next (readModifyCtrl s i f) = exec op t := by
  have hread : t = rd32 s (s.cfg.rCtrl0 + 4 * i) := by
    rw [exec_presented_read hrd ho] at ht
    exact (Host.Outcome.next.inj ht).symm
  have hcfg : t.cfg = s.cfg := by rw [hread, rd32_cfg]
  rw [← hcfg] at hop
  rw [exec_presented_write hop (hcfg ▸ ho)]
  simp [readModifyCtrl, ctrlOffset, ← hread, hcfg, hv]

/-- Settles O29: both sides perform the same accesses of the register port. -/
theorem pseudoOperationsExpand : Obligations.PseudoOperationsExpand := by
  intro s i w op hv
  refine ⟨fun hop ho => ?_, fun hop ho => ?_, fun hop => ?_, fun hop hd => ?_, fun rd t v hrd ho ht hr => ⟨?_, ?_⟩⟩
  · exact (exec_presented_write hop ho).symm
  · exact (exec_presented_write hop ho).symm
  · exact (exec_presented_write (o := 0x80) hop (by decide)).symm
  · have hcat : categoryOf s.cfg 0x80 = .dmaCtrl :=
      categoryOf_offset (Config.Valid.facts hv) (by simp [Category.offset, hd])
    rw [exec_presented_write (o := 0x80) hop (by decide), wr32, hcat]
    rfl
  · exact readModifyCtrl_eq_write (fun x => x &&& ~~~4#32) hrd ho ht hr
  · exact readModifyCtrl_eq_write (fun x => x ||| 4#32) hrd ho ht hr

end Sys2Proof.Machine

namespace Sys2Proof.Machine

-- CS.LOW and CS.HIGH (R102, R161, R164)

/-- On a slave with a control register the read answers its word and the write is a control write (R132, R161). -/
theorem readModifyCtrl_of_present {s : State} (h : s.Shape) {i : Nat} (hi : i < s.cfg.numCs) (f : Word → Word) :
    readModifyCtrl s i f
      = writeCtrl (s.answer (s.word (idxCtrl s.cfg i))) i (f (s.word (idxCtrl s.cfg i))) := by
  have hcat : categoryOf s.cfg (ctrlOffset s.cfg i) = .ctrl i :=
    categoryOf_offset h.facts (by simp [Category.offset, ctrlOffset, hi])
  have hread : rd32 s (ctrlOffset s.cfg i) = s.answer (s.word (idxCtrl s.cfg i)) := by
    rw [rd32, hcat]
    exact readCategory_stored (wordIndex_ctrl hi)
  simp [readModifyCtrl, hread, wr32, hcat, writeCategory, wordIndex_ctrl hi]

/-- On a slave without a control register both accesses are unimplemented (R133, R141). -/
theorem readModifyCtrl_of_absent {s : State} (h : s.Shape) {i : Nat} (hcs : s.cfg.numCs ≤ i)
    (hi : i < s.cfg.maxSlaves) (f : Word → Word) :
    readModifyCtrl s i f = { s with reply := some 0#32, log := s.log ++ [.u1, .u2] } := by
  have hcat : categoryOf s.cfg (ctrlOffset s.cfg i) = .unimplemented := categoryOf_absent_ctrl h.facts hcs hi
  simp [readModifyCtrl, rd32, hcat, readCategory, wr32, writeCategory, wordIndex, State.note, State.answer]

/-- The mode of a control word is its two lowest bits (R93). -/
theorem field_mode_congr {a b : Word} (h : ∀ j < 2, a.getLsbD j = b.getLsbD j) : a.field 1 0 = b.field 1 0 := by
  refine congrArg BitVec.toNat (BitVec.eq_of_getLsbD_eq fun j hj => ?_)
  simpa [hj] using h j hj

theorem getLsbD_ceStop_bit (j : Nat) (hj : j < 2) : (4#32).getLsbD j = false := by
  match j, hj with
  | 0, _ => rfl
  | 1, _ => rfl

/-- Clearing `ce_stop` clears bit 2 and keeps the mode. -/
theorem clear_ceStop (w : Word) :
    (w &&& ~~~4#32).getLsbD 2 = false ∧ (w &&& ~~~4#32 : Word).field 1 0 = w.field 1 0 := by
  refine ⟨by simp, field_mode_congr fun j hj => ?_⟩
  rw [BitVec.getLsbD_and, BitVec.getLsbD_not, getLsbD_ceStop_bit j hj]
  simp [show j < 32 by omega]

/-- Setting `ce_stop` sets bit 2 and keeps the mode. -/
theorem set_ceStop (w : Word) : (w ||| 4#32).getLsbD 2 = true ∧ (w ||| 4#32 : Word).field 1 0 = w.field 1 0 := by
  refine ⟨by simp, field_mode_congr fun j hj => ?_⟩
  rw [BitVec.getLsbD_or, getLsbD_ceStop_bit j hj, Bool.or_false]

/-- Settles O28: with a control register, the facts of the control write at the state that holds the answer. -/
theorem chipSelectPulses : Obligations.ChipSelectPulses := by
  refine fun s i hs => ⟨fun hi p hp => ?_, fun hcs hi op hop => ?_⟩
  · rw [show s.cfg.rCtrl0 / 4 + i = idxCtrl s.cfg i from rfl] at hp ⊢
    have hchan : i < s.chan.length := by
      rw [hs.chan_length]
      exact Nat.lt_of_lt_of_le hi hs.facts.numCs_le
    have hx : idxCtrl s.cfg i < s.x.length := by
      rw [hs.x_length]
      exact wordIndex_lt hs.facts (wordIndex_ctrl hi)
    have hpulse : exec p.1 s = .next (writeCtrl (s.answer (s.word (idxCtrl s.cfg i))) i p.2)
        ∧ p.2.getLsbD 2 = decide (p.1 ≠ .csLow i) ∧ p.2.field 1 0 = (s.word (idxCtrl s.cfg i)).field 1 0 := by
      simp only [List.mem_cons, List.not_mem_nil, or_false] at hp
      rcases hp with rfl | rfl
      · refine ⟨congrArg Host.Outcome.next (readModifyCtrl_of_present hs hi _), ?_⟩
        obtain ⟨hbit, hmode⟩ := clear_ceStop (s.word (idxCtrl s.cfg i))
        exact ⟨hbit.trans (by simp), hmode⟩
      · refine ⟨congrArg Host.Outcome.next (readModifyCtrl_of_present hs hi _), ?_⟩
        obtain ⟨hbit, hmode⟩ := set_ceStop (s.word (idxCtrl s.cfg i))
        exact ⟨hbit.trans (by simp), hmode⟩
    obtain ⟨hexec, hlevel, hmode⟩ := hpulse
    have hword : (writeCtrl (s.answer (s.word (idxCtrl s.cfg i))) i p.2).word (idxCtrl s.cfg i) = p.2 :=
      State.word_setWord_self _ _ _ hx
    refine ⟨_, hexec, hword, fun k hk => ?_, ?_, ?_, fun j hj => ?_, fun j => writeCtrl_win _ i j _,
      fun j hj => writeCtrl_csLevel _ i j _ hj, rfl, writeCtrl_sentBytes _ i _, fun _ => rfl, writeCtrl_frame _ i _⟩
    · exact State.word_setWord_ne _ _ k _ (by simpa [eq_comm] using hk)
    · rw [writeCtrl_csLevel (s.answer (s.word (idxCtrl s.cfg i))) i i p.2 hi, State.answer_cfg, hword, hlevel]
      simp
    · rw [writeCtrl_romd, if_pos ⟨rfl, hchan⟩, ctrlMode_user, hmode]
    · rw [writeCtrl_romd, if_neg (fun h => hj h.1.symm)]
      rfl
  · simp only [List.mem_cons, List.not_mem_nil, or_false] at hop
    rcases hop with rfl | rfl
    · exact congrArg Host.Outcome.next (readModifyCtrl_of_absent hs hcs hi _)
    · exact congrArg Host.Outcome.next (readModifyCtrl_of_absent hs hcs hi _)

end Sys2Proof.Machine

namespace Sys2Proof

-- The parts of a presented operation's head, read back (log 2)

section HeadOfPresented

variable (a d : Word) {f row n i : Nat}

@[simp] theorem RawOp.format_mk (hf : f < 256) : RawOp.format ⟨a, d, headOf f row n i⟩ = f :=
  RawOp.format_of_head rfl hf

@[simp] theorem RawOp.row_mk (hf : f < 256) (hr : row < 256) : RawOp.row ⟨a, d, headOf f row n i⟩ = row :=
  RawOp.row_of_head rfl hf hr

@[simp] theorem RawOp.size_mk (hf : f < 256) (hr : row < 256) (hn : n < 256) :
    RawOp.size ⟨a, d, headOf f row n i⟩ = n :=
  RawOp.size_of_head rfl hf hr hn

@[simp] theorem RawOp.slave_mk (hf : f < 256) (hr : row < 256) (hn : n < 256) (hi : i < 256) :
    RawOp.slave ⟨a, d, headOf f row n i⟩ = i :=
  RawOp.slave_of_head rfl hf hr hn hi

end HeadOfPresented

/-- An operation is determined by its address, its data and the four parts of its head. -/
theorem RawOp.mk_eq {op : RawOp} {a d : Word} {f row n i : Nat} (ha : op.addr = a) (hd : op.data = d)
    (hf : op.format = f) (hr : op.row = row) (hn : op.size = n) (hi : op.slave = i) :
    (⟨a, d, headOf f row n i⟩ : RawOp) = op := by
  subst ha hd hf hr hn hi
  rw [← RawOp.head_eq]

end Sys2Proof

namespace Sys2Proof.Machine

-- The rows of the register port (R91, R130)

/-- The access of a row that names a register: the register's category and, for a write, the word (R91). The rows of
unimplemented and out-of-range offsets name none. -/
def Instr.registerAccess : Instr → Option (Category × Option Word)
  | .rd32Conf => some (.conf, none)
  | .rd32CeCtrl => some (.ceCtrl, none)
  | .rd32IntrCtrl => some (.intrCtrl, none)
  | .rd32Ctrl0 => some (.ctrl 0, none)
  | .rd32Ctrl1 => some (.ctrl 1, none)
  | .rd32Ctrl2 => some (.ctrl 2, none)
  | .rd32Ctrl3 => some (.ctrl 3, none)
  | .rd32Ctrl4 => some (.ctrl 4, none)
  | .rd32Seg0 => some (.seg 0, none)
  | .rd32Seg1 => some (.seg 1, none)
  | .rd32Seg2 => some (.seg 2, none)
  | .rd32Seg3 => some (.seg 3, none)
  | .rd32Seg4 => some (.seg 4, none)
  | .rd32DmaCtrl => some (.dmaCtrl, none)
  | .rd32DmaFlashAddr => some (.dmaFlashAddr, none)
  | .rd32DmaDramAddr => some (.dmaDramAddr, none)
  | .rd32DmaLen => some (.dmaLen, none)
  | .rd32DmaChecksum => some (.dmaChecksum, none)
  | .rd32Timings => some (.timings, none)
  | .wr32Conf v => some (.conf, some v)
  | .wr32CeCtrl v => some (.ceCtrl, some v)
  | .wr32IntrCtrl v => some (.intrCtrl, some v)
  | .wr32Ctrl0 v => some (.ctrl 0, some v)
  | .wr32Ctrl1 v => some (.ctrl 1, some v)
  | .wr32Ctrl2 v => some (.ctrl 2, some v)
  | .wr32Ctrl3 v => some (.ctrl 3, some v)
  | .wr32Ctrl4 v => some (.ctrl 4, some v)
  | .wr32Seg0 v => some (.seg 0, some v)
  | .wr32Seg1 v => some (.seg 1, some v)
  | .wr32Seg2 v => some (.seg 2, some v)
  | .wr32Seg3 v => some (.seg 3, some v)
  | .wr32Seg4 v => some (.seg 4, some v)
  | .wr32DmaCtrl v => some (.dmaCtrl, some v)
  | .wr32DmaFlashAddr v => some (.dmaFlashAddr, some v)
  | .wr32DmaDramAddr v => some (.dmaDramAddr, some v)
  | .wr32DmaLen v => some (.dmaLen, some v)
  | .wr32DmaChecksum v => some (.dmaChecksum, some v)
  | .wr32Timings v => some (.timings, some v)
  | _ => none

/-- A register access as it is presented: the read at an offset, or the write of a word there (R90). -/
def rawAccess (off : Word) : Option Word → RawOp
  | none => rawRead off
  | some v => rawWrite off v

/-- The row that the decoder finds for such an access (R91). -/
def accessRow (c : Config) (off : Word) : Option Word → Except Reject Instr
  | none => readRow c off
  | some v => writeRow c off v

/-- An access at a multiple of 4 decodes to the row of its offset (R71, R91). -/
theorem decode_rawAccess (c : Config) {off : Word} (hoff : off.toNat % 4 = 0) (a : Option Word) :
    decode c (rawAccess off a) = accessRow c off a := by
  cases a with
  | none => simp [rawAccess, accessRow, rawRead, decode, decodeRegister, hoff]
  | some v => simp [rawAccess, accessRow, rawWrite, decode, decodeRegister, hoff]

/-- A register's offset decodes to the row that names it. -/
theorem accessRow_of_registerAccess {c : Config} {off : Word} {cat : Category} {a : Option Word} {i : Instr}
    (hi : Instr.registerAccess i = some (cat, a)) (hcat : categoryOf c off.toNat = cat) :
    accessRow c off a = .ok i := by
  cases i <;> cases hi <;> simp only [accessRow, readRow, writeRow, hcat]

/-- A row that names a register is presented at the register's offset. -/
theorem encode_of_registerAccess {c : Config} {cat : Category} {a : Option Word} {i : Instr} {o : Nat}
    (hi : Instr.registerAccess i = some (cat, a)) (ho : cat.offset c = some o) :
    encode c i = rawAccess (offsetWord o) a := by
  cases i <;> cases hi <;>
    simp only [Category.offset, Option.ite_none_right_eq_some, Option.some.injEq] at ho <;>
    first | (subst ho; rfl) | (obtain ⟨-, rfl⟩ := ho; rfl)

/-- A row that names a register applies where the block has the register (R22, R91). -/
theorem wf_of_registerAccess {c : Config} (hf : Config.Facts c) {cat : Category} {a : Option Word} {i : Instr} {o : Nat}
    (hi : Instr.registerAccess i = some (cat, a)) (ho : cat.offset c = some o) : i.wf c = true := by
  have hcat := categoryOf_offset hf ho
  cases i <;> cases hi <;>
    simp only [Category.offset, Option.ite_none_right_eq_some, Option.some.injEq] at ho <;>
    simp [Instr.wf, ho]
  case wr32DmaChecksum v =>
    obtain ⟨-, rfl⟩ := ho
    simp [checksumWriteApplies, hcat]

/-- A row that names a register applies only where the block has it. DMA_CHECKSUM's write applies
without the register too (log 31). -/
theorem offset_of_registerAccess {c : Config} {cat : Category} {a : Option Word} {i : Instr}
    (hi : Instr.registerAccess i = some (cat, a)) (hw : i.wf c = true) (hne : ∀ v, i ≠ .wr32DmaChecksum v) :
    ∃ o, cat.offset c = some o := by
  cases i <;> cases hi <;> simp only [Instr.wf, decide_eq_true_eq] at hw <;> simp [Category.offset, hw]
  case wr32DmaChecksum v => exact absurd rfl (hne v)

/-- The row that the decoder finds at a register's offset names the register and carries the written word. -/
theorem registerAccess_of_accessRow {c : Config} {off : Word} {a : Option Word} {i : Instr}
    (ho : (categoryOf c off.toNat).offset c = some off.toNat) (h : accessRow c off a = .ok i) :
    Instr.registerAccess i = some (categoryOf c off.toNat, a) := by
  cases a <;> simp only [accessRow, readRow, writeRow] at h <;> split at h <;> rename_i hcat <;> rw [hcat] at ho ⊢ <;>
    first | (cases h; rfl) | cases ho | cases h

/-- A slave index of the register map is below 5 (R2). -/
theorem categoryOf_index_lt {c : Config} (hf : Config.Facts c) {off : Nat} (hoff : off % 4 = 0) {i : Nat}
    (h : categoryOf c off = .seg i ∨ categoryOf c off = .ctrl i) : i < 5 := by
  have hmax := maxSlaves_le c
  have hcs := hf.numCs_le
  rcases categoryOf_cases hf off hoff with h1 | ⟨h1, -⟩ | ⟨h1, -⟩ <;> rcases h with h | h <;> rw [h] at h1 <;>
    simp only [Category.offset, Option.ite_none_right_eq_some, reduceCtorEq] at h1
  all_goals omega

/-- Every offset that is a multiple of 4 has a row, for reads and for writes (R91). -/
theorem exists_accessRow {c : Config} (hf : Config.Facts c) {off : Word} (hoff : off.toNat % 4 = 0)
    (a : Option Word) : ∃ i, accessRow c off a = .ok i := by
  have hidx := fun i => categoryOf_index_lt hf hoff (i := i)
  cases a <;> simp only [accessRow, readRow, writeRow] <;> split <;> rename_i hcat
  all_goals first
    | exact ⟨_, rfl⟩
    | (have hlt := hidx _ (.inl hcat); grind)
    | (have hlt := hidx _ (.inr hcat); grind)
    | (repeat' split) <;> exact ⟨_, rfl⟩

/-- A byte offset is the word that presents it. -/
theorem offsetWord_of_toNat (off : Word) : offsetWord off.toNat = off :=
  BitVec.eq_of_toNat_eq (offsetWord_toNat off.isLt)

/-- The row that the decoder finds is the operation presented by that very access (R90, R91). -/
theorem encode_of_accessRow {c : Config} (hf : Config.Facts c) {off : Word} (hoff : off.toNat % 4 = 0)
    {a : Option Word} {i : Instr} (h : accessRow c off a = .ok i) : i.wf c = true ∧ encode c i = rawAccess off a := by
  rcases categoryOf_cases hf off.toNat hoff with hcat | ⟨hcat, -⟩ | ⟨hcat, -⟩
  · have hi := registerAccess_of_accessRow hcat h
    exact ⟨wf_of_registerAccess hf hi hcat, by rw [encode_of_registerAccess hi hcat, offsetWord_of_toNat]⟩
  · cases a <;> simp only [accessRow, readRow, writeRow, hcat] at h <;> cases h <;>
      exact ⟨by simp [Instr.wf, oorApplies, hcat, hoff], rfl⟩
  · cases a with
    | none =>
      simp only [accessRow, readRow, hcat] at h
      split at h
      next h50 => cases h; exact ⟨rfl, by rw [h50]; rfl⟩
      split at h
      next h54 => cases h; exact ⟨rfl, by rw [h54]; rfl⟩
      next h50 h54 => cases h; exact ⟨by simp [Instr.wf, unimpReadApplies, hcat, hoff, h50, h54], rfl⟩
    | some v =>
      simp only [accessRow, writeRow, hcat] at h
      split at h
      next h50 => cases h; exact ⟨rfl, by rw [h50]; rfl⟩
      split at h
      next h54 => cases h; exact ⟨rfl, by rw [h54]; rfl⟩
      split at h
      next h90 =>
        cases h
        rw [h90] at hcat
        exact ⟨by simp [Instr.wf, checksumWriteApplies, show categoryOf c 0x90 = .unimplemented from hcat],
          by rw [h90]; rfl⟩
      next h50 h54 h90 =>
        cases h
        exact ⟨by simp [Instr.wf, unimpWriteApplies, unimpReadApplies, hcat, hoff, h50, h54, h90], rfl⟩

/-- An operation that is presented by an access to its own row's offset decodes. -/
theorem decode_encode_of_accessRow {c : Config} {off : Word} {a : Option Word} {i : Instr}
    (henc : encode c i = rawAccess off a) (hoff : off.toNat % 4 = 0) (hrow : accessRow c off a = .ok i) :
    decode c (encode c i) = .ok i := by
  rw [henc, decode_rawAccess c hoff, hrow]

/-- A register of the block has a named offset (R22, R7). -/
theorem mem_namedOffsets_of_offset {c : Config} (hf : Config.Facts c) {cat : Category} {o : Nat}
    (ho : cat.offset c = some o) : o ∈ c.namedOffsets := by
  have hcs := hf.numCs_le
  unfold Config.namedOffsets Config.dmaOffsets
  cases cat <;> simp only [Category.offset, Option.ite_none_right_eq_some, Option.some.injEq, reduceCtorEq] at ho
  case seg i =>
    obtain ⟨hi, rfl⟩ := ho
    simp [hi]
  case ctrl i =>
    obtain ⟨hi, rfl⟩ := ho
    simp [show i < c.maxSlaves by omega]
  all_goals simp [← ho]

/-- The row of a register of the block decodes from its own encoding, where the offset has 32 bits. -/
theorem decode_encode_named {c : Config} (hf : Config.Facts c) (hfit : c.OffsetsFit) {cat : Category}
    {a : Option Word} {i : Instr} {o : Nat} (hi : Instr.registerAccess i = some (cat, a))
    (ho : cat.offset c = some o) : decode c (encode c i) = .ok i := by
  have hpresented : (offsetWord o).toNat = o := offsetWord_toNat (hfit o (mem_namedOffsets_of_offset hf ho))
  obtain ⟨hmod, -⟩ := offset_bounds hf ho
  refine decode_encode_of_accessRow (encode_of_registerAccess hi ho) (by rw [hpresented, hmod]) ?_
  exact accessRow_of_registerAccess hi (by rw [hpresented]; exact categoryOf_offset hf ho)

/-- A write of DMA_CHECKSUM decodes from its own encoding, with the register or without it (log 31). -/
theorem decode_encode_checksum {c : Config} (v : Word) (hw : (Instr.wr32DmaChecksum v).wf c = true) :
    decode c (encode c (.wr32DmaChecksum v)) = .ok (.wr32DmaChecksum v) := by
  have hcat : categoryOf c (0x90#32).toNat = .dmaChecksum ∨ categoryOf c (0x90#32).toNat = .unimplemented := by
    simpa [Instr.wf, checksumWriteApplies] using hw
  refine decode_encode_of_accessRow (off := 0x90#32) (a := some v) rfl rfl ?_
  rcases hcat with hcat | hcat <;> simp only [accessRow, writeRow, hcat]
  rfl

/-- The rows of unimplemented and out-of-range offsets decode from their own encodings. -/
theorem decode_encode_unnamed {c : Config} (hf : Config.Facts c) {i : Instr} (hfmt : i.formatNumber ≤ 1)
    (hi : Instr.registerAccess i = none) (hw : i.wf c = true) : decode c (encode c i) = .ok i := by
  have hmisc1 : categoryOf c (0x50#32).toNat = .unimplemented := categoryOf_misc hf (.inl rfl)
  have hmisc2 : categoryOf c (0x54#32).toNat = .unimplemented := categoryOf_misc hf (.inr rfl)
  cases i
  case rd32Misc1 =>
    exact decode_encode_of_accessRow (off := 0x50#32) (a := none) rfl rfl
      (by simp only [accessRow, readRow, hmisc1]; rfl)
  case rd32Misc2 =>
    exact decode_encode_of_accessRow (off := 0x54#32) (a := none) rfl rfl
      (by simp only [accessRow, readRow, hmisc2]; rfl)
  case rd32Unimp off =>
    simp only [Instr.wf, unimpReadApplies, decide_eq_true_eq] at hw
    obtain ⟨hoff, hcat, h50, h54⟩ := hw
    exact decode_encode_of_accessRow (a := none) rfl hoff (by simp only [accessRow, readRow, hcat, h50, h54, if_false])
  case rd32Oor off =>
    simp only [Instr.wf, oorApplies, decide_eq_true_eq] at hw
    obtain ⟨hoff, hcat⟩ := hw
    exact decode_encode_of_accessRow (a := none) rfl hoff (by simp only [accessRow, readRow, hcat])
  case wr32Misc1 v =>
    exact decode_encode_of_accessRow (off := 0x50#32) (a := some v) rfl rfl
      (by simp only [accessRow, writeRow, hmisc1]; rfl)
  case wr32Misc2 v =>
    exact decode_encode_of_accessRow (off := 0x54#32) (a := some v) rfl rfl
      (by simp only [accessRow, writeRow, hmisc2]; rfl)
  case wr32Unimp off v =>
    simp only [Instr.wf, unimpWriteApplies, unimpReadApplies, Bool.and_eq_true, decide_eq_true_eq] at hw
    obtain ⟨⟨hoff, hcat, h50, h54⟩, h90⟩ := hw
    exact decode_encode_of_accessRow (a := some v) rfl hoff
      (by simp only [accessRow, writeRow, hcat, h50, h54, h90, if_false])
  case wr32Oor off v =>
    simp only [Instr.wf, oorApplies, decide_eq_true_eq] at hw
    obtain ⟨hoff, hcat⟩ := hw
    exact decode_encode_of_accessRow (a := some v) rfl hoff (by simp only [accessRow, writeRow, hcat])
  all_goals simp [Instr.formatNumber, Instr.registerAccess] at hfmt hi

/-- Every row of the register port decodes from its own encoding (R91). -/
theorem decode_encode_register {c : Config} (hf : Config.Facts c) (hfit : c.OffsetsFit) {i : Instr}
    (hfmt : i.formatNumber ≤ 1) (hw : i.wf c = true) : decode c (encode c i) = .ok i := by
  rcases hi : Instr.registerAccess i with _ | ⟨cat, a⟩
  · exact decode_encode_unnamed hf hfmt hi hw
  · by_cases hsum : ∃ v, i = .wr32DmaChecksum v
    · obtain ⟨v, rfl⟩ := hsum
      exact decode_encode_checksum v hw
    · obtain ⟨o, ho⟩ := offset_of_registerAccess hi hw (fun v hv => hsum ⟨v, hv⟩)
      exact decode_encode_named hf hfit hi ho

end Sys2Proof.Machine

namespace Sys2Proof.Machine

-- Every access at a multiple of 4 completes (R91, R130)

/-- The recognised offsets are those of the block's registers (R91). -/
theorem offset_of_mem_recognisedOffsets {c : Config} {off : Nat} (h : off ∈ recognisedOffsets c) :
    ∃ cat : Category, cat.offset c = some off := by
  simp only [recognisedOffsets, Config.dmaOffsets, List.mem_append, List.mem_cons, List.not_mem_nil, or_false,
    List.mem_map, List.mem_range] at h
  rcases h with (((rfl | rfl | rfl | rfl) | hdma) | ⟨i, hi, rfl⟩) | ⟨i, hi, rfl⟩
  · exact ⟨.conf, rfl⟩
  · exact ⟨.timings, rfl⟩
  · exact ⟨.ceCtrl, rfl⟩
  · exact ⟨.intrCtrl, rfl⟩
  · split at hdma
    case isFalse => cases hdma
    rename_i hd
    simp only [List.mem_cons, List.not_mem_nil, or_false] at hdma
    rcases hdma with rfl | rfl | rfl | rfl | rfl
    · exact ⟨.dmaCtrl, if_pos hd⟩
    · exact ⟨.dmaFlashAddr, if_pos hd⟩
    · exact ⟨.dmaDramAddr, if_pos hd⟩
    · exact ⟨.dmaLen, if_pos hd⟩
    · exact ⟨.dmaChecksum, if_pos hd⟩
  · exact ⟨.seg i, if_pos hi⟩
  · exact ⟨.ctrl i, if_pos hi⟩

/-- An offset in no recognised category decodes as unimplemented (R91 line 12). -/
theorem categoryOf_unrecognised {c : Config} (hf : Config.Facts c) {off : Nat} (hoff : off % 4 = 0)
    (hlt : off / 4 < c.nregs) (hno : off ∉ recognisedOffsets c) : categoryOf c off = .unimplemented :=
  categoryOf_unimplemented hf hoff hlt fun _ ho => hno (mem_recognisedOffsets_of_offset ho)

/-- An offset beyond the register file decodes as out of range (R91 line 0). -/
theorem categoryOf_of_nregs_le {c : Config} {off : Nat} (h : c.nregs ≤ off / 4) : categoryOf c off = .outOfRange :=
  if_pos h

/-- A register read changes the read port and the log alone (R130). -/
theorem rd32_frame (s : State) (off : Nat) :
    rd32 s off = { s with reply := (rd32 s off).reply, log := (rd32 s off).log } := by
  obtain ⟨codes, v, -, h⟩ := readCategory_spec s (categoryOf s.cfg off)
  rw [rd32, h]
  rfl

/-- A read at a recognised offset answers the word there (R132). -/
theorem rd32_recognised {s : State} (hf : Config.Facts s.cfg) {off : Nat} (h : off ∈ recognisedOffsets s.cfg) :
    rd32 s off = s.answer (s.word (off / 4)) := by
  obtain ⟨cat, ho⟩ := offset_of_mem_recognisedOffsets h
  rw [rd32, categoryOf_offset hf ho]
  exact readCategory_stored (by rw [wordIndex_eq_offset hf, ho]; rfl)

/-- Settles O15: the offset is out of range, a register's, or unimplemented. -/
theorem everyRegisterReadCompletes : Obligations.EveryRegisterReadCompletes := by
  intro s off hv hoff
  have hf := Config.Valid.facts hv
  obtain ⟨i, hrow⟩ := exists_accessRow hf hoff none
  have hdec : decode s.cfg (rawRead off) = .ok i := (decode_rawAccess s.cfg hoff none).trans hrow
  refine ⟨i, rd32 s off.toNat, hdec, exec_decoded_read hdec, rd32_frame s _, ?_⟩
  split
  next hout =>
    rw [rd32, categoryOf_of_nregs_le hout, readCategory_outOfRange]
    exact ⟨rfl, rfl⟩
  next hin =>
    split
    next hrec =>
      rw [rd32_recognised hf hrec]
      exact ⟨rfl, rfl⟩
    next hrec =>
      rw [rd32, categoryOf_unrecognised hf hoff (Nat.lt_of_not_le hin) hrec, readCategory_absent (by decide) rfl]
      exact ⟨rfl, rfl⟩

/-- Settles O21: the ignored writes are those of three categories. -/
theorem everyRegisterWriteCompletes : Obligations.EveryRegisterWriteCompletes := by
  intro s off v hv hoff
  have hf := Config.Valid.facts hv
  obtain ⟨i, hrow⟩ := exists_accessRow hf hoff (some v)
  have hdec : decode s.cfg (rawWrite off v) = .ok i := (decode_rawAccess s.cfg hoff (some v)).trans hrow
  refine ⟨i, wr32 s off.toNat v, hdec, exec_decoded_write hdec, fun hout => ?_, fun hin hignored => ?_⟩
  · rw [wr32, categoryOf_of_nregs_le hout]
    rfl
  · rcases hignored with hrec | ⟨hd, rfl⟩
    · rw [wr32, categoryOf_unrecognised hf hoff hin hrec]
      rfl
    · have hsum : categoryOf s.cfg (0x90#32).toNat = .dmaChecksum := categoryOf_offset hf (if_pos hd)
      rw [wr32, hsum]
      simp [writeCategory, wordIndex, hd, State.note]

end Sys2Proof.Machine

namespace Sys2Proof.Machine

-- The rows outside the register port: what each part of the decoder accepts (R92 to R94, R99, R102)

theorem accept_ok {u : Bool} {i j : Instr} : accept u j = .ok i ↔ u = true ∧ j = i := by
  cases u <;> simp [accept]

theorem sized_ok {op : RawOp} {i j : Instr} :
    sized op j = .ok i ↔ sizeOk op.size = true ∧ dataOk op.size op.data = true ∧ j = i := by
  unfold sized
  cases sizeOk op.size <;> cases dataOk op.size op.data <;> simp

/-- No value is too wide for its access if it is 0. -/
theorem dataOk_zero (n : Nat) : dataOk n 0#32 = true := by
  simp [dataOk]

theorem lt_of_sizeOk {n : Nat} (h : sizeOk n = true) : n < 256 := by
  simp only [sizeOk, decide_eq_true_eq] at h
  omega

theorem lt_of_slaveOk {i : Nat} (h : slaveOk i = true) : i < 256 := by
  have hlt : i < 5 := of_decide_eq_true h
  omega

/-- The sub-decode of a DMA_CTRL word depends on its three lowest bits alone (R94). -/
theorem dmaCtrl_bits (w : Word) : ∃ m < 8, w &&& 1#32 = BitVec.ofNat 32 (m &&& 1)
    ∧ w &&& 5#32 = BitVec.ofNat 32 (m &&& 5) ∧ w &&& 7#32 = BitVec.ofNat 32 m := by
  have hlow : w &&& 7#32 = BitVec.ofNat 32 (w &&& 7#32).toNat := by simp
  refine ⟨(w &&& 7#32).toNat, ?_, ?_, ?_, hlow⟩
  · exact Nat.lt_of_le_of_lt Nat.and_le_right (by decide)
  · calc w &&& 1#32 = w &&& 7#32 &&& 1#32 := by rw [BitVec.and_assoc]; rfl
      _ = BitVec.ofNat 32 ((w &&& 7#32).toNat &&& 1) := by rw [BitVec.ofNat_and, ← hlow]
  · calc w &&& 5#32 = w &&& 7#32 &&& 5#32 := by rw [BitVec.and_assoc]; rfl
      _ = BitVec.ofNat 32 ((w &&& 7#32).toNat &&& 5) := by rw [BitVec.ofNat_and, ← hlow]

/-- A DMA_CTRL word that is no stop, no checksum run and no copy to flash is a copy to main memory (R94). -/
theorem dmaCtrl_copy_to_memory {w : Word} (hstop : w &&& 1#32 ≠ 0#32) (hsum : w &&& 5#32 ≠ 5#32)
    (hd2f : w &&& 7#32 ≠ 3#32) : w &&& 7#32 = 1#32 := by
  obtain ⟨m, hm, h1, h5, h7⟩ := dmaCtrl_bits w
  rw [h1] at hstop
  rw [h5] at hsum
  rw [h7] at hd2f ⊢
  interval_cases m <;> simp_all

/-- The conditions of the three starts exclude each other and the stop's (R94). -/
theorem dmaCtrl_starts_exclusive (w : Word) :
    (w &&& 7#32 = 1#32 → w &&& 1#32 ≠ 0#32 ∧ w &&& 5#32 ≠ 5#32)
      ∧ (w &&& 7#32 = 3#32 → w &&& 1#32 ≠ 0#32 ∧ w &&& 5#32 ≠ 5#32)
      ∧ (w &&& 5#32 = 5#32 → w &&& 1#32 ≠ 0#32) := by
  obtain ⟨m, hm, h1, h5, h7⟩ := dmaCtrl_bits w
  rw [h1, h5, h7]
  interval_cases m <;> decide

/-- A control word is presented by its mode's row (R93). -/
theorem encode_of_decodeCtrlWord {c : Config} {op : RawOp} {i : Instr} (hfmt : op.format = 2)
    (h : decodeCtrlWord op = .ok i) : i.wf c = true ∧ encode c i = op := by
  unfold decodeCtrlWord at h
  split at h
  case isFalse => cases h
  rename_i hslave
  obtain ⟨hunused, hi⟩ := accept_ok.mp h
  simp only [decide_eq_true_eq] at hunused
  obtain ⟨haddr, hrow, hsize⟩ := hunused
  have hop : rawWord 2 0 op.slave op.data = op := RawOp.mk_eq haddr rfl hfmt hrow hsize rfl
  have hlt : op.data.field 1 0 < 4 := (op.data.extractLsb' 0 2).isLt
  split at hi <;> rename_i hmode <;> subst hi <;> refine ⟨?_, hop⟩
  case h_4 hne0 hne1 =>
    have hthree : ∀ m < 4, m ≠ 0 → m ≠ 1 → m ≠ 2 → m = 3 := by omega
    simp [Instr.wf, hslave, hthree _ hlt hne0 hne1 hmode]
  all_goals simp [Instr.wf, hslave, hmode]

/-- A DMA_CTRL word is presented by the row of what it asks for (R94). -/
theorem encode_of_decodeDmaCtrlWord {c : Config} {op : RawOp} {i : Instr} (hfmt : op.format = 3)
    (h : decodeDmaCtrlWord op = .ok i) : i.wf c = true ∧ encode c i = op := by
  obtain ⟨hunused, hi⟩ := accept_ok.mp h
  simp only [decide_eq_true_eq] at hunused
  obtain ⟨haddr, hrow, hsize, hslave⟩ := hunused
  have hop : rawWord 3 0 0 op.data = op := RawOp.mk_eq haddr rfl hfmt hrow hsize hslave
  split at hi
  next hstop => subst hi; exact ⟨by simp [Instr.wf, hstop], hop⟩
  split at hi
  next hsum => subst hi; exact ⟨by simp [Instr.wf, hsum], hop⟩
  split at hi
  next hd2f => subst hi; exact ⟨by simp [Instr.wf, hd2f], hop⟩
  next hstop hsum hd2f =>
    subst hi
    exact ⟨by simp [Instr.wf, dmaCtrl_copy_to_memory hstop hsum hd2f], hop⟩

/-- A word in a register's format is presented by that format's row (R92). -/
theorem encode_of_decodeWordFormat {c : Config} {op : RawOp} {i : Instr} (hfmt : op.format = 4)
    (h : decodeWordFormat op = .ok i) : i.wf c = true ∧ encode c i = op := by
  unfold decodeWordFormat at h
  dsimp only at h
  split at h <;> rename_i hrow
  case h_4 | h_5 =>
    split at h
    case isFalse => cases h
    rename_i hslave
    simp only [accept_ok, decide_eq_true_eq] at h
    obtain ⟨⟨haddr, hsize⟩, rfl⟩ := h
    exact ⟨hslave, RawOp.mk_eq haddr rfl hfmt hrow hsize rfl⟩
  case h_7 =>
    split at h <;> rename_i hside
    case h_3 => cases h
    all_goals
      simp only [accept_ok, decide_eq_true_eq] at h
      obtain ⟨⟨haddr, hsize⟩, rfl⟩ := h
      exact ⟨rfl, RawOp.mk_eq haddr rfl hfmt hrow hsize hside⟩
  case h_11 => cases h
  all_goals
    simp only [accept_ok, decide_eq_true_eq] at h
    obtain ⟨⟨haddr, hsize, hslave⟩, rfl⟩ := h
    exact ⟨rfl, RawOp.mk_eq haddr rfl hfmt hrow hsize hslave⟩

/-- A frame is presented by its row (R99). -/
theorem encode_of_decodeFrame {c : Config} {op : RawOp} {i : Instr} (hfmt : op.format = 5)
    (h : decodeFrame op = .ok i) : i.wf c = true ∧ encode c i = op := by
  unfold decodeFrame at h
  dsimp only at h
  split at h
  case isFalse => cases h
  rename_i hslave
  split at h <;> rename_i hrow
  case h_7 => cases h
  case h_1 | h_2 | h_5 =>
    split at h
    case isFalse => cases h
    rename_i hdata
    obtain ⟨hsize, -, rfl⟩ := sized_ok.mp h
    exact ⟨by simp [Instr.wf, hslave, hsize], RawOp.mk_eq rfl (of_decide_eq_true hdata) hfmt hrow rfl rfl⟩
  all_goals
    obtain ⟨hsize, hdata, rfl⟩ := sized_ok.mp h
    exact ⟨by simp [Instr.wf, hslave, hsize, hdata], RawOp.mk_eq rfl rfl hfmt hrow rfl rfl⟩

/-- An operation of the window port, the DMA agent or the reset source is presented by its row (R90). -/
theorem encode_of_decodePort {c : Config} {op : RawOp} {i : Instr} (hfmt : op.format = 6)
    (h : decodePort op = .ok i) : i.wf c = true ∧ encode c i = op := by
  unfold decodePort at h
  split at h
  case isTrue => cases h
  rename_i hslave
  have hslave : op.slave = 0 := by simpa using hslave
  split at h <;> rename_i hrow
  case h_1 =>
    split at h
    case isFalse => cases h
    rename_i hdata
    obtain ⟨hsize, -, rfl⟩ := sized_ok.mp h
    exact ⟨hsize, RawOp.mk_eq rfl hdata hfmt hrow rfl hslave⟩
  case h_2 =>
    obtain ⟨hsize, hdata, rfl⟩ := sized_ok.mp h
    exact ⟨by simp [Instr.wf, hsize, hdata], RawOp.mk_eq rfl rfl hfmt hrow rfl hslave⟩
  case h_3 | h_4 =>
    simp only [accept_ok, decide_eq_true_eq] at h
    obtain ⟨⟨haddr, hdata, hsize⟩, rfl⟩ := h
    exact ⟨rfl, RawOp.mk_eq haddr hdata hfmt hrow hsize hslave⟩
  case h_5 => cases h

/-- A pseudo-operation is presented by its row (R102). -/
theorem encode_of_decodePseudo {c : Config} {op : RawOp} {i : Instr} (hfmt : op.format = 7)
    (h : decodePseudo op = .ok i) : i.wf c = true ∧ encode c i = op := by
  unfold decodePseudo at h
  dsimp only at h
  split at h <;> rename_i hrow
  case h_3 =>
    split at h
    case isFalse => cases h
    rename_i hstart
    simp only [accept_ok, decide_eq_true_eq] at h
    obtain ⟨⟨haddr, hsize, hslave⟩, rfl⟩ := h
    exact ⟨by simp [Instr.wf, hstart], RawOp.mk_eq haddr rfl hfmt hrow hsize hslave⟩
  case h_6 => cases h
  all_goals
    split at h
    case isFalse => cases h
    rename_i hslave
    simp only [accept_ok, Bool.and_eq_true, decide_eq_true_eq, true_and] at h
  case h_1 | h_2 =>
    obtain ⟨⟨haddr, hsize⟩, rfl⟩ := h
    exact ⟨hslave, RawOp.mk_eq haddr rfl hfmt hrow hsize rfl⟩
  case h_4 | h_5 =>
    obtain ⟨⟨hdata, haddr, hsize⟩, rfl⟩ := h
    exact ⟨hslave, RawOp.mk_eq haddr hdata hfmt hrow hsize rfl⟩

/-- What decodes as a register access is that access at an offset that is a multiple of 4 (R71). -/
theorem decodeRegister_presented {op : RawOp} {u : Bool} {row : Except Reject Instr} {i : Instr}
    (h : decodeRegister op u row = .ok i) :
    op.addr.toNat % 4 = 0 ∧ row = .ok i ∧ op.size = 4 ∧ op.row = 0 ∧ op.slave = 0 ∧ u = true := by
  obtain ⟨hoff, hrow⟩ := decodeRegister_ok h
  unfold decodeRegister at h
  split at h
  case isTrue => cases h
  rename_i hsize
  rw [if_neg (by simp [hoff])] at h
  split at h
  case isFalse => cases h
  rename_i hparts
  obtain ⟨hr, hs, hu⟩ := hparts
  exact ⟨hoff, hrow, by simpa using hsize, hr, hs, hu⟩

/-- Settles O2: each format's decoder accepts only what its rows are presented as. -/
theorem encodeOfDecode : Obligations.EncodeOfDecode := by
  intro c hv op i h
  have hf := Config.Valid.facts hv
  unfold decode at h
  split at h <;> rename_i hfmt
  case h_1 =>
    obtain ⟨hoff, hrow, hsize, hr, hs, hu⟩ := decodeRegister_presented h
    obtain ⟨hw, henc⟩ := encode_of_accessRow hf hoff (a := none) hrow
    exact ⟨hw, henc.trans (RawOp.mk_eq rfl (of_decide_eq_true hu) hfmt hr hsize hs)⟩
  case h_2 =>
    obtain ⟨hoff, hrow, hsize, hr, hs, -⟩ := decodeRegister_presented h
    obtain ⟨hw, henc⟩ := encode_of_accessRow hf hoff (a := some op.data) hrow
    exact ⟨hw, henc.trans (RawOp.mk_eq rfl rfl hfmt hr hsize hs)⟩
  case h_3 => exact encode_of_decodeCtrlWord hfmt h
  case h_4 => exact encode_of_decodeDmaCtrlWord hfmt h
  case h_5 => exact encode_of_decodeWordFormat hfmt h
  case h_6 => exact encode_of_decodeFrame hfmt h
  case h_7 => exact encode_of_decodePort hfmt h
  case h_8 => exact encode_of_decodePseudo hfmt h
  case h_9 => cases h

/-- Settles O1: a register row decodes by its offset; of every other row the parts of the head are read back. -/
theorem decodeOfEncode : Obligations.DecodeOfEncode := by
  intro c hv hfit i hw
  have hf := Config.Valid.facts hv
  cases i
  case ctrlRead j w | ctrlFastread j w | ctrlWrite j w | ctrlUser j w =>
    simp only [Instr.wf, Bool.and_eq_true, decide_eq_true_eq] at hw
    obtain ⟨hj, hmode⟩ := hw
    simp [encode, rawWord, decode, decodeCtrlWord, accept, lt_of_slaveOk hj, hj, hmode]
  case dmaStop w =>
    simp only [Instr.wf, decide_eq_true_eq] at hw
    simp [encode, rawWord, decode, decodeDmaCtrlWord, accept, hw]
  case dmaStartF2d w | dmaStartD2f w | dmaStartCksum w =>
    obtain ⟨hf2d, hd2f, hsum⟩ := dmaCtrl_starts_exclusive w
    simp only [Instr.wf, decide_eq_true_eq] at hw
    simp [encode, rawWord, decode, decodeDmaCtrlWord, accept, hw, hf2d, hd2f, hsum]
  case wCtrl j w | wSeg j w =>
    have hj : slaveOk j = true := hw
    simp [encode, rawWord, decode, decodeWordFormat, accept, lt_of_slaveOk hj, hj]
  case wAddr side w =>
    cases side <;> simp [encode, rawWord, decode, decodeWordFormat, accept]
  case wConf w | wCe w | wIntr w | wDmactrl w | wLen w | wSum w | wRaw w =>
    simp [encode, rawWord, decode, decodeWordFormat, accept]
  case fRd3 j off n | fRd4 j off n | fUrd j off n =>
    simp only [Instr.wf, Bool.and_eq_true] at hw
    obtain ⟨hj, hn⟩ := hw
    simp [encode, decode, decodeFrame, sized, lt_of_slaveOk hj, lt_of_sizeOk hn, hj, hn, dataOk_zero]
  case fWr3 j off n v | fWr4 j off n v | fUwr j off n v =>
    simp only [Instr.wf, Bool.and_eq_true] at hw
    obtain ⟨⟨hj, hn⟩, hdata⟩ := hw
    simp [encode, decode, decodeFrame, sized, lt_of_slaveOk hj, lt_of_sizeOk hn, hj, hn, hdata]
  case frd a n =>
    have hn : sizeOk n = true := hw
    simp [encode, decode, decodePort, sized, lt_of_sizeOk hn, hn, dataOk_zero]
  case fwr a n v =>
    simp only [Instr.wf, Bool.and_eq_true] at hw
    obtain ⟨hn, hdata⟩ := hw
    simp [encode, decode, decodePort, sized, lt_of_sizeOk hn, hn, hdata]
  case dmaq | reset =>
    simp [encode, rawWord, decode, decodePort, accept]
  case setctrl j w | setseg j w =>
    have hj : slaveOk j = true := hw
    simp [encode, rawWord, decode, decodePseudo, accept, lt_of_slaveOk hj, hj]
  case csLow j | csHigh j =>
    have hj : slaveOk j = true := hw
    simp [encode, rawWord, decode, decodePseudo, accept, lt_of_slaveOk hj, hj]
  case dmaStart w =>
    simp only [Instr.wf, decide_eq_true_eq] at hw
    simp [encode, rawWord, decode, decodePseudo, accept, hw]
  all_goals exact decode_encode_register hf hfit (by simp [Instr.formatNumber]) hw

end Sys2Proof.Machine

namespace Sys2Proof.Machine

-- What the rows of the register port perform (R130), whatever the configuration

/-- A row that reads a register performs the read of its category (R130). -/
theorem exec_of_readAccess {cat : Category} {i : Instr} (hi : Instr.registerAccess i = some (cat, none)) (s : State) :
    exec i s = .next (readCategory s cat) := by
  cases i <;> cases hi <;> rfl

/-- A row that writes a register performs the write of its category (R130). -/
theorem exec_of_writeAccess {cat : Category} {v : Word} {i : Instr}
    (hi : Instr.registerAccess i = some (cat, some v)) (s : State) : exec i s = .next (writeCategory s cat v) := by
  cases i <;> cases hi <;> rfl

/-- Where a row that names a register does not apply, the block lacks the register (R22, R133, R141). DMA_CHECKSUM's
write applies by the layout (log 31). -/
theorem absent_of_not_wf {c : Config} {cat : Category} {a : Option Word} {i : Instr}
    (hi : Instr.registerAccess i = some (cat, a)) (hw : i.wf c = false) (hne : ∀ v, i ≠ .wr32DmaChecksum v) :
    cat ≠ .outOfRange ∧ wordIndex c cat = none := by
  cases i <;> cases hi <;> simp only [Instr.wf, decide_eq_false_iff_not, reduceCtorEq] at hw <;>
    simp [wordIndex, hw]
  case wr32DmaChecksum v => exact absurd rfl (hne v)

/-- DMA_CHECKSUM's write is no read. -/
theorem ne_checksumWrite_of_readAccess {cat : Category} {i : Instr} (hi : Instr.registerAccess i = some (cat, none))
    (v : Word) : i ≠ .wr32DmaChecksum v := by
  rintro rfl
  cases hi

end Sys2Proof.Machine

namespace Sys2Proof.Machine

-- Register reads (R131 to R133)

/-- A row of a register that the block has answers the word at the register's offset (R132). -/
theorem exec_read_stored {s : State} (hf : Config.Facts s.cfg) {cat : Category} {i : Instr} {o : Nat}
    (hi : Instr.registerAccess i = some (cat, none)) (ho : cat.offset s.cfg = some o) :
    exec i s = .next (s.answer (s.word (o / 4))) := by
  rw [exec_of_readAccess hi, readCategory_stored (by rw [wordIndex_eq_offset hf, ho]; rfl)]

/-- Settles O12: a row that applies names a register of the block, whose offset is the one listed. -/
theorem storedRegistersAreRead : Obligations.StoredRegistersAreRead := by
  intro s hv p hp hw
  obtain ⟨cat, hi, hlisted⟩ : ∃ cat, Instr.registerAccess p.1 = some (cat, none)
      ∧ ∀ o, cat.offset s.cfg = some o → p.2 = o := by
    simp only [List.mem_cons, List.not_mem_nil, or_false] at hp
    rcases hp with rfl | rfl | rfl | rfl | rfl | rfl | rfl | rfl | rfl | rfl | rfl | rfl | rfl | rfl | rfl | rfl | rfl
      | rfl | rfl <;>
    exact ⟨_, rfl, by simp [Category.offset]⟩
  obtain ⟨o, ho⟩ := offset_of_registerAccess hi hw (ne_checksumWrite_of_readAccess hi)
  rw [exec_read_stored (Config.Valid.facts hv) hi ho, hlisted o ho, State.answer]

/-- Settles O13: the read of the category out of range. -/
theorem outOfRangeRead : Obligations.OutOfRangeRead := by
  intro s off
  refine ⟨(s.note [.ge1]).answer 0#32, ?_, rfl, rfl, rfl⟩
  exact congrArg Host.Outcome.next (readCategory_outOfRange s)

/-- Settles O14: each row is the read of a category without a word. -/
theorem unimplementedReads : Obligations.UnimplementedReads := by
  intro s off i hi
  obtain ⟨cat, he, hin, habsent⟩ : ∃ cat : Category, exec i s = .next (readCategory s cat) ∧ cat ≠ .outOfRange
      ∧ wordIndex s.cfg cat = none := by
    rcases hi with hi | ⟨hi, hw⟩
    · simp only [List.mem_cons, List.not_mem_nil, or_false] at hi
      exact ⟨.unimplemented, by rcases hi with rfl | rfl | rfl <;> rfl, by decide, rfl⟩
    · obtain ⟨cat, ha⟩ : ∃ cat, Instr.registerAccess i = some (cat, none) := by
        revert i
        simp [Instr.registerAccess]
      exact ⟨cat, exec_of_readAccess ha s, absent_of_not_wf ha hw (ne_checksumWrite_of_readAccess ha)⟩
  rw [readCategory_absent hin habsent] at he
  exact ⟨_, he, rfl, rfl, rfl⟩

end Sys2Proof.Machine

namespace Sys2Proof.Machine

-- Register writes that store a word, and those that are ignored (R135 to R138, R140, R141)

/-- Settles O16: each of the three rows stores into its category's word. -/
theorem verbatimWrites : Obligations.VerbatimWrites := by
  intro s v hs p hp
  simp only [List.mem_cons, List.not_mem_nil, or_false] at hp
  rcases hp with rfl | rfl | rfl
  · exact hs.row_stores .conf rfl rfl
  · exact hs.row_stores .ceCtrl rfl rfl
  · exact hs.row_stores .timings rfl rfl

/-- Settles O17: both rows store into the word of INTR_CTRL. -/
theorem interruptControlWrite : Obligations.InterruptControlWrite := by
  intro s v hs i hi
  simp only [List.mem_cons, List.not_mem_nil, or_false] at hi
  rcases hi with rfl | rfl <;> exact hs.row_stores .intrCtrl rfl rfl

/-- Settles O19: the write of the category out of range. -/
theorem outOfRangeWrite : Obligations.OutOfRangeWrite := by
  intro s off v
  exact ⟨s.note [.ge2], rfl, rfl, rfl⟩

/-- The categories whose writes are ignored with U2: the checksum register, and every register that the block lacks
(R141). -/
def Category.IgnoresWrites (c : Config) (cat : Category) : Prop :=
  cat = .dmaChecksum ∨ cat ≠ .outOfRange ∧ wordIndex c cat = none

/-- Such a write logs U2 and changes nothing (R141). -/
theorem writeCategory_ignored {s : State} {cat : Category} (h : cat.IgnoresWrites s.cfg) (v : Word) :
    writeCategory s cat v = s.note [.u2] := by
  rcases h with rfl | ⟨hin, habsent⟩
  · cases hd : s.cfg.hasDma <;> simp [writeCategory, wordIndex, hd]
  · unfold writeCategory
    rw [habsent]
    cases cat
    case outOfRange => exact absurd rfl hin
    all_goals rfl

theorem ctrl_ignoresWrites {c : Config} {j : Nat} (h : c.numCs ≤ j) : (Category.ctrl j).IgnoresWrites c :=
  .inr ⟨by simp, by simpa [wordIndex] using h⟩

theorem seg_ignoresWrites {c : Config} {j : Nat} (h : c.maxSlaves ≤ j) : (Category.seg j).IgnoresWrites c :=
  .inr ⟨by simp, by simpa [wordIndex] using h⟩

/-- Without the engine the DMA registers are absent (R267). -/
theorem dma_ignoresWrites {c : Config} (hd : c.hasDma = false) {cat : Category}
    (h : cat ∈ [Category.dmaCtrl, .dmaFlashAddr, .dmaDramAddr, .dmaLen]) : cat.IgnoresWrites c := by
  simp only [List.mem_cons, List.not_mem_nil, or_false] at h
  rcases h with rfl | rfl | rfl | rfl <;> exact .inr ⟨by decide, by simp [wordIndex, hd]⟩

/-- Settles O20: each row is the write of a category that ignores it. -/
theorem unimplementedWrites : Obligations.UnimplementedWrites := by
  intro s off v j i hi
  obtain ⟨cat, he, hignored⟩ : ∃ cat : Category, exec i s = .next (writeCategory s cat v)
      ∧ cat.IgnoresWrites s.cfg := by
    rcases hi with hi | ⟨hi, hw⟩ | ⟨hi, hj⟩ | ⟨rfl, hj⟩ | ⟨hi, hd⟩
    · simp only [List.mem_cons, List.not_mem_nil, or_false] at hi
      rcases hi with rfl | rfl | rfl | rfl | rfl
      · exact ⟨.unimplemented, rfl, .inr ⟨by decide, rfl⟩⟩
      · exact ⟨.unimplemented, rfl, .inr ⟨by decide, rfl⟩⟩
      · exact ⟨.unimplemented, rfl, .inr ⟨by decide, rfl⟩⟩
      · exact ⟨.dmaChecksum, rfl, .inl rfl⟩
      · exact ⟨.dmaChecksum, rfl, .inl rfl⟩
    · obtain ⟨⟨cat, ha⟩, hne⟩ : (∃ cat, Instr.registerAccess i = some (cat, some v))
          ∧ ∀ w, i ≠ .wr32DmaChecksum w := by
        revert i
        simp [Instr.registerAccess]
      exact ⟨cat, exec_of_writeAccess ha s, .inr (absent_of_not_wf ha hw hne)⟩
    · simp only [List.mem_cons, List.not_mem_nil, or_false] at hi
      exact ⟨.ctrl j, by rcases hi with rfl | rfl | rfl | rfl | rfl <;> rfl, ctrl_ignoresWrites hj⟩
    · exact ⟨.seg j, rfl, seg_ignoresWrites hj⟩
    · have hdma := fun cat => dma_ignoresWrites hd (cat := cat)
      simp only [List.mem_cons, List.not_mem_nil, or_false] at hi
      rcases hi with rfl | rfl | rfl | rfl | rfl | rfl | rfl | rfl
      iterate 5 exact ⟨.dmaCtrl, rfl, hdma _ (by decide)⟩
      · exact ⟨.dmaFlashAddr, rfl, hdma _ (by decide)⟩
      · exact ⟨.dmaDramAddr, rfl, hdma _ (by decide)⟩
      · exact ⟨.dmaLen, rfl, hdma _ (by decide)⟩
  rw [writeCategory_ignored hignored] at he
  exact ⟨_, he, rfl, rfl⟩

end Sys2Proof.Machine

namespace Sys2Proof.Machine

-- The segment write of the stored word (R139)

theorem writeCategory_seg {s : State} {i : Nat} (hi : i < s.cfg.maxSlaves) (v : Word) :
    writeCategory s (.seg i) v = writeSeg s i v := by
  simp [writeCategory, wordIndex, hi]

/-- The equality test of R139: the write of the stored word is no write. -/
theorem writeSeg_stored (s : State) (i : Nat) : writeSeg s i (s.word (idxSeg i)) = s := if_pos rfl

/-- A segment register decodes from its offset (R91). -/
theorem categoryOf_seg {c : Config} (hf : Config.Facts c) {i : Nat} (hi : i < c.maxSlaves) :
    categoryOf c (0x30 + 4 * i) = .seg i :=
  categoryOf_offset hf (if_pos hi)

/-- Settles O24: every row is the write of the segment register, and the stored word passes the equality test. -/
theorem segmentWriteOfTheSameWord : Obligations.SegmentWriteOfTheSameWord := by
  intro s i hv hi op hop
  have he : exec op s = .next (writeCategory s (.seg i) (s.word (idxSeg i))) := by
    simp only [List.mem_cons, List.not_mem_nil, or_false, Prod.mk.injEq] at hop
    rcases hop with (rfl | rfl) | ⟨rfl, rfl⟩ | ⟨rfl, rfl⟩ | ⟨rfl, rfl⟩ | ⟨rfl, rfl⟩ | ⟨rfl, rfl⟩
    case inl.inr =>
      simp only [exec, execSetseg, wr32, categoryOf_seg (Config.Valid.facts hv) hi]
      rfl
    all_goals rfl
  rw [he, writeCategory_seg hi, writeSeg_stored]

end Sys2Proof.Machine

namespace Sys2Proof.Machine

-- What no register write reaches, and the two outputs that some reach (R143)

/-- What every register write leaves: the bytes exchanged, main memory, the collaborators' inputs and the read port. -/
structure StaysInside (s t : State) : Prop where
  sent : sentBytes t.trace = sentBytes s.trace
  dram : t.dram = s.dram
  flashImage : t.flashImage = s.flashImage
  spiReplies : t.spiReplies = s.spiReplies
  draws : t.draws = s.draws
  reply : t.reply = s.reply

/-- A segment write moves a window, stores a word and logs (R190). -/
theorem writeSeg_frame (s : State) (i : Nat) (v : Word) :
    writeSeg s i v = { s with
      x := (writeSeg s i v).x, chan := (writeSeg s i v).chan, log := (writeSeg s i v).log } := by
  rcases writeSeg_cases s i v with ⟨codes, -, h⟩ | ⟨codes, w, word, -, -, -, h⟩ <;> rw [h] <;> rfl

/-- A write of DMA_CTRL stores words, sets the latch, lowers the line and logs (R252). -/
theorem writeDmaCtrl_frame (s : State) (v : Word) :
    writeDmaCtrl s v = { s with
      x := (writeDmaCtrl s v).x, irq := (writeDmaCtrl s v).irq, dma := (writeDmaCtrl s v).dma
      log := (writeDmaCtrl s v).log } := by
  rcases writeDmaCtrl_cases s v with ⟨-, h⟩ | ⟨-, -, h⟩ | ⟨-, -, h⟩ <;> rw [h] <;> rfl

/-- Only the disable write moves the line (R252, R264). -/
theorem writeDmaCtrl_irq {s : State} {v : Word} (h : dmaCtrlEn v = true) : (writeDmaCtrl s v).irq = s.irq := by
  rcases writeDmaCtrl_cases s v with ⟨he, -⟩ | ⟨-, -, h1⟩ | ⟨-, -, h1⟩
  · exact absurd he (by simp [h])
  · rw [h1]; rfl
  · rw [h1]; rfl

/-- A register write exchanges nothing with the collaborators (R143). -/
theorem writeCategory_staysInside (s : State) (cat : Category) (v : Word) :
    StaysInside s (writeCategory s cat v) := by
  rcases writeCategory_cases s cat v with ⟨code, -, h⟩ | ⟨k, w, -, -, h⟩ | ⟨i, -, -, h⟩ | ⟨i, -, -, h⟩ | ⟨-, -, h⟩ <;>
    rw [h]
  · exact ⟨rfl, rfl, rfl, rfl, rfl, rfl⟩
  · exact ⟨rfl, rfl, rfl, rfl, rfl, rfl⟩
  · rw [writeSeg_frame]
    exact ⟨rfl, rfl, rfl, rfl, rfl, rfl⟩
  · exact ⟨writeCtrl_sentBytes s i v, rfl, rfl, rfl, rfl, rfl⟩
  · rw [writeDmaCtrl_frame]
    exact ⟨rfl, rfl, rfl, rfl, rfl, rfl⟩

/-- A register write moves a chip select only as the write of a control register (R143, R164). -/
theorem writeCategory_csOut (s : State) (cat : Category) (v : Word) :
    (writeCategory s cat v).csOut = s.csOut ∨ ∃ j < s.cfg.numCs, cat = .ctrl j := by
  rcases writeCategory_cases s cat v with ⟨code, -, h⟩ | ⟨k, w, -, -, h⟩ | ⟨i, -, -, h⟩ | ⟨i, hcat, hi, -⟩ | ⟨-, -, h⟩
  · exact .inl (by rw [h]; rfl)
  · exact .inl (by rw [h]; rfl)
  · exact .inl (by rw [h, writeSeg_frame])
  · exact .inr ⟨i, hi, hcat⟩
  · exact .inl (by rw [h, writeDmaCtrl_frame])

/-- A register write moves the line only as the disable write (R143, R264). -/
theorem writeCategory_irq (s : State) (cat : Category) (v : Word) :
    (writeCategory s cat v).irq = s.irq ∨ cat = .dmaCtrl ∧ s.cfg.hasDma = true ∧ dmaCtrlEn v = false := by
  rcases writeCategory_cases s cat v with ⟨code, -, h⟩ | ⟨k, w, -, -, h⟩ | ⟨i, -, -, h⟩ | ⟨i, -, -, h⟩ | ⟨hcat, hd, h⟩
  · exact .inl (by rw [h]; rfl)
  · exact .inl (by rw [h]; rfl)
  · exact .inl (by rw [h, writeSeg_frame])
  · exact .inl (by rw [h]; rfl)
  · cases hen : dmaCtrlEn v with
    | false => exact .inr ⟨hcat, hd, rfl⟩
    | true => exact .inl (by rw [h, writeDmaCtrl_irq hen])

/-- An offset that decodes to a register of the block is the register's (R91). -/
theorem offset_of_categoryOf {c : Config} (hf : Config.Facts c) {off o : Nat} (hoff : off % 4 = 0)
    (ho : (categoryOf c off).offset c = some o) : off = o := by
  rcases categoryOf_cases hf off hoff with h | ⟨h, -⟩ | ⟨h, -⟩
  · exact Option.some.inj (h.symm.trans ho)
  · rw [h] at ho; cases ho
  · rw [h] at ho; cases ho

/-- Settles O22: a decoded write is the write of its offset's category, and a category has one offset. -/
theorem registerWritesStayInside : Obligations.RegisterWritesStayInside := by
  intro s t off v i hv hdec he
  have hf := Config.Valid.facts hv
  obtain ⟨hoff, -⟩ := decode_write_of hdec
  rw [exec_decoded_write hdec] at he
  obtain rfl : wr32 s off.toNat v = t := Host.Outcome.next.inj he
  obtain ⟨hsent, hdram, himage, hreplies, hdraws, hreply⟩ := writeCategory_staysInside s (categoryOf s.cfg off.toNat) v
  refine ⟨hsent, fun a => by rw [wr32, hdram], himage, hreplies, hdraws, hreply, fun hcs => ?_, fun hirq => ?_⟩
  · obtain ⟨j, hj, hcat⟩ := (writeCategory_csOut s _ v).resolve_left hcs
    exact ⟨j, hj, offset_of_categoryOf hf hoff (by rw [hcat]; exact if_pos hj)⟩
  · obtain ⟨hcat, hd, hen⟩ := (writeCategory_irq s _ v).resolve_left hirq
    have h80 : off.toNat = 0x80 := offset_of_categoryOf hf hoff (by rw [hcat]; exact if_pos hd)
    exact ⟨BitVec.eq_of_toNat_eq h80, hen⟩

end Sys2Proof.Machine

namespace Sys2Proof.Machine

-- Control writes (R161, R163, R164)

theorem writeCategory_ctrl {s : State} {i : Nat} (hi : i < s.cfg.numCs) (v : Word) :
    writeCategory s (.ctrl i) v = writeCtrl s i v := by
  simp [writeCategory, wordIndex_ctrl hi]

/-- A control register decodes from its offset (R91). -/
theorem categoryOf_ctrlOffset {c : Config} (hf : Config.Facts c) {i : Nat} (hi : i < c.numCs) :
    categoryOf c (ctrlOffset c i) = .ctrl i :=
  categoryOf_offset hf (if_pos hi)

/-- Every slave with a control register has a channel (R7). -/
theorem State.Shape.ctrl_lt_chan_length {s : State} (h : s.Shape) {i : Nat} (hi : i < s.cfg.numCs) :
    i < s.chan.length := by
  rw [h.chan_length]
  exact Nat.lt_of_lt_of_le hi h.facts.numCs_le

/-- The written control word reads back (R161). -/
theorem State.Shape.writeCtrl_word_self {s : State} (h : s.Shape) {i : Nat} (hi : i < s.cfg.numCs) (v : Word) :
    (writeCtrl s i v).word (idxCtrl s.cfg i) = v := by
  rw [writeCtrl_word, State.word_setWord_self _ _ _ (h.wordIndex_lt_length (wordIndex_ctrl hi))]

/-- A control write stores one word (R161). -/
theorem writeCtrl_sameWordsBut (s : State) (i : Nat) (v : Word) :
    SameWordsBut s (writeCtrl s i v) [idxCtrl s.cfg i] := by
  intro k hk
  rw [writeCtrl_word, State.word_setWord_ne _ _ _ _ (by simpa [eq_comm] using hk)]

/-- The written slave serves its window as plain memory unless the word selects User mode, mode 3 (R162, R163). -/
theorem State.Shape.writeCtrl_romd_self {s : State} (h : s.Shape) {i : Nat} (hi : i < s.cfg.numCs) (v : Word) :
    (writeCtrl s i v).romd i = decide (v.field 1 0 ≠ 3) := by
  rw [writeCtrl_romd, if_pos ⟨rfl, h.ctrl_lt_chan_length hi⟩, ctrlMode_user]

theorem writeCtrl_romd_ne (s : State) {i j : Nat} (v : Word) (hj : j ≠ i) :
    (writeCtrl s i v).romd j = s.romd j := by
  rw [writeCtrl_romd, if_neg fun h => hj h.1.symm]

/-- Settles O27: every row is the write of the control register's category, SETCTRL by way of the register's offset. -/
theorem controlWrite : Obligations.ControlWrite := by
  intro s i v hs hi op hop
  have hcategory : exec op s = .next (writeCategory s (.ctrl i) v) := by
    simp only [List.mem_cons, List.not_mem_nil, or_false, Prod.mk.injEq] at hop
    rcases hop with (rfl | rfl | rfl | rfl | rfl | rfl) | ⟨rfl, rfl⟩ | ⟨rfl, rfl⟩ | ⟨rfl, rfl⟩ | ⟨rfl, rfl⟩ | ⟨rfl, rfl⟩
    case inl.inr.inr.inr.inr.inr =>
      rw [← categoryOf_ctrlOffset hs.facts hi]
      rfl
    all_goals rfl
  have hexec : exec op s = .next (writeCtrl s i v) := by rw [hcategory, writeCategory_ctrl hi]
  exact ⟨_, hexec, hs.writeCtrl_word_self hi v, writeCtrl_sameWordsBut s i v, hs.writeCtrl_romd_self hi v,
    fun _ hj => writeCtrl_romd_ne s v hj, fun j => writeCtrl_win s i j v, (writeCtrl_shape i v hs).csOut_length,
    fun j hj => writeCtrl_csLevel s i j v hj, writeCtrl_sentBytes s i v, fun _ => rfl, writeCtrl_frame s i v⟩

end Sys2Proof.Machine

namespace Sys2Proof.Machine

-- The window that a segment write stores (R184 to R186)

/-- The end correction, by the parts of the start correction (R185). -/
theorem segFix_eq (c : Config) (i : Nat) (raw : Word) :
    segFix c i raw = if segFixesEnd c i (segFixStart c i raw).1 (segFixStart c i raw).2.1 then
        ((segFixStart c i raw).1, (c.fixedEnd : Int) - (segFixStart c i raw).1,
          segPack (segFixStart c i raw).1 ((c.fixedEnd : Int) - (segFixStart c i raw).1))
      else segFixStart c i raw :=
  segFix_of_start (addr := (segFixStart c i raw).1) rfl

/-- The end correction leaves the start (R185). -/
theorem segFix_addr (c : Config) (i : Nat) (raw : Word) : (segFix c i raw).1 = (segFixStart c i raw).1 := by
  rw [segFix_eq]
  split <;> rfl

/-- Channel 0 starts at the base, corrected or not (R184). -/
theorem segFix_zero_addr (c : Config) (raw : Word) : (segFix c 0 raw).1 = c.flashBase := by
  rw [segFix_addr, segFixStart_eq]
  split
  · split <;> rfl
  · rename_i hkept
    by_contra hne
    exact hkept ⟨rfl, hne⟩

/-- The topmost window ends at the fixed end, corrected or not (R185). -/
theorem segFix_top_end {c : Config} {i : Nat} (hfixed : c.fixedLastEnd = true) (htop : i + 1 = c.maxSlaves)
    (raw : Word) : ((segFix c i raw).1 : Int) + (segFix c i raw).2.1 = c.fixedEnd := by
  rw [segFix_eq]
  split
  · exact add_sub_cancel ((segFixStart c i raw).1 : Int) _
  · rename_i hkept
    by_contra hne
    exact hkept ⟨hfixed, htop, hne⟩

/-- What a segment write stores is the corrected window, and it lies inside the flash window (R186, R190). -/
theorem segDecide_stored {c : Config} {wins : Nat → Window} {i : Nat} {raw word : Word} {w : Window}
    {codes : List LogCode} (hdec : segDecide c wins i raw = ⟨codes, some (w, word)⟩) :
    segFix c i raw = (w.addr, (w.size : Int), word) ∧ segContained c w.addr w.size := by
  rcases hr : segFix c i raw with ⟨addr, size, stored⟩
  rw [segDecide_of_fix hr] at hdec
  split at hdec
  · rename_i hin
    simp only [SegOutcome.mk.injEq, Option.some.injEq, Prod.mk.injEq] at hdec
    obtain ⟨-, rfl, rfl⟩ := hdec
    have hsize : (size.toNat : Int) = size := Int.toNat_of_nonneg hin.1
    rw [hsize]
    exact ⟨rfl, hin⟩
  · simp at hdec

-- Every window stays where the segment map allows it (R192, R36)

/-- Channel `i` may have this window: in units of 8 MB inside the flash window, at the base for channel 0, and up to the
fixed end for the topmost channel of a variant that has one. -/
structure WindowAllowed (c : Config) (i : Nat) (w : Window) : Prop where
  inside : c.SegOk w
  base : i = 0 → w.addr = c.flashBase
  top : c.fixedLastEnd = true → i + 1 = c.maxSlaves → w.addr + w.size = c.fixedEnd

/-- R192 speaks of one channel at a time. -/
theorem State.windowsInside_iff (s : State) :
    s.WindowsInside ↔ ∀ i < s.cfg.maxSlaves, WindowAllowed s.cfg i (s.win i) := by
  have hpos := maxSlaves_pos s.cfg
  constructor
  · rintro ⟨hall, hbase, htop⟩ i hi
    refine ⟨hall i hi, fun h0 => h0 ▸ hbase, fun hfixed hlast => ?_⟩
    rw [show i = s.cfg.maxSlaves - 1 by omega]
    exact htop hfixed
  · intro h
    exact ⟨fun i hi => (h i hi).inside, (h 0 (by omega)).base rfl,
      fun hfixed => (h (s.cfg.maxSlaves - 1) (by omega)).top hfixed (by omega)⟩

/-- A segment write stores an allowed window: the corrections see to its base and its end, containment to its place, and
the word it is encoded by to its units (R184 to R186, R192). -/
theorem segDecide_allowed {c : Config} (h : c.Valid) {wins : Nat → Window} {i : Nat} {raw word : Word} {w : Window}
    {codes : List LogCode} (hdec : segDecide c wins i raw = ⟨codes, some (w, word)⟩) : WindowAllowed c i w := by
  obtain ⟨hfix, -, hlow, hhigh⟩ := segDecide_stored hdec
  have hunits := segUnpack_units word
  rw [segDecide_encodes h hdec] at hunits
  obtain ⟨haddr, hsize⟩ : w.addr % segUnit = 0 ∧ (w.size : Int) % segUnit = 0 := hunits
  refine ⟨⟨haddr, by exact_mod_cast hsize, hlow, by exact_mod_cast hhigh⟩, fun h0 => ?_, fun hfixed hlast => ?_⟩
  · subst h0
    have hbase := segFix_zero_addr c raw
    rwa [hfix] at hbase
  · have hend := segFix_top_end hfixed hlast raw
    rw [hfix] at hend
    exact Int.ofNat.inj hend

/-- The windows after a segment write: its own channel's, in a state of the shape (R190). -/
theorem State.Shape.setSegment_win {s : State} (hs : s.Shape) {i : Nat} (hi : i < s.cfg.maxSlaves) (w : Window)
    (word : Word) (j : Nat) : ((s.setWin i w).setWord (idxSeg i) word).win j = if i = j then w else s.win j := by
  rw [State.win_setWord, State.win_setWin, hs.chan_length]
  simp only [hi, and_true]

/-- The windows stay allowed where only a segment write and reset move one (R192). -/
theorem windowsInside_invariant : RegisterInvariant State.WindowsInside where
  plain s t hs hc h := by
    rw [State.windowsInside_iff] at h ⊢
    intro i hi
    rw [hc.cfg] at hi ⊢
    rw [hc.win]
    exact h i hi
  seg s i codes w v word hs hi hdec h := by
    rw [State.windowsInside_iff] at h ⊢
    intro j hj
    rw [hs.setSegment_win hi]
    split
    · rename_i hij
      exact hij ▸ segDecide_allowed hs.valid hdec
    · exact h j hj
  ctrl s i v hs hi h := by
    rw [State.windowsInside_iff] at h ⊢
    intro j hj
    rw [writeCtrl_win]
    exact h j hj
  reset s hs := resetBlock_windowsInside hs

/-- Settles O56: a segment write stores an allowed window only, and no other operation but reset moves one. -/
theorem windowsStayInside : Obligations.WindowsStayInside := by
  intro s t hs hw hstep
  exact windowsInside_invariant.step_keeps hs hw hstep

end Sys2Proof.Machine

namespace Sys2Proof.Machine

-- Segment words and windows (R182, R183, R191)

/-- A word is its end field, its start field and its low half (R27). -/
theorem word_eq_of_fields {a b : Word} (hend : a.field 31 24 = b.field 31 24) (hstart : a.field 23 16 = b.field 23 16)
    (hlow : a.field 15 0 = b.field 15 0) : a = b := by
  simp only [Word.field, BitVec.extractLsb'_toNat, Nat.shiftRight_eq_div_pow] at hend hstart hlow
  exact BitVec.eq_of_toNat_eq (by omega)

/-- Clearing bits 15:0 leaves the two fields (R191). -/
theorem fields_clearLow (w : Word) :
    (w &&& 0xFFFF0000#32).field 31 24 = w.field 31 24 ∧ (w &&& 0xFFFF0000#32).field 23 16 = w.field 23 16
      ∧ (w &&& 0xFFFF0000#32).field 15 0 = 0 := by
  have hend : (0xFFFF0000#32).extractLsb' 24 8 = BitVec.allOnes 8 := by decide
  have hstart : (0xFFFF0000#32).extractLsb' 16 8 = BitVec.allOnes 8 := by decide
  have hlow : (0xFFFF0000#32).extractLsb' 0 16 = 0#16 := by decide
  simp only [Word.field, BitVec.extractLsb'_and, hend, hstart, hlow, BitVec.and_allOnes, BitVec.and_zero,
    BitVec.toNat_zero, and_self]

/-- The window that a word encodes packs into the word with bits 15:0 cleared (R191): it ends at the end field, even
where that is below the start. -/
theorem segPack_segUnpack (w : Word) : segPack (segUnpack w).1 (segUnpack w).2 = w &&& 0xFFFF0000#32 := by
  have hstop : w.field 31 24 < 256 := (w.extractLsb' 24 8).isLt
  have hstart : w.field 23 16 < 256 := (w.extractLsb' 16 8).isLt
  obtain ⟨hend', hstart', hlow'⟩ := fields_clearLow w
  rw [segUnpack_fields]
  dsimp only
  obtain ⟨hpstart, hpend, hplow⟩ := segPack_fields (addr := w.field 23 16 * 8388608)
    (size := (w.field 31 24 * 8388608 : Int) - (w.field 23 16 * 8388608 : Nat)) (by omega) (by omega) (by omega)
    (by omega)
  exact word_eq_of_fields (by rw [hpend, hend']; omega) (by rw [hstart']; omega) (by rw [hplow, hlow'])

/-- A window of the domain decodes from its packed word, also one that ends below its start (R183, R191). -/
theorem segUnpack_segPack_domain {addr : Nat} {size : Int} (haddr : addr % 8388608 = 0) (hsize : size % 8388608 = 0)
    (hmax : addr ≤ 0xFF * 8388608) (hpos : 0 ≤ addr + size) (htop : addr + size ≤ 0xFF * 8388608) :
    segUnpack (segPack addr size) = (addr, size) := by
  obtain ⟨hstart, hend, -⟩ := segPack_fields haddr hmax hpos htop
  rw [segUnpack_fields, hend, hstart, Prod.mk.injEq]
  omega

/-- Settles O23: each law is the field-by-field comparison of the two words or windows. -/
theorem segmentRoundTrip : Obligations.SegmentRoundTrip :=
  ⟨segPack_segUnpack, fun _ _ haddr hsize hmax hpos htop => segUnpack_segPack_domain haddr hsize hmax hpos htop⟩

end Sys2Proof.Machine

namespace Sys2Proof.Machine

-- The rows that write a segment register (R139)

/-- Every row that carries a segment word is the write of its segment register, SETSEG by way of the register's offset. -/
theorem exec_segmentRow {s : State} {i : Nat} {v : Word} {op : Instr} (hv : s.cfg.Valid) (hi : i < s.cfg.maxSlaves)
    (hop : op ∈ [.wSeg i v, .setseg i v]
      ∨ (op, i) ∈ [(Instr.wr32Seg0 v, 0), (.wr32Seg1 v, 1), (.wr32Seg2 v, 2), (.wr32Seg3 v, 3), (.wr32Seg4 v, 4)]) :
    exec op s = .next (writeSeg s i v) := by
  rw [← writeCategory_seg hi]
  simp only [List.mem_cons, List.not_mem_nil, or_false, Prod.mk.injEq] at hop
  rcases hop with (rfl | rfl) | ⟨rfl, rfl⟩ | ⟨rfl, rfl⟩ | ⟨rfl, rfl⟩ | ⟨rfl, rfl⟩ | ⟨rfl, rfl⟩
  case inl.inr =>
    rw [← categoryOf_seg (Config.Valid.facts hv) hi]
    rfl
  all_goals rfl

-- What a segment write leaves, once the corrections are known (R186 to R190)

/-- A segment write keeps the sizes of the state (R20). -/
theorem writeSeg_shape {s : State} (hs : s.Shape) {i : Nat} (hi : i < s.cfg.maxSlaves) (v : Word) :
    (writeSeg s i v).Shape :=
  writeCategory_seg hi v ▸ shape_preserved.write (.seg i) v hs

/-- A segment write keeps main memory and the sizes of the tables (R190). -/
theorem writeSeg_keeps {s : State} (hs : s.Shape) {i : Nat} (hi : i < s.cfg.maxSlaves) (v : Word) :
    SameMemory s (writeSeg s i v) ∧ (writeSeg s i v).x.length = s.x.length
      ∧ (writeSeg s i v).chan.length = s.chan.length := by
  have hkept := writeSeg_shape hs hi v
  have hframe := writeSeg_frame s i v
  have hcfg : (writeSeg s i v).cfg = s.cfg := by rw [hframe]
  exact ⟨fun a => by rw [hframe], by rw [hkept.x_length, hs.x_length, hcfg],
    by rw [hkept.chan_length, hs.chan_length, hcfg]⟩

/-- `t` is `s` with one window moved to `w`, the word `word` stored for it, and `codes` logged (R190). -/
structure SegmentStored (s t : State) (i : Nat) (w : Window) (word : Word) (codes : List LogCode) : Prop where
  win : t.win i = w
  word : t.word (idxSeg i) = word
  words : SameWordsBut s t [idxSeg i]
  wins : ∀ j, j ≠ i → t.win j = s.win j
  romd : ∀ j, t.romd j = s.romd j
  log : t.log = s.log ++ codes

/-- The write of another word, with what the corrections leave of it: a contained window is stored with its word, under
the two warnings (R188 to R190). -/
theorem writeSeg_contained {s : State} (hs : s.Shape) {i addr : Nat} {v word : Word} {size : Int}
    (hi : i < s.cfg.maxSlaves) (hv : v ≠ s.word (idxSeg i)) (hr : segFix s.cfg i v = (addr, size, word))
    (hin : segContained s.cfg addr size) :
    SegmentStored s (writeSeg s i v) i ⟨addr, size.toNat⟩ word
      (segFixLogs s.cfg i v ++ (if segMisaligned addr size then [.ge6] else [])
        ++ (if segOverlaps s.cfg s.win i addr size then [.ge7] else [])) := by
  have hx := hs.wordIndex_lt_length (wordIndex_seg hi)
  rw [writeSeg, if_neg hv, segDecide_of_fix hr, if_pos hin]
  exact {
    win := by rw [(show (s.note _).Shape from hs).setSegment_win hi, if_pos rfl]
    word := State.word_setWord_self _ _ _ hx
    words := fun k hk => setSegment_words _ _ _ _ fun he => hk (he ▸ List.mem_singleton_self _)
    wins := fun j hj => by
      rw [(show (s.note _).Shape from hs).setSegment_win hi, if_neg hj.symm]
      rfl
    romd := fun j => State.romd_setWin _ i j _
    log := rfl }

/-- A window that does not lie inside the flash window is discarded with its word (R186). -/
theorem writeSeg_discarded {s : State} {i addr : Nat} {v word : Word} {size : Int} (hv : v ≠ s.word (idxSeg i))
    (hr : segFix s.cfg i v = (addr, size, word)) (hout : ¬ segContained s.cfg addr size) :
    writeSeg s i v = s.note (segFixLogs s.cfg i v ++ [.ge5]) := by
  rw [writeSeg, if_neg hv, segDecide_of_fix hr, if_neg hout]

/-- The overlap test looks at every other channel (R189). -/
theorem segOverlaps_iff (c : Config) (wins : Nat → Window) (i addr : Nat) (size : Int) :
    segOverlaps c wins i addr size ↔ ∃ j < c.maxSlaves, j ≠ i ∧ windowsOverlap addr size (wins j) := by
  simp only [segOverlaps, List.mem_range]

/-- The fields of the word that encodes a window: its start and its end (R182). -/
theorem fields_of_segUnpack {w : Word} {addr : Nat} {size : Int} (h : segUnpack w = (addr, size)) (hpos : 0 ≤ size) :
    w.field 31 24 * 8388608 = addr + size.toNat ∧ w.field 23 16 * 8388608 = addr := by
  rw [segUnpack_fields, Prod.mk.injEq] at h
  obtain ⟨hstart, hlength⟩ := h
  have hend : ((w.field 31 24 * 8388608 : Nat) : Int) = (addr + size.toNat : Nat) := by
    rw [Nat.cast_add, Int.toNat_of_nonneg hpos, ← hlength, hstart]
    exact (add_sub_cancel (addr : Int) _).symm
  exact ⟨Int.ofNat.inj hend, hstart⟩

/-- A packed word has its low half clear (R183). -/
theorem segPack_low (addr : Nat) (size : Int) : (segPack addr size).field 15 0 = 0 := by
  unfold segPack
  dsimp only
  generalize ((addr + size) / segUnit).toNat = stop
  generalize addr / segUnit = start
  obtain ⟨-, -, hlow⟩ := fields_ofNat (n := stop % 256 * 0x1000000 + start % 256 * 0x10000) (by omega) _ rfl
  rw [hlow]
  omega

-- The corrections under the default reading (R184, R185, D10)

/-- The start of a written window, corrected for channel 0 (R184). -/
def correctedStart (c : Config) (i : Nat) (raw : Word) : Nat :=
  if segFixesStart c i (segUnpack raw).1 then c.flashBase else (segUnpack raw).1

/-- The size of a written window, where the start correction keeps the size and a fixed end is corrected (R184, R185). -/
def correctedSize (c : Config) (i : Nat) (raw : Word) : Int :=
  if segFixesEnd c i (correctedStart c i raw) (segUnpack raw).2 then (c.fixedEnd : Int) - correctedStart c i raw
  else (segUnpack raw).2

/-- The default reading of the start correction keeps the size; where no start is corrected, so does the other (D10). -/
theorem segFixStart_keepsSize {c : Config} {i : Nat} {raw : Word}
    (h : c.seg0Keeps = .size ∨ ¬ segFixesStart c i (segUnpack raw).1) :
    segFixStart c i raw = (correctedStart c i raw, (segUnpack raw).2,
      if segFixesStart c i (segUnpack raw).1 then segPack (correctedStart c i raw) (segUnpack raw).2 else raw) := by
  rw [segFixStart_eq, correctedStart]
  split
  · rename_i hmoved
    rw [h.resolve_right (not_not_intro hmoved)]
  · rfl

/-- Both corrections under that reading: the word is packed again where one applies, and the written one where none
does (R190). -/
theorem segFix_keepsSize {c : Config} {i : Nat} {raw : Word}
    (h : c.seg0Keeps = .size ∨ ¬ segFixesStart c i (segUnpack raw).1) :
    segFix c i raw = (correctedStart c i raw, correctedSize c i raw,
      if segFixesStart c i (segUnpack raw).1 ∨ segFixesEnd c i (correctedStart c i raw) (segUnpack raw).2 then
        segPack (correctedStart c i raw) (correctedSize c i raw) else raw) := by
  rw [segFix_of_start (segFixStart_keepsSize h), correctedSize]
  split
  · rename_i hended
    rw [if_pos (.inr hended)]
  · rename_i hkept
    simp only [hkept, or_false]

/-- Settles O25: the corrections give the window, and containment decides whether it is stored. -/
theorem segmentWrite : Obligations.SegmentWrite := by
  intro s i v hs hi hv hreading op hop start moved addr decoded ended size corrections
  have hkeeps : s.cfg.seg0Keeps = .size ∨ ¬ segFixesStart s.cfg i (segUnpack v).1 :=
    hreading.imp_right fun h ⟨hzero, hmoved⟩ => h.elim (absurd hzero) (absurd · hmoved)
  have hfix : segFix s.cfg i v = (addr, size, if moved ∨ ended then segPack addr size else v) := segFix_keepsSize hkeeps
  have hlogs : segFixLogs s.cfg i v = corrections := segFixLogs_of_start (segFixStart_keepsSize hkeeps)
  obtain ⟨hmemory, hx, hchan⟩ := writeSeg_keeps hs hi v
  refine ⟨writeSeg s i v, exec_segmentRow hs.valid hi hop, hmemory, hx, hchan, ?_⟩
  split
  · rename_i hin
    obtain ⟨hwin, hword, hwords, hwins, hromd, hlog⟩ := writeSeg_contained hs hi hv hfix hin
    refine ⟨hwin, ?_, hwords, hwins, hromd, ?_, writeSeg_frame s i v⟩
    · have hencodes := (segFix_encodes hs.valid hfix).encodes hin
      rw [← hword] at hencodes
      split
      · rename_i hcorrected
        obtain ⟨hend, hstart⟩ := fields_of_segUnpack hencodes hin.1
        refine ⟨hend, hstart, ?_⟩
        rw [show (writeSeg s i v).word (12 + i) = segPack addr size from hword.trans (if_pos hcorrected)]
        exact segPack_low addr size
      · rename_i hwritten
        exact hword.trans (if_neg hwritten)
    · rw [hlog, hlogs, if_congr (segOverlaps_iff s.cfg s.win i addr size) rfl rfl]
      simp only [List.append_assoc]
  · rename_i hout
    rw [writeSeg_discarded hv hfix hout, hlogs, State.note, ← List.append_assoc]

end Sys2Proof.Machine

namespace Sys2Proof.Machine

-- The other reading of the start correction (R184, D10)

/-- The other reading keeps the end field: the window from the base to there, with the start field replaced (D10). -/
theorem segFixStart_keepsEnd {c : Config} {raw : Word} (h : c.seg0Keeps = .endField)
    (hmoved : raw.field 23 16 * 8388608 ≠ c.flashBase) :
    segFixStart c 0 raw = (c.flashBase, (raw.field 31 24 * 8388608 : Int) - c.flashBase,
      segWithStart raw (c.flashBase / segUnit)) := by
  rw [segFixStart_eq, if_pos ⟨rfl, hmoved⟩, h, segUnpack_fields]
  dsimp only
  rw [add_sub_cancel]

/-- A window of channel 0 from the base is corrected to a fixed end where channel 0 is the topmost one (R185). -/
theorem segFixesEnd_base_iff (c : Config) (stop : Nat) :
    segFixesEnd c 0 c.flashBase ((stop * 8388608 : Int) - c.flashBase)
      ↔ c.fixedLastEnd = true ∧ c.maxSlaves = 1 ∧ stop * 8388608 ≠ c.fixedEnd := by
  have hend : (c.flashBase : Int) + ((stop * 8388608 : Int) - c.flashBase) ≠ c.fixedEnd
      ↔ stop * 8388608 ≠ c.fixedEnd := by omega
  exact and_congr_right fun _ => and_congr eq_comm hend

/-- The base in units of 8 MB fits a start field (R7(d)). -/
theorem flashBase_units_lt {c : Config} (h : c.Valid) : c.flashBase / segUnit < 256 := by
  obtain ⟨-, -, htop, -, -⟩ := windows_of_valid h
  rw [segUnit_eq] at htop ⊢
  omega

/-- Settles O26: the corrections keep the end field or fix it, and the rest is any segment write. -/
theorem segmentZeroKeepsItsEnd : Obligations.SegmentZeroKeepsItsEnd := by
  intro s v hs hv hreading hmoved op hop base ended size corrections
  have hi : 0 < s.cfg.maxSlaves := maxSlaves_pos s.cfg
  have hrow : exec op s = .next (writeSeg s 0 v) := by
    refine exec_segmentRow hs.valid hi ?_
    simp only [List.mem_cons, List.not_mem_nil, or_false] at hop
    rcases hop with rfl | rfl | rfl <;> simp
  have hstart := segFixStart_keepsEnd hreading hmoved
  have hended : segFixesEnd s.cfg 0 s.cfg.flashBase ((v.field 31 24 * 8388608 : Int) - s.cfg.flashBase) ↔ ended :=
    segFixesEnd_base_iff s.cfg (v.field 31 24)
  have hfix : segFix s.cfg 0 v
      = (base, size, if ended then segPack base size else segWithStart v (base / segUnit)) := by
    rw [segFix_of_start hstart, if_congr hended rfl rfl]
    by_cases he : ended <;> simp only [he, size, if_true, if_false, base]
  have hlogs : segFixLogs s.cfg 0 v = corrections := by
    rw [segFixLogs_of_start hstart, if_congr hended rfl rfl, if_pos ⟨rfl, hmoved⟩]
  have hcontained : (0 ≤ size ∧ size ≤ s.cfg.flashSize) ↔ segContained s.cfg base size :=
    and_congr_right fun _ =>
      ⟨fun h => ⟨le_rfl, Int.add_le_add_left h _⟩, fun ⟨_, h⟩ => Int.le_of_add_le_add_left h⟩
  obtain ⟨hmemory, hx, hchan⟩ := writeSeg_keeps hs hi v
  refine ⟨writeSeg s 0 v, hrow, hmemory, hx, hchan, ?_⟩
  rw [if_congr hcontained rfl rfl]
  split
  · rename_i hin
    obtain ⟨hwin, hword, hwords, hwins, hromd, hlog⟩ := writeSeg_contained hs hi hv hfix hin
    have hencodes := (segFix_encodes hs.valid hfix).encodes hin
    rw [← hword] at hencodes
    obtain ⟨hend, hbase⟩ := fields_of_segUnpack hencodes hin.1
    refine ⟨hwin, hbase, hend, ?_, hwords, hwins, hromd, ?_, writeSeg_frame s 0 v⟩
    · rw [show (writeSeg s 0 v).word 12 = _ from hword]
      by_cases he : ended
      · rw [if_pos he, if_pos he, segPack_low]
      · obtain ⟨-, -, hlow⟩ := segWithStart_fields v (flashBase_units_lt hs.valid)
        rw [if_neg he, if_neg he, hlow]
    · rw [hlog, hlogs, if_congr (segOverlaps_iff s.cfg s.win 0 base size) rfl rfl]
      simp only [List.append_assoc]
  · rename_i hout
    rw [writeSeg_discarded hv hfix hout, hlogs, State.note, ← List.append_assoc]

end Sys2Proof.Machine

namespace Sys2Proof.Machine

-- What an access leaves of the block (R210)

/-- An access leaves main memory. -/
theorem AccessOnly.sameMemory {s t : State} (ha : AccessOnly s t) : SameMemory s t := by
  intro a
  rw [ha.dram]

/-- An access that answers a value leaves the read port besides (log 25). -/
theorem AccessOnly.answer {s t : State} (ha : AccessOnly s t) (v : Word) :
    AccessOnly { s with reply := some v } (t.answer v) :=
  congrArg (State.answer · v) ha

/-- An access that logs nothing leaves the outputs, the history and the collaborator's answers only. -/
theorem AccessOnly.frame_of_log {s t : State} (ha : AccessOnly s t) (hlog : t.log = s.log) :
    t = { s with csOut := t.csOut, trace := t.trace, spiReplies := t.spiReplies, draws := t.draws } := by
  rw [← hlog]
  exact ha

/-- An access that takes no answer from the collaborator either leaves the outputs and the history only. -/
theorem AccessOnly.frame_of_unanswered {s t : State} (ha : AccessOnly s t) (hlog : t.log = s.log)
    (hreplies : t.spiReplies = s.spiReplies) (hdraws : t.draws = s.draws) :
    t = { s with csOut := t.csOut, trace := t.trace } := by
  rw [← hreplies, ← hdraws]
  exact ha.frame_of_log hlog

-- Exchanges and frames on the bus, event by event (R12, R81, R99)

/-- Exchanges leave the history and the collaborator's answers only. -/
theorem spiXfers_frame (txs : List Byte) (i : Nat) (s : State) :
    (spiXfers txs i s).1 = { s with
      trace := (spiXfers txs i s).1.trace, spiReplies := (spiXfers txs i s).1.spiReplies
      draws := (spiXfers txs i s).1.draws } := by
  have hframe := (spiXfers_accessOnly txs i s).frame_of_log (spiXfers_log txs i s)
  rwa [spiXfers_csOut] at hframe

/-- The events of several exchanges: these bytes sent, the replies received, no change of level. -/
theorem spiXfers_events (txs : List Byte) (i : Nat) (s : State) :
    ∃ events, (spiXfers txs i s).1.trace = s.trace ++ events ∧ csChanges events = [] ∧ sentBytes events = txs
      ∧ receivedBytes events = (spiXfers txs i s).2 :=
  have hlen := spiXfers_length txs i s
  ⟨_, spiXfers_trace txs i s, csChanges_zipWith _ _, sentBytes_zipWith _ _ hlen, receivedBytes_zipWith _ _ hlen⟩

/-- A change of level, where there is one, sends no byte. -/
theorem sentBytes_level (p : Prop) [Decidable p] (i : Nat) (l : Level) :
    sentBytes (if p then [.cs i l] else []) = [] := by
  split <;> rfl

/-- A change of level, where there is one, receives no byte. -/
theorem receivedBytes_level (p : Prop) [Decidable p] (i : Nat) (l : Level) :
    receivedBytes (if p then [.cs i l] else []) = [] := by
  split <;> rfl

/-- The bytes received up to the end of a frame: the replies to its opening bytes, then those to its data. -/
theorem framed_receivedBytes (s : State) (i : Nat) (off : Word) (data : List Byte) :
    receivedBytes (framed s i off data).1.trace = receivedBytes s.trace
      ++ (spiXfers (s.frameSetup i off) i (s.drive i .active)).2 ++ (framed s i off data).2 := by
  simp only [framed, State.drive_trace, spiXfers_trace, receivedBytes_append, receivedBytes_level, List.append_nil,
    receivedBytes_zipWith _ _ (spiXfers_length _ _ _)]

/-- The events of a frame: the select, exchanges of the opening bytes and the data, the deselect (R99). -/
theorem framed_events {s : State} {i : Nat} (off : Word) (data : List Byte) (h : s.csOut.length = s.cfg.numCs) :
    ∃ xs, (framed s i off data).1.trace = s.trace
          ++ (if i < s.cfg.numCs ∧ s.csLevel i ≠ .active then [.cs i .active] else []) ++ xs
          ++ (if i < s.cfg.numCs then [.cs i .inactive] else [])
      ∧ csChanges xs = [] ∧ sentBytes xs = openingBytes s i off ++ data
      ∧ receivedBytes xs =
          (spiXfers (openingBytes s i off) i (s.drive i .active)).2 ++ (framed s i off data).2 := by
  obtain ⟨opening, hlen, htrace⟩ := framed_trace s i off data h
  have hreceived := framed_receivedBytes s i off data
  rw [frameSetup_eq] at hlen htrace hreceived
  have hdata := framed_length s i off data
  refine ⟨List.zipWith .xfer (openingBytes s i off) opening ++ List.zipWith .xfer data (framed s i off data).2,
    ?_, ?_, ?_, ?_⟩
  · rw [htrace]
    simp only [List.append_assoc]
  · rw [csChanges_append, csChanges_zipWith, csChanges_zipWith, List.append_nil]
  · rw [sentBytes_append, sentBytes_zipWith _ _ hlen, sentBytes_zipWith _ _ hdata]
  · simpa [htrace, receivedBytes_append, receivedBytes_level, List.append_assoc] using hreceived

/-- After a frame the channel's own output is inactive (R218). -/
theorem framed_csLevel_self {s : State} {i : Nat} (off : Word) (data : List Byte) (h : s.csOut.length = s.cfg.numCs)
    (hi : i < s.cfg.numCs) : (framed s i off data).1.csLevel i = .inactive := by
  rw [framed_csLevel s i i off data h, if_pos ⟨rfl, hi⟩]

/-- A frame leaves every other output (R218). -/
theorem framed_csLevel_ne {s : State} {i j : Nat} (off : Word) (data : List Byte) (h : s.csOut.length = s.cfg.numCs)
    (hj : j ≠ i) : (framed s i off data).1.csLevel j = s.csLevel j := by
  rw [framed_csLevel s i j off data h, if_neg fun hij => hj hij.1.symm]

/-- A frame leaves the outputs, the history and the collaborator's answers only. -/
theorem framed_frame (s : State) (i : Nat) (off : Word) (data : List Byte) :
    (framed s i off data).1 = { s with
      csOut := (framed s i off data).1.csOut, trace := (framed s i off data).1.trace
      spiReplies := (framed s i off data).1.spiReplies, draws := (framed s i off data).1.draws } :=
  (framed_accessOnly s i off data).frame_of_log (framed_log s i off data)

-- A channel's accesses, by its mode (R220, R224)

/-- A read in User mode exchanges dummy bytes only (R222). -/
theorem chanRead_of_user {s : State} {i : Nat} (hm : s.mode i = .user) (off : Word) (n : Nat) :
    chanRead s i off n = ((spiXfers (List.replicate n s.cfg.dummyTx) i s).1,
      leWord (spiXfers (List.replicate n s.cfg.dummyTx) i s).2) := by
  simp only [chanRead, hm]

/-- A read in another mode is a frame (R221). -/
theorem chanRead_of_framed {s : State} {i : Nat} (hm : s.mode i ≠ .user) (off : Word) (n : Nat) :
    chanRead s i off n = ((framed s i off (List.replicate n s.cfg.dummyTx)).1,
      leWord (framed s i off (List.replicate n s.cfg.dummyTx)).2) := by
  unfold chanRead
  split
  · rename_i huser
    exact absurd huser hm
  · rfl

/-- The gate of R225: the write-enable bit is clear, and the mode is a framed one or the switch of D18 gates User mode
too. -/
theorem writeRefused_iff (s : State) (i : Nat) :
    s.writeRefused i = true ↔
      enabledToWrite s i = false ∧ (s.cfg.weGatesUser = true ∨ s.mode i ≠ .user) := by
  simp [State.writeRefused, State.writeEnabled, confWriteEnable, enabledToWrite, idxConf]

/-- A write that the gate stops is logged (R225). -/
theorem chanWrite_of_refused {s : State} {i : Nat} (h : s.writeRefused i = true) (off : Word) (n : Nat) (v : Word) :
    chanWrite s i off n v = s.note [.ge8] :=
  if_pos h

/-- A write in User mode that the gate lets through exchanges the data bytes only (R227). -/
theorem chanWrite_of_user {s : State} {i : Nat} (hm : s.mode i = .user)
    (hen : enabledToWrite s i = true ∨ s.cfg.weGatesUser = false) (off : Word) (n : Nat) (v : Word) :
    chanWrite s i off n v = (spiXfers (leBytes n v) i s).1 := by
  have hopen : ¬ s.writeRefused i = true := by
    rw [writeRefused_iff, hm]
    rcases hen with hen | hgate
    · simp [hen]
    · simp [hgate]
  rw [chanWrite, if_neg hopen, hm]

/-- An enabled write in another mode is a frame (R226). -/
theorem chanWrite_of_framed {s : State} {i : Nat} (hm : s.mode i ≠ .user) (hen : enabledToWrite s i = true)
    (off : Word) (n : Nat) (v : Word) : chanWrite s i off n v = (framed s i off (leBytes n v)).1 := by
  have hopen : ¬ s.writeRefused i = true := by
    rw [writeRefused_iff, hen]
    simp
  rw [chanWrite, if_neg hopen]
  split
  · rename_i huser
    exact absurd huser hm
  · rfl

-- The operations that read or write through one channel (R13, R66, R67; the frame rows: log 18)

/-- Each frame row that reads is the channel's read. -/
theorem exec_frameRead {s : State} {i : Nat} (hi : i < s.cfg.maxSlaves) {off : Word} {n : Nat} {op : Instr}
    (hop : op ∈ [.fRd3 i off n, .fRd4 i off n, .fUrd i off n]) :
    exec op s = .next ((chanRead s i off n).1.answer (chanRead s i off n).2) := by
  have hread : channelReadOp s i off n = .next ((chanRead s i off n).1.answer (chanRead s i off n).2) := if_pos hi
  simp only [List.mem_cons, List.not_mem_nil, or_false] at hop
  rcases hop with rfl | rfl | rfl <;> exact hread

/-- A window read that one channel decodes, out of ROM-decode mode, is that channel's read. -/
theorem exec_frd_of_decoded {s : State} {i n : Nat} {a : Word} (hdec : DecodedBy s a.toNat n i)
    (hromd : s.romd i = false) :
    exec (.frd a n) s = .next ((chanRead s i (windowOffset s a.toNat i) n).1.answer
      (chanRead s i (windowOffset s a.toNat i) n).2) := by
  obtain ⟨hat, hin⟩ := hdec
  exact exec_frd_of_some (windowRead_of_not_rom (chanOf_of_single hat) hin hromd)

/-- A read that goes through channel `i` at offset `off`: a frame row, or a window read. -/
theorem exec_channelRead {s : State} {i : Nat} (hi : i < s.cfg.maxSlaves) {off : Word} {n : Nat} {op : Instr}
    (hop : op ∈ [.fRd3 i off n, .fRd4 i off n, .fUrd i off n]
      ∨ ∃ a, op = .frd a n ∧ DecodedBy s a.toNat n i ∧ s.romd i = false ∧ off = windowOffset s a.toNat i) :
    exec op s = .next ((chanRead s i off n).1.answer (chanRead s i off n).2) := by
  rcases hop with hrow | ⟨a, rfl, hdec, hromd, rfl⟩
  · exact exec_frameRead hi hrow
  · exact exec_frd_of_decoded hdec hromd

/-- Each frame row that writes is the channel's write. -/
theorem exec_frameWrite {s : State} {i : Nat} (hi : i < s.cfg.maxSlaves) {off : Word} {n : Nat} {v : Word} {op : Instr}
    (hop : op ∈ [.fWr3 i off n v, .fWr4 i off n v, .fUwr i off n v]) :
    exec op s = .next (chanWrite s i off n v) := by
  have hwrite : channelWriteOp s i off n v = .next (chanWrite s i off n v) := if_pos hi
  simp only [List.mem_cons, List.not_mem_nil, or_false] at hop
  rcases hop with rfl | rfl | rfl <;> exact hwrite

/-- A window write that one channel decodes is that channel's write. -/
theorem exec_fwr_of_decoded {s : State} {i n : Nat} {a : Word} (v : Word) (hdec : DecodedBy s a.toNat n i) :
    exec (.fwr a n v) s = .next (chanWrite s i (windowOffset s a.toNat i) n v) := by
  obtain ⟨hat, hin⟩ := hdec
  exact exec_fwr_of_some (windowWrite_of_inside v (chanOf_of_single hat) hin)

-- User mode (R222, R227)

/-- Settles O35: the read is the exchanges of the dummy bytes, whatever the offset. -/
theorem userRead : Obligations.UserRead := by
  intro s i off n op hi hm hop
  obtain ⟨events, htrace, hcs, hsent, hreceived⟩ := spiXfers_events (List.replicate n s.cfg.dummyTx) i s
  have hexec : exec op s = .next ((spiXfers (List.replicate n s.cfg.dummyTx) i s).1.answer
      (leWord (receivedBytes events))) := by
    rw [hreceived]
    rcases hop with hrow | ⟨a, rfl, hdec, hromd⟩
    · rw [exec_frameRead hi ((List.mem_rotate (n := 1)).mpr hrow), chanRead_of_user hm]
    · rw [exec_frd_of_decoded hdec hromd, chanRead_of_user hm]
  refine ⟨_, events, hexec, htrace, hcs, hsent, ?_, rfl, spiXfers_csOut _ i s, spiXfers_log _ i s,
    congrArg (State.answer · _) (spiXfers_frame _ i s)⟩
  rw [hreceived, spiXfers_length, List.length_replicate]

/-- Settles O38: the write is the exchanges of the data bytes, whatever the offset. -/
theorem userWrite : Obligations.UserWrite := by
  intro s i off n v op hi hm hen hop
  have hexec : exec op s = .next (spiXfers (leBytes n v) i s).1 := by
    rcases hop with hrow | ⟨a, rfl, hdec⟩
    · rw [exec_frameWrite hi ((List.mem_rotate (n := 1)).mpr hrow), chanWrite_of_user hm hen]
    · rw [exec_fwr_of_decoded v hdec, chanWrite_of_user hm hen]
  obtain ⟨events, htrace, hcs, hsent, -⟩ := spiXfers_events (leBytes n v) i s
  exact ⟨_, events, hexec, htrace, hcs, hsent, spiXfers_csOut _ i s, spiXfers_log _ i s,
    (spiXfers_accessOnly _ i s).sameMemory, spiXfers_frame _ i s⟩

-- The framed modes (R221, R226)

/-- Settles O36: the frame whose data are the dummy bytes; its last replies are the answer. -/
theorem framedRead : Obligations.FramedRead := by
  intro s i off n op hs hi hm hop
  have hexec := exec_channelRead hi hop
  rw [chanRead_of_framed hm] at hexec
  have hcs := hs.csOut_length
  obtain ⟨xs, htrace, hchanges, hsent, hreceived⟩ :=
    framed_events (i := i) off (List.replicate n s.cfg.dummyTx) hcs
  have hopening := spiXfers_length (openingBytes s i off) i (s.drive i .active)
  refine ⟨_, xs, hexec, htrace, hchanges, hsent, ?_, ?_, framed_csLevel_self off _ hcs,
    fun j => framed_csLevel_ne off _ hcs, framed_csOut_length s i off _, framed_log s i off _,
    (framed_accessOnly s i off _).sameMemory, congrArg (State.answer · _) (framed_frame s i off _)⟩
  · rw [hreceived, List.length_append, hopening, framed_length, List.length_replicate]
  · rw [hreceived, List.drop_left' hopening, State.answer_reply]

/-- Settles O37: the frame whose data are the bytes of the value. -/
theorem framedWrite : Obligations.FramedWrite := by
  intro s i off n v op hs hi hm hen hop
  have hexec : exec op s = .next (framed s i off (leBytes n v)).1 := by
    rw [← chanWrite_of_framed hm hen]
    rcases hop with hrow | ⟨a, rfl, hdec, rfl⟩
    · exact exec_frameWrite hi hrow
    · exact exec_fwr_of_decoded v hdec
  have hcs := hs.csOut_length
  obtain ⟨xs, htrace, hchanges, hsent, -⟩ := framed_events (i := i) off (leBytes n v) hcs
  exact ⟨_, xs, hexec, htrace, hchanges, hsent, framed_csLevel_self off _ hcs, fun j => framed_csLevel_ne off _ hcs,
    framed_csOut_length s i off _, framed_log s i off _, (framed_accessOnly s i off _).sameMemory,
    framed_frame s i off _⟩

/-- Settles O39: the closed gate stops the write on every way to the channel. -/
theorem writeWithoutEnableIsRefused : Obligations.WriteWithoutEnableIsRefused := by
  intro s i off n v op hi hen hgated hop
  have hrefused := (writeRefused_iff s i).mpr ⟨hen, hgated⟩
  rcases hop with hrow | ⟨a, rfl, hdec⟩
  · rw [exec_frameWrite hi hrow, chanWrite_of_refused hrefused]
    rfl
  · rw [exec_fwr_of_decoded v hdec, chanWrite_of_refused hrefused]
    rfl

-- Reads without storage (R228, R81)

/-- Exchanges do not change whether replies are 0. -/
theorem spiXfers_repliesZero (txs : List Byte) (i k : Nat) (s : State) :
    (spiXfers txs i s).1.repliesZero k = s.repliesZero k := by
  induction txs generalizing s with
  | nil => rfl
  | cons tx txs ih => simp only [spiXfers, ih, spiXfer_repliesZero]

/-- Selecting a channel without storage, where no other slave is selected, makes the replies 0 (R228, R214). -/
theorem drive_repliesZero {s : State} {i : Nat} (hcs : s.csOut.length = s.cfg.numCs)
    (honly : ∀ k, k ≠ i → s.csLevel k = .inactive) (hstorage : s.cfg.storageAttached i = false) :
    (s.drive i .active).repliesZero i = true := by
  have hothers : ∀ k, k ≠ i → (s.drive i .active).csLevel k = .inactive := fun k hk => by
    rw [State.drive_csLevel s i k _ hcs, if_neg fun hik => hk hik.1.symm, honly k hk]
  refine (State.repliesZero_of_only hothers).mpr (.inl ?_)
  rw [(s.drive_accessOnly i _).cfg, hstorage]

/-- A frame in which no storage answers has replies of 0, and takes no answer from the collaborator. -/
theorem framed_of_repliesZero {s : State} {i : Nat} (off : Word) (data : List Byte)
    (h : (s.drive i .active).repliesZero i = true) :
    (framed s i off data).2 = List.replicate data.length 0#8
      ∧ (framed s i off data).1 = { s with
          csOut := (framed s i off data).1.csOut, trace := (framed s i off data).1.trace } := by
  have hopened := spiXfers_zero_frame (s.frameSetup i off) h
  have hzero : (spiXfers (s.frameSetup i off) i (s.drive i .active)).1.repliesZero i = true := by
    rw [spiXfers_repliesZero, h]
  have hdone := spiXfers_zero_frame data hzero
  refine ⟨spiXfers_zero data hzero,
    (framed_accessOnly s i off data).frame_of_unanswered (framed_log s i off data) ?_ ?_⟩
  · rw [framed, State.drive_spiReplies, hdone, hopened, State.drive_spiReplies]
  · rw [framed, State.drive_draws, hdone, hopened, State.drive_draws]

/-- Exchanges in which no storage answers change the history only, so they leave the outputs as a read may. -/
theorem spiXfers_frame_of_repliesZero {s : State} {i : Nat} (txs : List Byte) (h : s.repliesZero i = true) :
    (spiXfers txs i s).1 = { s with
      csOut := (spiXfers txs i s).1.csOut, trace := (spiXfers txs i s).1.trace } := by
  rw [spiXfers_csOut]
  exact spiXfers_zero_frame txs h

/-- Settles O40: with no storage every reply is 0, so the assembled value is 0 and no answer is taken. -/
theorem noStorageReadsZero : Obligations.NoStorageReadsZero := by
  intro s i j off n op hs hi honly hown hstorage hop
  have hexec := exec_channelRead hi hop
  by_cases hm : s.mode i = .user
  · have hzero := (State.repliesZero_of_only (i := i) honly).mpr hstorage
    have hreplies := spiXfers_zero (List.replicate n s.cfg.dummyTx) hzero
    rw [chanRead_of_user hm, hreplies, leWord_zeros] at hexec
    obtain ⟨events, htrace, -, hsent, hreceived⟩ := spiXfers_events (List.replicate n s.cfg.dummyTx) i s
    refine ⟨_, events, hexec, htrace, ?_, fun b hb => ?_, rfl,
      congrArg (State.answer · _) (spiXfers_frame_of_repliesZero _ hzero)⟩
    · rw [hsent, if_pos hm, List.nil_append]
    · rw [hreceived, hreplies] at hb
      exact List.eq_of_mem_replicate hb
  · obtain rfl : j = i := hown.resolve_left hm
    have hcs := hs.csOut_length
    have hzero := drive_repliesZero hcs honly (hstorage.elim id And.right)
    obtain ⟨hreplies, hframe⟩ := framed_of_repliesZero off (List.replicate n s.cfg.dummyTx) hzero
    rw [chanRead_of_framed hm, hreplies, leWord_zeros] at hexec
    obtain ⟨xs, htrace, -, hsent, hreceived⟩ := framed_events (i := j) off (List.replicate n s.cfg.dummyTx) hcs
    rw [List.append_assoc, List.append_assoc] at htrace
    refine ⟨_, _, hexec, htrace, ?_, fun b hb => ?_, rfl, congrArg (State.answer · _) hframe⟩
    · simp only [sentBytes_append, sentBytes_level, hsent, if_neg hm, List.nil_append, List.append_nil]
    · simp only [receivedBytes_append, receivedBytes_level, hreceived, List.nil_append, List.append_nil,
        spiXfers_zero _ hzero, hreplies, List.mem_append] at hb
      exact hb.elim List.eq_of_mem_replicate List.eq_of_mem_replicate

-- Every access, whichever channel takes it or none (R210)

/-- A read access that is answered leaves the read port besides, and logs nothing. -/
theorem answered_access {s u t : State} {v : Word} (ha : AccessOnly s u) (hlog : u.log = s.log)
    (ht : Host.Outcome.next (u.answer v) = (.next t : Result)) :
    AccessOnly { s with reply := t.reply } t ∧ t.log = s.log := by
  obtain rfl := Host.Outcome.next.inj ht
  exact ⟨ha.answer v, hlog⟩

theorem channelReadOp_access {s t : State} {i n : Nat} {off : Word} (h : channelReadOp s i off n = .next t) :
    AccessOnly { s with reply := t.reply } t ∧ t.log = s.log := by
  unfold channelReadOp at h
  split at h
  · exact answered_access (chanRead_accessOnly s i off n) (chanRead_log s i off n) h
  · cases h

theorem windowReadOp_access {s t : State} {a n : Nat} (h : windowReadOp s a n = .next t) :
    AccessOnly { s with reply := t.reply } t ∧ t.log = s.log := by
  unfold windowReadOp at h
  split at h
  · rename_i hread
    obtain ⟨haccess, -, -, hlog⟩ := windowRead_spec hread
    exact answered_access haccess hlog h
  · cases h

theorem channelWriteOp_access {s t : State} {i n : Nat} {off v : Word} (h : channelWriteOp s i off n v = .next t) :
    AccessOnly s t := by
  unfold channelWriteOp at h
  split at h
  · obtain rfl := Host.Outcome.next.inj h
    exact chanWrite_accessOnly s i off n v
  · cases h

theorem windowWriteOp_access {s t : State} {a n : Nat} {v : Word} (h : windowWriteOp s a n v = .next t) :
    AccessOnly s t := by
  unfold windowWriteOp at h
  split at h
  · rename_i hwrite
    obtain rfl := Host.Outcome.next.inj h
    obtain ⟨haccess, -, -, -⟩ := windowWrite_spec hwrite
    exact haccess
  · cases h

/-- Each operation that writes through a channel or the window is such a write access. -/
theorem writeAccess_accessOnly {s t : State} {i n : Nat} {off v a : Word} {op : Instr} (h : exec op s = .next t)
    (hop : op ∈ [.fWr3 i off n v, .fWr4 i off n v, .fUwr i off n v, .fwr a n v]) : AccessOnly s t := by
  simp only [List.mem_cons, List.not_mem_nil, or_false] at hop
  rcases hop with rfl | rfl | rfl | rfl
  · exact channelWriteOp_access h
  · exact channelWriteOp_access h
  · exact channelWriteOp_access h
  · exact windowWriteOp_access h

/-- Each operation that reads through a channel or the window is such a read access. -/
theorem readAccess_accessOnly {s t : State} {i n : Nat} {off a : Word} {op : Instr} (h : exec op s = .next t)
    (hop : op ∈ [.fRd3 i off n, .fRd4 i off n, .fUrd i off n, .frd a n]) :
    AccessOnly { s with reply := t.reply } t ∧ t.log = s.log := by
  simp only [List.mem_cons, List.not_mem_nil, or_false] at hop
  rcases hop with rfl | rfl | rfl | rfl
  · exact channelReadOp_access h
  · exact channelReadOp_access h
  · exact channelReadOp_access h
  · exact windowReadOp_access h

/-- Settles O43: a write is an access only, and a read is one that answers besides. -/
theorem accessesWriteNoRegister : Obligations.AccessesWriteNoRegister := by
  intro s t i n off v a op h
  refine ⟨fun hop => ?_, fun hop => ?_⟩
  · have haccess := writeAccess_accessOnly h hop
    exact ⟨haccess, haccess.sameMemory⟩
  · obtain ⟨haccess, hlog⟩ := readAccess_accessOnly h hop
    exact ⟨haccess, haccess.sameMemory, hlog⟩

end Sys2Proof.Machine

namespace Sys2Proof.Machine

-- Without the engine (R267)

/-- The engine's absence speaks of the latch and the line only. -/
theorem State.QuietWithoutDma.of_eq {s t : State} (h : s.QuietWithoutDma) (hcfg : t.cfg = s.cfg)
    (hdma : t.dma = s.dma) (hirq : t.irq = s.irq) : t.QuietWithoutDma := by
  unfold State.QuietWithoutDma
  rw [hcfg, hdma, hirq]
  exact h

/-- With the engine there is nothing to keep quiet. -/
theorem State.quietWithoutDma_of_hasDma {s : State} (hd : s.cfg.hasDma = true) : s.QuietWithoutDma := by
  intro hno
  rw [hd] at hno
  cases hno

/-- Every operation keeps it: those that start a transfer or raise the line are the engine's own (R255, R262). -/
theorem quietWithoutDma_preserved : Preserved State.QuietWithoutDma where
  note _ _ _ h := h
  answer _ _ h := h
  store _ _ _ _ _ _ h := h
  seg _ _ _ _ _ _ _ _ _ h := h
  ctrl _ _ _ _ h := h
  stop _ _ hd _ _ := State.quietWithoutDma_of_hasDma hd
  start _ _ hd _ _ _ := State.quietWithoutDma_of_hasDma hd
  access _ _ ha _ _ _ h := h.of_eq ha.cfg ha.dma ha.irq
  cancel _ h hno := ⟨rfl, (h hno).2⟩
  quantum s _ s1 t1 htr _ hm _ := by
    obtain ⟨hd, -⟩ := State.transfer_eq_some.mp htr
    obtain ⟨hcfg, -, -⟩ := moveQuantum_registers hm
    refine State.quietWithoutDma_of_hasDma ?_
    rw [endQuantum_frame, hcfg]
    exact hd
  reset _ _ _ := ⟨rfl, rfl⟩

/-- Settles O59: where the engine is absent, no operation reaches the latch but to clear it, nor the line but to lower
it. -/
theorem quietWithoutTheEngine : Obligations.QuietWithoutTheEngine := by
  intro s t hq hstep
  exact quietWithoutDma_preserved.step_keeps (fun _ _ h => h) hq hstep

end Sys2Proof.Machine

namespace Sys2Proof.Machine

-- The operand registers (R250, R251, R253)

/-- The writes of the operand registers store the masked value, the addresses with their base. -/
theorem writeCategory_dmaOperands {s : State} (hd : s.cfg.hasDma = true) (v : Word) :
    writeCategory s .dmaFlashAddr v = s.setWord idxDmaFlashAddr (dmaFlashOperand s.cfg v)
      ∧ writeCategory s .dmaDramAddr v = s.setWord idxDmaDramAddr (dmaDramOperand s.cfg v)
      ∧ writeCategory s .dmaLen v = s.setWord idxDmaLen (dmaLenOperand s.cfg v) := by
  simp [writeCategory, wordIndex, hd]

/-- Settles O30: each row stores its operand into its register's word. -/
theorem dmaOperandWrites : Obligations.DmaOperandWrites := by
  intro s v hs hd p hp
  obtain ⟨hflash, hdram, hlen⟩ := writeCategory_dmaOperands hd v
  simp only [List.mem_cons, List.not_mem_nil, or_false] at hp
  rcases hp with rfl | rfl | rfl
  · exact hs.row_stores .dmaFlashAddr (if_pos hd) (congrArg Host.Outcome.next hflash)
  · exact hs.row_stores .dmaDramAddr (if_pos hd) (congrArg Host.Outcome.next hdram)
  · exact hs.row_stores .dmaLen (if_pos hd) (congrArg Host.Outcome.next hlen)

-- The write of DMA_CTRL (R252)

theorem writeCategory_dmaCtrl {s : State} (hd : s.cfg.hasDma = true) (v : Word) :
    writeCategory s .dmaCtrl v = writeDmaCtrl s v := by
  simp [writeCategory, wordIndex, hd]

/-- Each row that carries a DMA_CTRL word is the write of that register, DMA.START by way of the register's offset
(R102; log 17, log 19). -/
theorem exec_dmaCtrlRow {s : State} {v : Word} {op : Instr} (hv : s.cfg.Valid) (hd : s.cfg.hasDma = true)
    (hop : op ∈ [.wr32DmaCtrl v, .dmaStop v, .dmaStartF2d v, .dmaStartD2f v, .dmaStartCksum v, .wDmactrl v,
      .dmaStart v]) : exec op s = .next (writeDmaCtrl s v) := by
  have hcat : categoryOf s.cfg 0x80 = .dmaCtrl := categoryOf_offset (Config.Valid.facts hv) (if_pos hd)
  rw [← writeCategory_dmaCtrl hd]
  simp only [List.mem_cons, List.not_mem_nil, or_false] at hop
  rcases hop with rfl | rfl | rfl | rfl | rfl | rfl | rfl
  iterate 6 rfl
  simp only [exec, execDmaStart, wr32, hcat]

theorem State.busy_iff (s : State) :
    s.busy = true ↔ (s.word 32).getLsbD 0 = true ∧ (s.word 2).getLsbD 11 = false := by
  simp [State.busy, inProgress, dmaCtrlEn, intrDmaStatus, idxDmaCtrl, idxIntrCtrl]

theorem writeDmaCtrl_of_disable (s : State) {v : Word} (hv : v.getLsbD 0 = false) :
    writeDmaCtrl s v = dmaStop (s.setWord 32 v) := if_pos hv

/-- A start while the engine is in progress is only logged (R254). -/
theorem writeDmaCtrl_of_busy {s : State} {v : Word} (hv : v.getLsbD 0 = true)
    (hbusy : (s.word 32).getLsbD 0 = true ∧ (s.word 2).getLsbD 11 = false) :
    writeDmaCtrl s v = { s with log := s.log ++ [.ge9] } := by
  rw [writeDmaCtrl, if_neg (by simpa [dmaCtrlEn] using hv), if_pos (s.busy_iff.mpr hbusy)]
  rfl

theorem writeDmaCtrl_of_ready {s : State} {v : Word} (hv : v.getLsbD 0 = true)
    (hready : (s.word 32).getLsbD 0 = false ∨ (s.word 2).getLsbD 11 = true) :
    writeDmaCtrl s v = dmaStart (s.setWord 32 v) := by
  have hbusy : ¬ s.busy = true := fun h => by
    obtain ⟨hen, hdone⟩ := s.busy_iff.mp h
    rw [hen, hdone] at hready
    simp at hready
  rw [writeDmaCtrl, if_neg (by simpa [dmaCtrlEn] using hv), if_neg hbusy]
  rfl

/-- Settles O31: every row is the disable write, which stores the word and then acts on the engine's words. -/
theorem disableWrite : Obligations.DisableWrite := by
  intro s v hs hd hv i hi
  have he : exec i s = .next (dmaStop (s.setWord 32 v)) := by
    rw [← writeDmaCtrl_of_disable s hv]
    refine exec_dmaCtrlRow hs.valid hd ?_
    simp only [List.mem_cons, List.not_mem_nil, or_false] at hi ⊢
    tauto
  have hx := hs.x_length_ge
  have hword := fun k => dmaStop_word (s.setWord 32 v) k (by rw [State.setWord_length]; omega)
  refine ⟨_, he, ?_, ?_, fun k hk => ?_, dmaStop_sameWords hs v, rfl, rfl, fun _ => rfl, rfl⟩
  · rw [hword]
    exact s.word_setWord_self 32 v (by omega)
  · rw [hword, s.word_setWord_ne 32 2 v (by decide)]
    rfl
  · rw [hword]
    exact if_pos (by simpa using hk)

/-- Settles O32: the write is the rejected start. -/
theorem startWhileBusyIsRejected : Obligations.StartWhileBusyIsRejected := by
  intro s v hd hv hen hdone
  refine ⟨{ s with log := s.log ++ [.ge9] }, ?_, rfl, rfl⟩
  rw [← writeDmaCtrl_of_busy hv ⟨hen, hdone⟩]
  exact congrArg Host.Outcome.next (writeCategory_dmaCtrl hd v)

/-- What an accepted start latches: the mode of the written word, and the operands as they stand (R255; D21). -/
theorem latched_setWord_dmaCtrl {s : State} (hs : s.Shape) (v : Word) :
    (s.setWord 32 v).latched =
      { wdir := v.getLsbD 1, cksum := v.getLsbD 2, faddr := s.word 33, daddr := s.word 34, rem := s.word 35 + 4#32
        sum := if s.cfg.cksumInit = .zero then 0#32 else s.word 36 } := by
  have hx := hs.x_length_ge
  have hself : (s.setWord 32 v).word idxDmaCtrl = v := s.word_setWord_self 32 v (by omega)
  have hother : ∀ k, 32 ≠ k → (s.setWord 32 v).word k = s.word k := fun k => s.word_setWord_ne 32 k v
  rw [State.latched, hself, hother _ (by decide), hother _ (by decide), hother _ (by decide), hother _ (by decide),
    State.setWord_cfg]
  cases s.cfg.cksumInit <;> rfl

/-- Settles O33: every form is the write of DMA_CTRL, an accepted start or a rejected one. -/
theorem startForms : Obligations.StartForms := by
  intro s v hs hd hv
  refine ⟨fun hready i hi => ?_, fun hen hdone i hi => ?_⟩
  · have he : exec i s = .next (dmaStart (s.setWord 32 v)) := by
      rw [← writeDmaCtrl_of_ready hv hready]
      refine exec_dmaCtrlRow hs.valid hd ?_
      simp only [List.mem_cons, List.not_mem_nil, or_false] at hi ⊢
      tauto
    have hx := hs.x_length_ge
    obtain ⟨hself, hothers, -, -⟩ := setWord_stores (s := s) (k := 32) v (by omega)
    exact ⟨_, he, hself, hothers, congrArg some (latched_setWord_dmaCtrl hs v), fun _ => rfl, rfl⟩
  · rw [← writeDmaCtrl_of_busy hv ⟨hen, hdone⟩]
    refine exec_dmaCtrlRow hs.valid hd ?_
    simp only [List.mem_cons, List.not_mem_nil, or_false] at hi ⊢
    tauto

end Sys2Proof.Machine

namespace Sys2Proof.Machine

-- Quanta that move nothing (R258, R267)

/-- Where there is no transfer, or no engine, no step is taken (log 4, log 29). -/
theorem quantum_of_no_transfer {s : State} (h : s.transfer = none) : quantum s = .next s := by
  unfold quantum
  rw [h]

/-- A disabled quantum only ends the transfer (R258). -/
theorem quantum_of_disabled {s : State} {x : DmaTransfer} (htr : s.transfer = some x)
    (hen : (s.word 32).getLsbD 0 = false) : quantum s = .next { s with dma := none } := by
  unfold quantum
  rw [htr]
  exact if_pos hen

/-- An enabled quantum ends with what its move left (R259). -/
theorem quantum_of_move {s s1 : State} {x x1 : DmaTransfer} (htr : s.transfer = some x)
    (hen : (s.word 32).getLsbD 0 = true) (hm : moveQuantum s x = some (s1, x1)) :
    quantum s = .next (endQuantum s1 x1) := by
  have hon : dmaCtrlEn (s.word idxDmaCtrl) = true := hen
  simp [quantum, htr, hon, hm]

/-- Settles O49: the two quanta that move nothing. -/
theorem quantumWithoutEnable : Obligations.QuantumWithoutEnable := by
  refine fun s => ⟨fun x htr hen => quantum_of_disabled htr hen, fun h => quantum_of_no_transfer ?_⟩
  unfold State.transfer
  rcases h with hdma | hd
  · rw [hdma, ite_self]
  · exact if_neg (by simp [hd])

-- The move of a quantum, mode by mode (R260, R261, R263)

/-- Where no window ends inside it, a window read completes (R65). -/
theorem windowRead_of_noStraddle {s : State} {a n : Nat} (h : NoStraddle s a n) :
    ∃ t v, windowRead s a n = some (t, v) := by
  rcases hr : windowRead s a n with _ | ⟨t, v⟩
  · obtain ⟨i, hi, hout⟩ := windowRead_none hr
    exact absurd (h i hi) (Nat.not_le.mpr hout)
  · exact ⟨t, v, rfl⟩

/-- Where no window ends inside it, a window write completes (R65). -/
theorem windowWrite_of_noStraddle {s : State} {a n : Nat} (v : Word) (h : NoStraddle s a n) :
    ∃ t, windowWrite s a n v = some t := by
  rcases hw : windowWrite s a n v with _ | t
  · obtain ⟨i, hi, hout⟩ := windowWrite_none hw
    exact absurd (h i hi) (Nat.not_le.mpr hout)
  · exact ⟨t, rfl⟩

theorem moveQuantum_of_checksum {s s1 : State} {x : DmaTransfer} {w : Word} (hc : x.cksum = true)
    (hr : windowRead s x.faddr.toNat 4 = some (s1, w)) :
    moveQuantum s x = some (s1, { x with sum := x.sum + w, faddr := x.faddr + 4#32 }) := by
  simp [moveQuantum, hc, hr]

theorem moveQuantum_of_memoryToFlash {s s1 : State} {x : DmaTransfer} (hc : x.cksum = false) (hw : x.wdir = true)
    (hr : windowWrite s x.faddr.toNat 4 (s.dram.read32 x.daddr) = some s1) :
    moveQuantum s x = some (s1, { x with faddr := x.faddr + 4#32, daddr := x.daddr + 4#32 }) := by
  simp [moveQuantum, hc, hw, hr]

theorem moveQuantum_of_flashToMemory {s s1 : State} {x : DmaTransfer} {w : Word} (hc : x.cksum = false)
    (hw : x.wdir = false) (hr : windowRead s x.faddr.toNat 4 = some (s1, w)) :
    moveQuantum s x = some ({ s1 with dram := s1.dram.write32 x.daddr w },
      { x with faddr := x.faddr + 4#32, daddr := x.daddr + 4#32 }) := by
  simp [moveQuantum, hc, hw, hr]

/-- In each mode the move completes where no window ends inside its flash-side access (R65). -/
theorem moveQuantum_of_noStraddle {s : State} {x : DmaTransfer} (h : NoStraddle s x.faddr.toNat 4) :
    ∃ s1 x1, moveQuantum s x = some (s1, x1) := by
  obtain ⟨u, w, hread⟩ := windowRead_of_noStraddle h
  obtain ⟨t, hwrite⟩ := windowWrite_of_noStraddle (s.dram.read32 x.daddr) h
  cases hc : x.cksum with
  | true => exact ⟨_, _, moveQuantum_of_checksum hc hread⟩
  | false =>
    cases hw : x.wdir with
    | true => exact ⟨_, _, moveQuantum_of_memoryToFlash hc hw hwrite⟩
    | false => exact ⟨_, _, moveQuantum_of_flashToMemory hc hw hread⟩

-- The end of a quantum (R259, R262)

/-- Nothing remains after the quantum of the last four bytes. -/
theorem sub_four_eq_zero_iff (w : Word) : w - 4#32 = 0#32 ↔ w = 4#32 := by
  bv_omega

/-- What a quantum from `s` to `t` does to the registers, the line and the latch, where its move left the cursors and
the sum of `y`: it publishes them with the length less 4, and completes where that was the last quantum. -/
structure QuantumEnds (s t : State) (y : DmaTransfer) : Prop where
  faddr : t.word 33 = y.faddr
  daddr : t.word 34 = y.daddr
  len : t.word 35 = y.rem - 4#32
  sum : t.word 36 = y.sum
  words : SameWordsBut s t ([33, 34, 35, 36] ++ if y.rem = 4#32 then [2] else [])
  continues : y.rem ≠ 4#32 → t.irq = s.irq ∧ t.dma = some { y with rem := y.rem - 4#32 }
  completes : y.rem = 4#32 → t.word 2 = s.word 2 ||| 0x00000800#32
    ∧ t.irq = (if (s.word 2).getLsbD 3 then .high else s.irq) ∧ t.dma = none

/-- The words besides the operand registers' after the end of a quantum: only completion writes one (R262). -/
theorem endQuantum_sameWordsBut {s : State} (y : DmaTransfer) (hx : 37 ≤ s.x.length) :
    SameWordsBut s (endQuantum s y) ([33, 34, 35, 36] ++ if y.rem = 4#32 then [2] else []) := by
  intro k hk
  simp only [List.mem_append, List.mem_cons, List.not_mem_nil, or_false, not_or] at hk
  obtain ⟨⟨h33, h34, h35, h36⟩, h2⟩ := hk
  rw [endQuantum_word s y k hx, if_neg h33, if_neg h34, if_neg h35, if_neg h36]
  refine if_neg ?_
  rintro ⟨rfl, hlast⟩
  simp [(sub_four_eq_zero_iff _).mp hlast] at h2

/-- Every quantum ends so, whatever its move (R259, R262). -/
theorem endQuantum_ends {s : State} (y : DmaTransfer) (hx : 37 ≤ s.x.length) : QuantumEnds s (endQuantum s y) y where
  faddr := endQuantum_word s y 33 hx
  daddr := endQuantum_word s y 34 hx
  len := endQuantum_word s y 35 hx
  sum := endQuantum_word s y 36 hx
  words := endQuantum_sameWordsBut y hx
  continues hmore := by
    have hleft : ¬ y.rem - 4#32 = 0#32 := fun h => hmore ((sub_four_eq_zero_iff _).mp h)
    rw [endQuantum_irq s y hx, endQuantum_dma, if_neg hleft, if_neg fun h => hleft h.1]
    exact ⟨rfl, rfl⟩
  completes hlast := by
    rw [endQuantum_word s y 2 hx, endQuantum_irq s y hx, endQuantum_dma]
    simp [hlast, setDmaStatus, dmaStatusMask]

/-- The move of a quantum leaves the line (R305). -/
theorem moveQuantum_irq {s s1 : State} {x x1 : DmaTransfer} (hm : moveQuantum s x = some (s1, x1)) :
    s1.irq = s.irq := by
  obtain ⟨s0, ha, -, -, -, hs1, -⟩ := moveQuantum_spec hm
  rcases hs1 with rfl | ⟨-, -, w, rfl⟩ <;> exact ha.irq

/-- So ends the quantum of any move, seen from the state before it. -/
theorem moveQuantum_ends {s s1 : State} {x x1 : DmaTransfer} (hs : s.Shape) (hm : moveQuantum s x = some (s1, x1)) :
    QuantumEnds s (endQuantum s1 x1) x1 := by
  obtain ⟨-, hx, -⟩ := moveQuantum_registers hm
  have hword : ∀ k, s1.word k = s.word k := fun k => by rw [State.word, hx, State.word]
  have hlen := hs.x_length_ge
  have h := endQuantum_ends (s := s1) x1 (by rw [hx]; omega)
  refine ⟨h.faddr, h.daddr, h.len, h.sum, fun k hk => (h.words k hk).trans (hword k), ?_, ?_⟩
  · rw [← moveQuantum_irq hm]
    exact h.continues
  · rw [← moveQuantum_irq hm, ← hword 2]
    exact h.completes

-- The quantum of each mode

/-- Settles O45: the word read is written to main memory, and what the quantum publishes is its end's. -/
theorem quantumFlashToMemory : Obligations.QuantumFlashToMemory := by
  intro s x hs hmem htr hen hc hw hno
  obtain ⟨s1, w, hread⟩ := windowRead_of_noStraddle hno
  obtain ⟨ha, -⟩ := windowRead_spec hread
  have hm := moveQuantum_of_flashToMemory hc hw hread
  obtain ⟨hfaddr, hdaddr, hlen, hsum, hwords, hcontinues, -⟩ := moveQuantum_ends hs hm
  have hdram : ∀ u y, (endQuantum u y).dram = u.dram := fun u y => by rw [endQuantum_frame]
  refine ⟨_, s1, w, hread, quantum_of_move htr hen hm, fun k hk => ?_, fun b hb => ?_, hfaddr, hdaddr, hlen, hsum,
    hwords, hcontinues, ?_⟩
  · rw [hdram]
    exact Memory.readByte_write32 (ha.memoryWf hmem) x.daddr w hk
  · rw [hdram, ← ha.dram]
    exact Memory.readByte_write32_ne s1.dram x.daddr w b fun k hk he => hb ⟨k, hk, he.symm⟩
  · rw [endQuantum_frame]

/-- Settles O46: the window write is refused or not, and the quantum ends alike. -/
theorem quantumMemoryToFlash : Obligations.QuantumMemoryToFlash := by
  intro s x hs htr hen hc hw hno
  obtain ⟨s1, hwrite⟩ := windowWrite_of_noStraddle (s.dram.read32 x.daddr) hno
  obtain ⟨ha, -⟩ := windowWrite_spec hwrite
  have hm := moveQuantum_of_memoryToFlash hc hw hwrite
  obtain ⟨hfaddr, hdaddr, hlen, hsum, hwords, hcontinues, -⟩ := moveQuantum_ends hs hm
  refine ⟨_, s1, hwrite, quantum_of_move htr hen hm, hfaddr, hdaddr, hlen, hsum, hwords, hcontinues, ?_,
    endQuantum_frame s1 _⟩
  rw [endQuantum_frame]
  exact ha.sameMemory

/-- Settles O47: the direction bit plays no part in the move of a checksum quantum. -/
theorem quantumChecksum : Obligations.QuantumChecksum := by
  intro s x hs htr hen hc hno
  obtain ⟨s1, w, hread⟩ := windowRead_of_noStraddle hno
  obtain ⟨ha, -⟩ := windowRead_spec hread
  have hm := moveQuantum_of_checksum hc hread
  obtain ⟨hfaddr, hdaddr, hlen, hsum, hwords, hcontinues, -⟩ := moveQuantum_ends hs hm
  refine ⟨_, s1, w, hread, quantum_of_move htr hen hm, hfaddr, hdaddr, hlen, hsum, hwords, hcontinues, ?_,
    endQuantum_frame s1 _⟩
  rw [endQuantum_frame]
  exact ha.sameMemory

/-- Settles O48: whatever the last move was, its quantum completes. -/
theorem completion : Obligations.Completion := by
  intro s x hs htr hen hlast hno
  obtain ⟨s1, x1, hm⟩ := moveQuantum_of_noStraddle hno
  obtain ⟨-, -, -, -, -, -, hrem, -, -, hfaddr1, hdaddr1, hcopy, hcheck⟩ := moveQuantum_spec hm
  have hlast1 : x1.rem = 4#32 := hrem.trans hlast
  obtain ⟨hfaddr, hdaddr, hlen, hsum, hwords, -, hcompletes⟩ := moveQuantum_ends hs hm
  obtain ⟨hstatus, hirq, hdma⟩ := hcompletes hlast1
  rw [if_pos hlast1] at hwords
  refine ⟨_, quantum_of_move htr hen hm, hstatus, hirq, hdma, hwords 32 (by decide), hfaddr.trans hfaddr1,
    hdaddr.trans hdaddr1, by rw [hlen, hlast1]; rfl, fun hc => hsum.trans (hcopy hc), fun hc => ?_,
    fun k hk => hwords k fun hk' => hk ?_⟩
  · obtain ⟨w, hread, hadd⟩ := hcheck hc
    exact ⟨s1, w, hread, hsum.trans hadd⟩
  · simp only [List.cons_append, List.nil_append, List.mem_cons, List.not_mem_nil, or_false] at hk' ⊢
    tauto

end Sys2Proof.Machine

namespace Sys2Proof.Machine

-- A transfer and its progress (R259, R263, R265)

/-- The transfer `x` after `q` quanta: the cursors and the length have moved by `4q`, and in checksum mode `sum` is added
and the memory cursor stays. -/
def DmaTransfer.after (x : DmaTransfer) (q : Nat) (sum : Word) : DmaTransfer :=
  { x with
    faddr := x.faddr + BitVec.ofNat 32 (4 * q)
    daddr := if x.cksum then x.daddr else x.daddr + BitVec.ofNat 32 (4 * q)
    rem := x.rem - BitVec.ofNat 32 (4 * q)
    sum := if x.cksum then x.sum + sum else x.sum }

theorem DmaTransfer.after_zero (x : DmaTransfer) : x.after 0 0#32 = x := by
  simp [DmaTransfer.after]

/-- The words read count in checksum mode only (R263). -/
theorem DmaTransfer.after_congr {x : DmaTransfer} {v w : Word} (q : Nat) (h : x.cksum = true → v = w) :
    x.after q v = x.after q w := by
  cases hc : x.cksum with
  | true => rw [h hc]
  | false => simp [DmaTransfer.after, hc]

/-- One quantum and then `q` more. -/
theorem DmaTransfer.after_one_after (x : DmaTransfer) (q : Nat) (v w : Word) :
    (x.after 1 v).after q w = x.after (q + 1) (v + w) := by
  have hmoved : BitVec.ofNat 32 (4 * (q + 1)) = BitVec.ofNat 32 (4 * 1) + BitVec.ofNat 32 (4 * q) := by
    rw [← BitVec.ofNat_add]
    congr 1
    omega
  cases hc : x.cksum <;>
    simp only [DmaTransfer.after, hc, hmoved, sub_sub, BitVec.add_assoc, if_true, Bool.false_eq_true, if_false]

/-- What remains after as many quanta as the transfer has room for. -/
theorem DmaTransfer.after_rem_toNat {x : DmaTransfer} {q : Nat} (sum : Word) (hq : 4 * q ≤ x.rem.toNat) :
    (x.after q sum).rem.toNat = x.rem.toNat - 4 * q := by
  have hlt := x.rem.isLt
  have hmoved : (BitVec.ofNat 32 (4 * q)).toNat = 4 * q := by
    rw [BitVec.toNat_ofNat]
    omega
  change (x.rem - BitVec.ofNat 32 (4 * q)).toNat = _
  rw [BitVec.toNat_sub_of_le (by rw [BitVec.le_def, hmoved]; exact hq), hmoved]

/-- Nothing remains after exactly a quarter as many quanta as bytes were left (R265). -/
theorem DmaTransfer.after_rem_eq_zero_iff {x : DmaTransfer} {q : Nat} (sum : Word) (hq : 4 * q ≤ x.rem.toNat) :
    (x.after q sum).rem = 0#32 ↔ 4 * q = x.rem.toNat := by
  rw [← BitVec.toNat_inj, DmaTransfer.after_rem_toNat sum hq, BitVec.toNat_ofNat]
  omega

/-- The move of a quantum and the length it leaves are one quantum of progress, by the word read in checksum mode
(R259). -/
theorem moveQuantum_after {s s1 : State} {x x1 : DmaTransfer} (hm : moveQuantum s x = some (s1, x1)) :
    ∃ w, (x.cksum = true → windowRead s x.faddr.toNat 4 = some (s1, w))
      ∧ { x1 with rem := x1.rem - 4#32 } = x.after 1 w := by
  obtain ⟨-, -, -, -, -, -, hrem, hwdir, hcksum, hfaddr, hdaddr, hcopy, hcheck⟩ := moveQuantum_spec hm
  cases hc : x.cksum with
  | true =>
    obtain ⟨w, hread, hsum⟩ := hcheck hc
    exact ⟨w, fun _ => hread, by simp [DmaTransfer.after, hrem, hwdir, hcksum, hfaddr, hdaddr, hsum, hc]⟩
  | false =>
    exact ⟨0#32, by simp, by simp [DmaTransfer.after, hrem, hwdir, hcksum, hfaddr, hdaddr, hcopy hc, hc]⟩

-- A transfer in progress, and what one quantum makes of it

/-- No window ends inside four aligned bytes: the windows are in units of 8 MB (R72, R192). -/
theorem State.WindowsInside.noStraddle_of_aligned {s : State} (h : s.WindowsInside) {a : Nat} (ha : a % 4 = 0) :
    NoStraddle s a 4 := by
  intro i hi
  obtain ⟨hlt, hlo, hhi⟩ := mem_channelsAt.mp hi
  obtain ⟨hwin, -⟩ := h
  obtain ⟨haddr, hsize, -⟩ := hwin i hlt
  rw [segUnit_eq] at haddr hsize
  omega

/-- The transfer `x` is in existence and enabled, in a state where its quanta complete: its flash cursor is aligned, and
what it has left is a multiple of 4. -/
structure TransferRuns (s : State) (x : DmaTransfer) : Prop where
  shape : s.Shape
  windows : s.WindowsInside
  transfer : s.transfer = some x
  enabled : (s.word 32).getLsbD 0 = true
  aligned : x.faddr.toNat % 4 = 0
  remaining : RemainingFits x.rem

/-- The registers show the progress `y` of a transfer, which runs on, or has completed where nothing remains. -/
structure TransferReaches (t : State) (y : DmaTransfer) : Prop where
  faddr : t.word 33 = y.faddr
  daddr : t.word 34 = y.daddr
  len : t.word 35 = y.rem
  sum : t.word 36 = y.sum
  continues : y.rem ≠ 0#32 → TransferRuns t y
  completes : y.rem = 0#32 → t.dma = none ∧ (t.word 2).getLsbD 11 = true

/-- A quantum that is not the last leaves a transfer that runs on (R259, R270). -/
theorem TransferRuns.endQuantum_runs {s s1 : State} {x x1 : DmaTransfer} (h : TransferRuns s x)
    (hm : moveQuantum s x = some (s1, x1)) (hmore : x1.rem ≠ 4#32) :
    TransferRuns (endQuantum s1 x1) { x1 with rem := x1.rem - 4#32 } := by
  obtain ⟨-, -, -, -, -, -, hrem, -, -, hfaddr, -⟩ := moveQuantum_spec hm
  have hplain := quantum_plainChange h.shape h.transfer hm
  have hends := moveQuantum_ends h.shape hm
  obtain ⟨hd, -⟩ := State.transfer_eq_some.mp h.transfer
  obtain ⟨-, hdma⟩ := hends.continues hmore
  have haligned := h.aligned
  refine ⟨endQuantum_shape hm h.shape, windowsInside_invariant.plain _ _ h.shape hplain h.windows,
    State.transfer_eq_some.mpr ⟨by rw [hplain.cfg, hd], hdma⟩, ?_, ?_, ?_⟩
  · rw [hends.words 32 (by rw [if_neg hmore]; decide)]
    exact h.enabled
  · change x1.faddr.toNat % 4 = 0
    rw [hfaddr]
    bv_omega
  · refine ⟨?_, fun hzero => hmore ((sub_four_eq_zero_iff _).mp hzero)⟩
    obtain ⟨hlow, -⟩ := h.remaining.lengthFits_sub_four
    rw [← hrem] at hlow
    exact hlow

/-- The sum of one quantum is the word it reads (R263). -/
theorem quantaSum_one {s t u : State} {x : DmaTransfer} {w : Word} (htr : s.transfer = some x)
    (he : exec .dmaq s = .next t) (hr : windowRead s x.faddr.toNat 4 = some (u, w)) : quantaSum 1 s = w := by
  simp [quantaSum, htr, he, hr]

theorem quantaSum_succ {s t : State} {x : DmaTransfer} (q : Nat) (htr : s.transfer = some x)
    (he : exec .dmaq s = .next t) : quantaSum (q + 1) s = quantaSum 1 s + quantaSum q t := by
  simp [quantaSum, htr, he]

theorem runQuanta_succ {s t : State} (q : Nat) (he : exec .dmaq s = .next t) :
    runQuanta (q + 1) s = runQuanta q t := by
  simp [runQuanta, he]

/-- One quantum of a transfer in progress. -/
theorem TransferRuns.quantum_reaches {s : State} {x : DmaTransfer} (h : TransferRuns s x) :
    ∃ t, exec .dmaq s = .next t ∧ TransferReaches t (x.after 1 (quantaSum 1 s)) := by
  obtain ⟨s1, x1, hm⟩ := moveQuantum_of_noStraddle (h.windows.noStraddle_of_aligned h.aligned)
  obtain ⟨w, hread, hafter⟩ := moveQuantum_after hm
  have he : exec .dmaq s = .next (endQuantum s1 x1) := quantum_of_move h.transfer h.enabled hm
  have hends := moveQuantum_ends h.shape hm
  refine ⟨_, he, ?_⟩
  rw [x.after_congr 1 fun hc => quantaSum_one h.transfer he (hread hc), ← hafter]
  refine ⟨hends.faddr, hends.daddr, hends.len, hends.sum, fun hne => ?_, fun hzero => ?_⟩
  · exact h.endQuantum_runs hm fun hlast => hne ((sub_four_eq_zero_iff _).mpr hlast)
  · obtain ⟨hstatus, -, hdma⟩ := hends.completes ((sub_four_eq_zero_iff _).mp hzero)
    exact ⟨hdma, by rw [hstatus]; simp⟩

-- A run of quanta (R265, R270)

/-- A run of quanta that what is left has room for, by induction on their number. -/
theorem TransferRuns.runQuanta_reaches {s : State} {x : DmaTransfer} (h : TransferRuns s x) (q : Nat)
    (hq : 4 * (q + 1) ≤ x.rem.toNat) :
    ∃ t, runQuanta (q + 1) s = some t ∧ TransferReaches t (x.after (q + 1) (quantaSum (q + 1) s)) := by
  induction q generalizing s x with
  | zero =>
    obtain ⟨u, he, hu⟩ := h.quantum_reaches
    exact ⟨u, runQuanta_succ 0 he, hu⟩
  | succ q ih =>
    obtain ⟨u, he, hu⟩ := h.quantum_reaches
    have hleft := x.after_rem_toNat (q := 1) (quantaSum 1 s) (by omega)
    have hruns : TransferRuns u (x.after 1 (quantaSum 1 s)) :=
      hu.continues fun hzero => by
        have := (x.after_rem_eq_zero_iff (quantaSum 1 s) (by omega)).mp hzero
        omega
    obtain ⟨t, hrun, ht⟩ := ih hruns (by omega)
    rw [DmaTransfer.after_one_after, ← quantaSum_succ (q + 1) h.transfer he] at ht
    exact ⟨t, (runQuanta_succ (q + 1) he).trans hrun, ht⟩

/-- Settles O50: no quantum or a run of some, and a run of all completes. -/
theorem transferRunsToCompletion : Obligations.TransferRunsToCompletion := by
  intro s x hinv htr hen haligned q hq
  obtain ⟨hs, -, -, hwindows, -, hlengths, -, -⟩ := hinv
  obtain ⟨hd, hdma⟩ := State.transfer_eq_some.mp htr
  have hrem : RemainingFits x.rem := (hlengths hd).2 x hdma
  have hruns : TransferRuns s x := ⟨hs, hwindows, htr, hen, haligned, hrem⟩
  cases q with
  | zero =>
    refine ⟨s, rfl, fun _ => htr.trans (congrArg some x.after_zero.symm), fun hpos => absurd hpos (by decide),
      fun hnone => ?_⟩
    exact absurd (BitVec.eq_of_toNat_eq hnone.symm) hrem.2
  | succ q =>
    obtain ⟨t, hrun, ht⟩ := hruns.runQuanta_reaches q hq
    have hzero := x.after_rem_eq_zero_iff (quantaSum (q + 1) s) hq
    refine ⟨t, hrun, fun hmore => ?_, fun _ => ⟨ht.faddr, ht.daddr, ht.len, ht.sum⟩, fun hall => ?_⟩
    · exact (ht.continues fun h => by have := hzero.mp h; omega).transfer
    · obtain ⟨hnone, hstatus⟩ := ht.completes (hzero.mpr hall)
      exact ⟨hnone, hstatus, ht.len.trans (hzero.mpr hall)⟩

end Sys2Proof.Machine

namespace Sys2Proof.Machine

-- The log of the clamp (R303)

/-- A quantum logs at most the refused write's event, so never the clamp's. -/
theorem quantum_w1_count {s s1 : State} {x x1 : DmaTransfer} (hm : moveQuantum s x = some (s1, x1)) :
    (endQuantum s1 x1).log.count .w1 = s.log.count .w1 := by
  obtain ⟨s0, -, -, -, hlog, hs1, -⟩ := moveQuantum_spec hm
  have hkept : (endQuantum s1 x1).log = s0.log := by
    rw [endQuantum_frame]
    rcases hs1 with rfl | ⟨-, -, w, rfl⟩ <;> rfl
  rw [hkept]
  rcases hlog with h | h <;> simp [h]

/-- Every operation keeps how often the clamp was logged: what each part logs is another code (R301, R302). -/
theorem w1_count_preserved (n : Nat) : Preserved fun s => s.log.count .w1 = n where
  note _ codes hc h := by simp [List.count_eq_zero.mpr hc, h]
  answer _ _ h := h
  store _ _ _ _ _ _ h := h
  seg _ _ codes _ _ _ hc _ _ h := by simp [List.count_eq_zero.mpr hc, h]
  ctrl _ _ _ _ h := h
  stop _ _ _ _ h := h
  start _ _ _ _ _ h := h
  access _ _ _ _ _ hlog h := by rcases hlog with hl | hl <;> simp [hl, h]
  cancel _ h := h
  quantum _ _ _ _ _ _ hm h := (quantum_w1_count hm).trans h
  reset _ h := h

/-- Settles O11: construction clamps and logs by one comparison, and no operation logs W1. -/
theorem clampOnlyAtConstruction : Obligations.ClampOnlyAtConstruction := by
  refine ⟨fun c n => ⟨rfl, ?_⟩, fun i s t he => (w1_count_preserved _).exec he rfl⟩
  simp [State.construct, Config.construct]

end Sys2Proof.Machine

namespace Sys2Proof.Machine

-- What is refused, and under which name (R300, R65, R36; log 12, log 30)

/-- A window read is refused only where a window ends inside it (R65). -/
theorem windowReadOp_refused {s : State} {a n : Nat} {r : Refusal} (h : windowReadOp s a n = .refused r) :
    r = .straddlesWindow ∧ ¬ NoStraddle s a n := by
  unfold windowReadOp at h
  split at h
  · cases h
  · rename_i hnone
    obtain rfl := Host.Outcome.refused.inj h
    refine ⟨rfl, fun hno => ?_⟩
    obtain ⟨u, v, hsome⟩ := windowRead_of_noStraddle hno
    simp [hsome] at hnone

/-- A window write is refused only where a window ends inside it (R65). -/
theorem windowWriteOp_refused {s : State} {a n : Nat} {v : Word} {r : Refusal}
    (h : windowWriteOp s a n v = .refused r) : r = .straddlesWindow ∧ ¬ NoStraddle s a n := by
  unfold windowWriteOp at h
  split at h
  · cases h
  · rename_i hnone
    obtain rfl := Host.Outcome.refused.inj h
    refine ⟨rfl, fun hno => ?_⟩
    obtain ⟨u, hsome⟩ := windowWrite_of_noStraddle v hno
    simp [hsome] at hnone

/-- A quantum is refused only where a window ends inside its flash-side access (R65, R259). -/
theorem quantum_refused {s : State} {r : Refusal} (h : quantum s = .refused r) :
    r = .straddlesWindow ∧ ∃ x, s.transfer = some x ∧ ¬ NoStraddle s x.faddr.toNat 4 := by
  unfold quantum at h
  split at h
  · cases h
  · rename_i x htr
    split at h
    · cases h
    · split at h
      · rename_i hnone
        obtain rfl := Host.Outcome.refused.inj h
        refine ⟨rfl, x, htr, fun hno => ?_⟩
        obtain ⟨s1, x1, hsome⟩ := moveQuantum_of_noStraddle hno
        simp [hsome] at hnone
      · cases h

/-- A frame read is refused only on an absent channel (R36). -/
theorem channelReadOp_refused {s : State} {j n : Nat} {off : Word} {r : Refusal}
    (h : channelReadOp s j off n = .refused r) : r = .noSuchChannel ∧ s.cfg.maxSlaves ≤ j := by
  unfold channelReadOp at h
  split at h
  · cases h
  · rename_i hj
    exact ⟨(Host.Outcome.refused.inj h).symm, Nat.not_lt.mp hj⟩

/-- A frame write is refused only on an absent channel (R36). -/
theorem channelWriteOp_refused {s : State} {j n : Nat} {off v : Word} {r : Refusal}
    (h : channelWriteOp s j off n v = .refused r) : r = .noSuchChannel ∧ s.cfg.maxSlaves ≤ j := by
  unfold channelWriteOp at h
  split at h
  · cases h
  · rename_i hj
    exact ⟨(Host.Outcome.refused.inj h).symm, Nat.not_lt.mp hj⟩

/-- Settles O6: only the window port, the quantum and the frames can be refused, each under its one name. -/
theorem onlyTheNamedStops : Obligations.OnlyTheNamedStops := by
  intro i s r h
  cases i with
  | frd a n =>
    obtain ⟨hr, hout⟩ := windowReadOp_refused h
    exact .inl ⟨hr, .inl ⟨a, n, rfl, hout⟩⟩
  | fwr a n v =>
    obtain ⟨hr, hout⟩ := windowWriteOp_refused h
    exact .inl ⟨hr, .inr (.inl ⟨a, n, v, rfl, hout⟩)⟩
  | dmaq =>
    obtain ⟨hr, hout⟩ := quantum_refused h
    exact .inl ⟨hr, .inr (.inr ⟨rfl, hout⟩)⟩
  | fRd3 j off n | fRd4 j off n | fUrd j off n =>
    obtain ⟨hr, hj⟩ := channelReadOp_refused h
    exact .inr ⟨hr, j, off, n, 0#32, hj, by simp⟩
  | fWr3 j off n v | fWr4 j off n v | fUwr j off n v =>
    obtain ⟨hr, hj⟩ := channelWriteOp_refused h
    exact .inr ⟨hr, j, off, n, v, hj, by simp⟩
  | _ => cases h

end Sys2Proof.Machine

namespace Sys2Proof.Machine

-- What a register access does to the interrupt line (R143, R264, R309)

theorem readCategory_irq (s : State) (cat : Category) : (readCategory s cat).irq = s.irq := by
  obtain ⟨codes, v, -, h⟩ := readCategory_spec s cat
  rw [h]
  rfl

/-- A register write that is no disable write leaves the line. -/
theorem writeCategory_irq_of_no_disable (s : State) {cat : Category} {v : Word}
    (h : cat = .dmaCtrl → v.getLsbD 0 = true) : (writeCategory s cat v).irq = s.irq := by
  rcases writeCategory_irq s cat v with hkept | ⟨hcat, -, hoff⟩
  · exact hkept
  · exact absurd ((h hcat).symm.trans hoff) (by decide)

/-- Only byte offset 0x80 is DMA_CTRL's, where the variant has the engine (R22, R91). -/
theorem offset_of_categoryOf_dmaCtrl {c : Config} (hf : Config.Facts c) {off : Nat} (hoff : off % 4 = 0)
    (h : categoryOf c off = .dmaCtrl) : c.hasDma = true ∧ off = 0x80 := by
  rcases categoryOf_cases hf off hoff with ho | ⟨ho, -⟩ | ⟨ho, -⟩ <;> rw [h] at ho
  · obtain ⟨hd, heq⟩ := Option.ite_none_right_eq_some.mp ho
    exact ⟨hd, (Option.some.inj heq).symm⟩
  · cases ho
  · cases ho

/-- A write at the control offset of a slave of the variant leaves the line: it is not DMA_CTRL's (R7(e)). -/
theorem wr32_ctrlOffset_irq {s u : State} (hf : Config.Facts s.cfg) (hcfg : u.cfg = s.cfg) {j : Nat}
    (hj : j < s.cfg.maxSlaves) (v : Word) : (wr32 u (ctrlOffset s.cfg j) v).irq = u.irq := by
  refine writeCategory_irq_of_no_disable u fun h => ?_
  rw [hcfg] at h
  have hmod := hf.ctrl_mod
  obtain ⟨hd, hoff⟩ := offset_of_categoryOf_dmaCtrl hf (by unfold ctrlOffset; omega) h
  exact absurd hoff (hf.dma_ctrl hd 0x80 (by simp) j hj)

/-- A write at a segment offset leaves the line, whichever slave index it is made from (R22). -/
theorem wr32_segOffset_irq {s : State} (hf : Config.Facts s.cfg) {j : Nat} (hj : j < slaveLimit) (v : Word) :
    (wr32 s (0x30 + 4 * j) v).irq = s.irq := by
  refine writeCategory_irq_of_no_disable s fun h => ?_
  obtain ⟨-, hoff⟩ := offset_of_categoryOf_dmaCtrl hf (by omega) h
  unfold slaveLimit at hj
  omega

/-- CS.LOW and CS.HIGH on a slave of the variant leave the line (R102). -/
theorem readModifyCtrl_irq {s : State} (hf : Config.Facts s.cfg) {j : Nat} (hj : j < s.cfg.maxSlaves)
    (f : Word → Word) : (readModifyCtrl s j f).irq = s.irq :=
  (wr32_ctrlOffset_irq hf (rd32_cfg s _) hj _).trans (readCategory_irq s _)

/-- Where the masked bits of a DMA_CTRL word have bit 0 set, the word enables (R94, R102). -/
theorem enable_of_masked {w m k : Word} (hw : w &&& m = k) (hk : k.getLsbD 0 = true) : w.getLsbD 0 = true := by
  rw [← hw, BitVec.getLsbD_and, Bool.and_eq_true] at hk
  obtain ⟨hbit, -⟩ := hk
  exact hbit

-- The events of the interrupt line (R305, R308, R309)

/-- The operation completes a transfer with `dma_en` set (R262, R305). -/
structure EnabledCompletion (i : Instr) (s t : State) : Prop where
  quantum : i = .dmaq
  last : ∃ x, s.transfer = some x ∧ x.rem = 4#32
  enabled : (s.word 2).getLsbD 3 = true
  status : (t.word 2).getLsbD 11 = true
  idle : t.dma = none

/-- The operation is reset or a disable write, and acknowledges (R264, R308, R309). -/
structure Acknowledgement (i : Instr) (t : State) : Prop where
  event : i = .reset ∨ ∃ w, w.getLsbD 0 = false ∧ i ∈ [.wr32DmaCtrl w, .dmaStop w, .wDmactrl w]
  status : (t.word 2).getLsbD 11 = false
  idle : t.dma = none

/-- What an operation does to the line: nothing, unless it is one of the line's two events. -/
def LineFollows (i : Instr) (s t : State) : Prop :=
  t.irq = s.irq ∨ (t.irq = .high ∧ EnabledCompletion i s t) ∨ (t.irq = .low ∧ Acknowledgement i t)

/-- A quantum raises the line at an enabled completion, and never lowers it (R262, R305). -/
theorem quantum_lineFollows {s t : State} (hs : s.Shape) (h : quantum s = .next t) : LineFollows .dmaq s t := by
  rcases quantum_cases h with ⟨-, rfl⟩ | ⟨x, htr, ⟨-, rfl⟩ | ⟨-, s1, x1, hm, rfl⟩⟩
  · exact .inl rfl
  · exact .inl rfl
  · obtain ⟨-, -, -, -, -, -, hrem, -⟩ := moveQuantum_spec hm
    have hends := moveQuantum_ends hs hm
    by_cases hlast : x1.rem = 4#32
    · obtain ⟨hstatus, hirq, hdma⟩ := hends.completes hlast
      by_cases hen : (s.word 2).getLsbD 3 = true
      · have hset : ((endQuantum s1 x1).word 2).getLsbD 11 = true := by rw [hstatus]; simp
        exact .inr (.inl ⟨hirq.trans (if_pos hen), rfl, ⟨x, htr, hrem ▸ hlast⟩, hen, hset, hdma⟩)
      · exact .inl (hirq.trans (if_neg hen))
    · obtain ⟨hirq, -⟩ := hends.continues hlast
      exact .inl hirq

/-- INTR_CTRL is 0 after reset (R47). -/
theorem resetBlock_word_intrCtrl {s : State} (hs : s.Shape) : (resetBlock s).word 2 = 0#32 := by
  have hk : wordIndex s.cfg .intrCtrl = some 2 := rfl
  refine resetBlock_word_other s (fun j hj heq => ?_) fun j hj heq => ?_
  · exact absurd (wordIndex_inj hs.facts hk (heq ▸ wordIndex_ctrl hj)) (by simp)
  · exact absurd (wordIndex_inj hs.facts hk (heq ▸ wordIndex_seg hj)) (by simp)

/-- Reset acknowledges (R332). -/
theorem resetBlock_lineFollows {s : State} (hs : s.Shape) : LineFollows .reset s (resetBlock s) :=
  .inr (.inr ⟨rfl, .inl rfl, by rw [resetBlock_word_intrCtrl hs]; simp, rfl⟩)

/-- The disable write clears `dma_status` (R264). -/
theorem dmaStop_status {s : State} (hx : 37 ≤ s.x.length) : ((dmaStop s).word 2).getLsbD 11 = false := by
  rw [dmaStop_word s 2 hx]
  simp [clearDmaStatus, dmaStatusMask]

/-- A row that writes DMA_CTRL, whatever the word: a disable write acknowledges where the variant has the engine, and
any other write leaves the line (R252, R309). -/
theorem writeCategory_dmaCtrl_lineFollows {i : Instr} {s : State} {w : Word} (hs : s.Shape)
    (hi : i ∈ [.wr32DmaCtrl w, .dmaStop w, .wDmactrl w]) : LineFollows i s (writeCategory s .dmaCtrl w) := by
  rcases writeCategory_irq s .dmaCtrl w with hkept | ⟨-, hd, hoff⟩
  · exact .inl hkept
  · have hx := hs.x_length_ge
    rw [writeCategory_dmaCtrl hd, writeDmaCtrl_of_disable s hoff]
    exact .inr (.inr ⟨rfl, .inr ⟨w, hoff, hi⟩, dmaStop_status (by rw [State.setWord_length]; omega), rfl⟩)

/-- Every operation of the spec on a slave of the variant moves the line only at its events (R305, R308, R309). -/
theorem exec_lineFollows {i : Instr} {s t : State} (hs : s.Shape) (hwf : i.wf s.cfg = true)
    (hslave : ∀ j w, i ∈ [.setctrl j w, .csLow j, .csHigh j] → j < s.cfg.maxSlaves) (he : exec i s = .next t) :
    LineFollows i s t := by
  cases i with
  | dmaq => exact quantum_lineFollows hs he
  | fRd3 | fRd4 | fUrd =>
    obtain ⟨haccess, -⟩ := channelReadOp_access he
    exact .inl haccess.irq
  | frd =>
    obtain ⟨haccess, -⟩ := windowReadOp_access he
    exact .inl haccess.irq
  | fWr3 | fWr4 | fUwr => exact .inl (channelWriteOp_access he).irq
  | fwr => exact .inl (windowWriteOp_access he).irq
  | reset =>
    obtain rfl := Host.Outcome.next.inj he
    exact resetBlock_lineFollows hs
  | wr32DmaCtrl w | dmaStop w | wDmactrl w =>
    obtain rfl := Host.Outcome.next.inj he
    exact writeCategory_dmaCtrl_lineFollows hs (by simp)
  | dmaStartF2d | dmaStartD2f | dmaStartCksum | dmaStart =>
    obtain rfl := Host.Outcome.next.inj he
    exact .inl (writeCategory_irq_of_no_disable s fun _ => enable_of_masked (of_decide_eq_true hwf) (by decide))
  | setctrl j w =>
    obtain rfl := Host.Outcome.next.inj he
    exact .inl (wr32_ctrlOffset_irq hs.facts rfl (hslave j w (by simp)) w)
  | setseg j w =>
    obtain rfl := Host.Outcome.next.inj he
    exact .inl (wr32_segOffset_irq hs.facts (of_decide_eq_true hwf) w)
  | csLow j | csHigh j =>
    obtain rfl := Host.Outcome.next.inj he
    exact .inl (readModifyCtrl_irq hs.facts (hslave j 0#32 (by simp)) _)
  | rd32Conf | rd32CeCtrl | rd32IntrCtrl | rd32Ctrl0 | rd32Ctrl1 | rd32Ctrl2 | rd32Ctrl3 | rd32Ctrl4 | rd32Seg0
  | rd32Seg1 | rd32Seg2 | rd32Seg3 | rd32Seg4 | rd32Misc1 | rd32Misc2 | rd32DmaCtrl | rd32DmaFlashAddr
  | rd32DmaDramAddr | rd32DmaLen | rd32DmaChecksum | rd32Timings | rd32Unimp | rd32Oor =>
    obtain rfl := Host.Outcome.next.inj he
    exact .inl (readCategory_irq s _)
  | wAddr side =>
    obtain rfl := Host.Outcome.next.inj he
    exact .inl (writeCategory_irq_of_no_disable s (by cases side <;> exact nofun))
  | _ =>
    obtain rfl := Host.Outcome.next.inj he
    exact .inl (writeCategory_irq_of_no_disable s nofun)

/-- Settles O51: a line that changed did so at one of its events, and the level tells which. -/
theorem interruptLineChangesOnlyAtItsEvents : Obligations.InterruptLineChangesOnlyAtItsEvents := by
  intro i s t hs hwf hslave he
  refine ⟨fun hbefore hafter => ?_, fun hbefore hafter => ?_⟩ <;>
    rcases exec_lineFollows hs hwf hslave he with hkept | ⟨hhigh, hc⟩ | ⟨hlow, ha⟩
  · cases hbefore.symm.trans (hkept.symm.trans hafter)
  · exact ⟨hc.quantum, hc.last, hc.enabled, hc.status, hc.idle⟩
  · cases hlow.symm.trans hafter
  · cases hbefore.symm.trans (hkept.symm.trans hafter)
  · cases hhigh.symm.trans hafter
  · exact ⟨ha.event, ha.status, ha.idle⟩

end Sys2Proof.Machine

namespace Sys2Proof.Machine

-- Reset determines the block's state and is idempotent (R332, R333)

/-- Every chip select is inactive after reset, also one the variant has no output for (R333). -/
theorem resetBlock_csLevel (s : State) (i : Nat) : (resetBlock s).csLevel i = .inactive := by
  by_cases hi : i < s.cfg.numCs <;> simp [State.csLevel, hi]

/-- The block's own state after reset is a function of the configuration alone (R333). -/
theorem resetBlock_block_of_cfg {s t : State} (h : s.cfg = t.cfg) :
    (resetBlock t).x = (resetBlock s).x ∧ (resetBlock t).chan = (resetBlock s).chan
      ∧ (resetBlock t).csOut = (resetBlock s).csOut ∧ (resetBlock t).irq = (resetBlock s).irq
      ∧ (resetBlock t).dma = (resetBlock s).dma := by
  simp [h]

/-- A second reset changes no level, so it leaves the bus history too. -/
theorem resetBlock_resetBlock_trace (s : State) : (resetBlock (resetBlock s)).trace = (resetBlock s).trace := by
  rw [resetBlock_trace (resetBlock s), resetBlock_csOut, resetBlock_cfg, csEdges_self, List.append_nil]

/-- A second reset changes nothing (R333). -/
theorem resetBlock_idempotent (s : State) : resetBlock (resetBlock s) = resetBlock s := by
  obtain ⟨hx, hchan, hcs, hirq, hdma⟩ := resetBlock_block_of_cfg (resetBlock_cfg s).symm
  rw [resetBlock_frame (resetBlock s), hx, hchan, hcs, hirq, hdma, resetBlock_resetBlock_trace]

/-- Settles O9: the block's state after reset is the configuration's, and a second reset finds it so. -/
theorem resetIsIdempotentAndComplete : Obligations.ResetIsIdempotentAndComplete := by
  intro s t hcfg
  have htwice : exec .reset (resetBlock s) = .next (resetBlock s) :=
    congrArg Host.Outcome.next (resetBlock_idempotent s)
  exact ⟨resetBlock s, resetBlock t, resetBlock s, rfl, rfl, htwice, resetBlock_block_of_cfg hcfg, rfl,
    resetBlock_romd s, resetBlock_csLevel s⟩

end Sys2Proof.Machine
